-- ==== Sys2Proof/Word.lean ====
section
/-!
DEFINITION. The words of the block: bytes, command words, and the eight-word chaining value that both
hash algorithms use (00_scope.md R10, R11, 10_state.md R23).
-/
namespace Sys2Proof

/-- One byte of MEM, of a message or of a digest (00_scope.md R12). -/
abbrev Byte := BitVec 8

/-- A host register or one host data transfer (20_memory.md R61). -/
abbrev Word32 := BitVec 32

/-- A command word (30_encoding.md R85). -/
abbrev Command := BitVec 64

/-- Eight words of width `w`: a chaining state `H[0..7]` (10_state.md R23) or the working variables
`a..h` of a round (40_sha256.md R115), which R116 fills from `H[0..7]` in this order. -/
structure Words8 (w : Nat) where
  a : BitVec w
  b : BitVec w
  c : BitVec w
  d : BitVec w
  e : BitVec w
  f : BitVec w
  g : BitVec w
  h : BitVec w
  deriving DecidableEq, Repr

/-- The eight words in index order. -/
def Words8.toList {w : Nat} (x : Words8 w) : List (BitVec w) :=
  [x.a, x.b, x.c, x.d, x.e, x.f, x.g, x.h]

end Sys2Proof
end

