-- ==== Sys2Proof/Syntax.lean ====
section
/-!
DEFINITION. The 17 commands (30_encoding.md R89), with the operands each uses (R88, R95), and the two
ways a word fails to decode (R92).
-/
namespace Sys2Proof

/-- A command with its used operands, as the unsigned numbers 30_encoding.md R87 makes of them. -/
inductive Instr where
  /-- NOP, 43_system.md R193. -/
  | nop
  /-- S256.INIT, 40_sha256.md R122. -/
  | s256Init
  /-- S256.WRITE, 40_sha256.md R123: message address and byte count. -/
  | s256Write (src len : Nat)
  /-- S256.FINAL, 40_sha256.md R124: digest address. -/
  | s256Final (dst : Nat)
  /-- S256.XFORM, 40_sha256.md R125: first block address and block count. -/
  | s256Xform (src nblk : Nat)
  /-- S256.LDST, 40_sha256.md R126: chaining-state address and blocks already absorbed. -/
  | s256Ldst (src nblk : Nat)
  /-- S256.STST, 40_sha256.md R127: chaining-state address. -/
  | s256Stst (dst : Nat)
  /-- S512.INIT, 41_sha512.md R156. -/
  | s512Init
  /-- S512.WRITE, 41_sha512.md R157. -/
  | s512Write (src len : Nat)
  /-- S512.FINAL, 41_sha512.md R158. -/
  | s512Final (dst : Nat)
  /-- S512.XFORM, 41_sha512.md R159. -/
  | s512Xform (src nblk : Nat)
  /-- S512.LDST, 41_sha512.md R160. -/
  | s512Ldst (src nblk : Nat)
  /-- S512.STST, 41_sha512.md R161. -/
  | s512Stst (dst : Nat)
  /-- HMAC.KEY, 42_hmac_sha512.md R173: key address and key length in bytes. -/
  | hmacKey (src len : Nat)
  /-- HMAC.WRITE, 42_hmac_sha512.md R174. -/
  | hmacWrite (src len : Nat)
  /-- HMAC.FINAL, 42_hmac_sha512.md R175. -/
  | hmacFinal (dst : Nat)
  /-- HMAC.CLEAR, 42_hmac_sha512.md R176. -/
  | hmacClear
  deriving DecidableEq, Repr

/-- Why a word is no command (30_encoding.md R92). -/
inductive DecodeError where
  /-- OPC is not one of the 17 (30_encoding.md R90). -/
  | illegalOpcode
  /-- OPC is listed, but a must-be-zero field is not zero (30_encoding.md R91). -/
  | reservedField
  deriving DecidableEq, Repr

/-- The outcome of decoding: a command or one of the two errors. -/
inductive Decoded where
  | ok (i : Instr)
  | error (e : DecodeError)
  deriving DecidableEq, Repr

/-- The command, where there is one. -/
def Decoded.toOption : Decoded → Option Instr
  | .ok i => some i
  | .error _ => none

end Sys2Proof
end

