-- ==== Sys2Proof/WellFormed.lean ====
section
/-!
DEFINITION. Which operands fit the fields of the command word: "An assembler refuses an operand that
does not fit its field: src or dst ≥ 65536, or len ≥ 2^24" (30_encoding.md R95).
-/
namespace Sys2Proof

/-- A SRC or DST operand fits its 16 bits (30_encoding.md R86). -/
def addrFits (a : Nat) : Bool := decide (a < 65536)

/-- A LEN operand fits its 24 bits (30_encoding.md R86). -/
def lenFits (n : Nat) : Bool := decide (n < 2 ^ 24)

/-- Every operand of the command fits its field. -/
def Instr.wellFormed : Instr → Bool
  | .nop => true
  | .s256Init => true
  | .s256Write src len => addrFits src && lenFits len
  | .s256Final dst => addrFits dst
  | .s256Xform src nblk => addrFits src && lenFits nblk
  | .s256Ldst src nblk => addrFits src && lenFits nblk
  | .s256Stst dst => addrFits dst
  | .s512Init => true
  | .s512Write src len => addrFits src && lenFits len
  | .s512Final dst => addrFits dst
  | .s512Xform src nblk => addrFits src && lenFits nblk
  | .s512Ldst src nblk => addrFits src && lenFits nblk
  | .s512Stst dst => addrFits dst
  | .hmacKey src len => addrFits src && lenFits len
  | .hmacWrite src len => addrFits src && lenFits len
  | .hmacFinal dst => addrFits dst
  | .hmacClear => true

end Sys2Proof
end

