-- ==== Sys2Proof/Decode.lean ====
section
/-!
DEFINITION. The decoder of 30_encoding.md R92, total on 64-bit words, and after it the encoder (R86 to
R89, R93), the table of R93, and the assembler's operand forms (R95).
-/
namespace Sys2Proof

/-- OPC, bits 63:56 (30_encoding.md R86). -/
def opcField (w : Command) : BitVec 8 := w.extractLsb' 56 8

/-- SRC, bits 55:40 (30_encoding.md R86). -/
def srcField (w : Command) : BitVec 16 := w.extractLsb' 40 16

/-- DST, bits 39:24 (30_encoding.md R86). -/
def dstField (w : Command) : BitVec 16 := w.extractLsb' 24 16

/-- LEN, bits 23:0 (30_encoding.md R86). -/
def lenField (w : Command) : BitVec 24 := w.extractLsb' 0 24

/-- A command with no operands: SRC, DST and LEN must be zero (30_encoding.md R88, R91). -/
def decodeBare (w : Command) (i : Instr) : Decoded :=
  if srcField w = 0 ∧ dstField w = 0 ∧ lenField w = 0 then .ok i else .error .reservedField

/-- A command with SRC and LEN: DST must be zero (30_encoding.md R87, R88, R91). -/
def decodeSrcLen (w : Command) (f : Nat → Nat → Instr) : Decoded :=
  if dstField w = 0 then .ok (f (srcField w).toNat (lenField w).toNat) else .error .reservedField

/-- A command with DST: SRC and LEN must be zero (30_encoding.md R87, R88, R91). -/
def decodeDst (w : Command) (f : Nat → Instr) : Decoded :=
  if srcField w = 0 ∧ lenField w = 0 then .ok (f (dstField w).toNat) else .error .reservedField

/-- Decode(word), 30_encoding.md R92, with the opcode map of R89. -/
def decode (w : Command) : Decoded :=
  match (opcField w).toNat with
  | 0x00 => decodeBare w .nop
  | 0x01 => decodeBare w .s256Init
  | 0x02 => decodeSrcLen w .s256Write
  | 0x03 => decodeDst w .s256Final
  | 0x04 => decodeSrcLen w .s256Xform
  | 0x05 => decodeSrcLen w .s256Ldst
  | 0x06 => decodeDst w .s256Stst
  | 0x11 => decodeBare w .s512Init
  | 0x12 => decodeSrcLen w .s512Write
  | 0x13 => decodeDst w .s512Final
  | 0x14 => decodeSrcLen w .s512Xform
  | 0x15 => decodeSrcLen w .s512Ldst
  | 0x16 => decodeDst w .s512Stst
  | 0x21 => decodeSrcLen w .hmacKey
  | 0x22 => decodeSrcLen w .hmacWrite
  | 0x23 => decodeDst w .hmacFinal
  | 0x24 => decodeBare w .hmacClear
  | _ => .error .illegalOpcode

/-- The instruction the decoder reads from an `nbits`-bit table word; the bits above are zero. A
command is one 64-bit word (30_encoding.md R85), so the table's bit numbers are the word's own. -/
def decodeTableWord (nbits w : Nat) : Option Instr :=
  (decode (BitVec.ofNat 64 (w % 2 ^ nbits))).toOption

/-- The command word with these fields (30_encoding.md R86). -/
def pack (opc : BitVec 8) (src dst : BitVec 16) (len : BitVec 24) : Command :=
  opc ++ src ++ dst ++ len

/-- A word whose only operands are SRC and LEN. -/
def packSrcLen (opc : BitVec 8) (src len : Nat) : Command :=
  pack opc (BitVec.ofNat 16 src) 0 (BitVec.ofNat 24 len)

/-- A word whose only operand is DST. -/
def packDst (opc : BitVec 8) (dst : Nat) : Command :=
  pack opc 0 (BitVec.ofNat 16 dst) 0

/-- The OPC of each command (30_encoding.md R89). -/
def Instr.opcode : Instr → BitVec 8
  | .nop => 0x00
  | .s256Init => 0x01
  | .s256Write _ _ => 0x02
  | .s256Final _ => 0x03
  | .s256Xform _ _ => 0x04
  | .s256Ldst _ _ => 0x05
  | .s256Stst _ => 0x06
  | .s512Init => 0x11
  | .s512Write _ _ => 0x12
  | .s512Final _ => 0x13
  | .s512Xform _ _ => 0x14
  | .s512Ldst _ _ => 0x15
  | .s512Stst _ => 0x16
  | .hmacKey _ _ => 0x21
  | .hmacWrite _ _ => 0x22
  | .hmacFinal _ => 0x23
  | .hmacClear => 0x24

/-- The word of a command; an operand it does not use is encoded as 0 (30_encoding.md R95). -/
def encode : Instr → Command
  | .nop => pack 0x00 0 0 0
  | .s256Init => pack 0x01 0 0 0
  | .s256Write src len => packSrcLen 0x02 src len
  | .s256Final dst => packDst 0x03 dst
  | .s256Xform src nblk => packSrcLen 0x04 src nblk
  | .s256Ldst src nblk => packSrcLen 0x05 src nblk
  | .s256Stst dst => packDst 0x06 dst
  | .s512Init => pack 0x11 0 0 0
  | .s512Write src len => packSrcLen 0x12 src len
  | .s512Final dst => packDst 0x13 dst
  | .s512Xform src nblk => packSrcLen 0x14 src nblk
  | .s512Ldst src nblk => packSrcLen 0x15 src nblk
  | .s512Stst dst => packDst 0x16 dst
  | .hmacKey src len => packSrcLen 0x21 src len
  | .hmacWrite src len => packSrcLen 0x22 src len
  | .hmacFinal dst => packDst 0x23 dst
  | .hmacClear => pack 0x24 0 0 0

/-- One row of the table of 30_encoding.md R93. -/
structure TableRow where
  mnemonic : String
  mask : Command
  pattern : Command
  deriving DecidableEq, Repr

/-- The table of 30_encoding.md R93. -/
def opcodeTable : List TableRow :=
  [ ⟨"NOP", 0xFFFFFFFFFFFFFFFF, 0x0000000000000000⟩,
    ⟨"S256.INIT", 0xFFFFFFFFFFFFFFFF, 0x0100000000000000⟩,
    ⟨"S256.WRITE", 0xFF0000FFFF000000, 0x0200000000000000⟩,
    ⟨"S256.FINAL", 0xFFFFFF0000FFFFFF, 0x0300000000000000⟩,
    ⟨"S256.XFORM", 0xFF0000FFFF000000, 0x0400000000000000⟩,
    ⟨"S256.LDST", 0xFF0000FFFF000000, 0x0500000000000000⟩,
    ⟨"S256.STST", 0xFFFFFF0000FFFFFF, 0x0600000000000000⟩ ] ++
  [ ⟨"S512.INIT", 0xFFFFFFFFFFFFFFFF, 0x1100000000000000⟩,
    ⟨"S512.WRITE", 0xFF0000FFFF000000, 0x1200000000000000⟩,
    ⟨"S512.FINAL", 0xFFFFFF0000FFFFFF, 0x1300000000000000⟩,
    ⟨"S512.XFORM", 0xFF0000FFFF000000, 0x1400000000000000⟩,
    ⟨"S512.LDST", 0xFF0000FFFF000000, 0x1500000000000000⟩,
    ⟨"S512.STST", 0xFFFFFF0000FFFFFF, 0x1600000000000000⟩,
    ⟨"HMAC.KEY", 0xFF0000FFFF000000, 0x2100000000000000⟩,
    ⟨"HMAC.WRITE", 0xFF0000FFFF000000, 0x2200000000000000⟩,
    ⟨"HMAC.FINAL", 0xFFFFFF0000FFFFFF, 0x2300000000000000⟩,
    ⟨"HMAC.CLEAR", 0xFFFFFFFFFFFFFFFF, 0x2400000000000000⟩ ]

/-- The mnemonic of each command (30_encoding.md R89). -/
def Instr.mnemonic : Instr → String
  | .nop => "NOP"
  | .s256Init => "S256.INIT"
  | .s256Write _ _ => "S256.WRITE"
  | .s256Final _ => "S256.FINAL"
  | .s256Xform _ _ => "S256.XFORM"
  | .s256Ldst _ _ => "S256.LDST"
  | .s256Stst _ => "S256.STST"
  | .s512Init => "S512.INIT"
  | .s512Write _ _ => "S512.WRITE"
  | .s512Final _ => "S512.FINAL"
  | .s512Xform _ _ => "S512.XFORM"
  | .s512Ldst _ _ => "S512.LDST"
  | .s512Stst _ => "S512.STST"
  | .hmacKey _ _ => "HMAC.KEY"
  | .hmacWrite _ _ => "HMAC.WRITE"
  | .hmacFinal _ => "HMAC.FINAL"
  | .hmacClear => "HMAC.CLEAR"

/-- The command an assembler line names: a mnemonic with its operands in order (30_encoding.md R95). -/
def parseLine : String → List Nat → Option Instr
  | "NOP", [] => some .nop
  | "S256.INIT", [] => some .s256Init
  | "S256.WRITE", [src, len] => some (.s256Write src len)
  | "S256.FINAL", [dst] => some (.s256Final dst)
  | "S256.XFORM", [src, nblk] => some (.s256Xform src nblk)
  | "S256.LDST", [src, nblk] => some (.s256Ldst src nblk)
  | "S256.STST", [dst] => some (.s256Stst dst)
  | "S512.INIT", [] => some .s512Init
  | "S512.WRITE", [src, len] => some (.s512Write src len)
  | "S512.FINAL", [dst] => some (.s512Final dst)
  | "S512.XFORM", [src, nblk] => some (.s512Xform src nblk)
  | "S512.LDST", [src, nblk] => some (.s512Ldst src nblk)
  | "S512.STST", [dst] => some (.s512Stst dst)
  | "HMAC.KEY", [src, len] => some (.hmacKey src len)
  | "HMAC.WRITE", [src, len] => some (.hmacWrite src len)
  | "HMAC.FINAL", [dst] => some (.hmacFinal dst)
  | "HMAC.CLEAR", [] => some .hmacClear
  | _, _ => none

/-- Assemble a line, refusing an operand that does not fit its field (30_encoding.md R95). -/
def assemble (mnemonic : String) (operands : List Nat) : Option Command :=
  match parseLine mnemonic operands with
  | some i => if i.wellFormed then some (encode i) else none
  | none => none

end Sys2Proof
end

