-- ==== Sys2Proof/Config.lean ====
section
/-!
DEFINITION. What an implementation fixes (00_scope.md R5), and the free values: what the spec calls a
draw (R15) and the LATENCY it leaves open (43_system.md R192). Nothing evaluates a free value.
-/
namespace Sys2Proof

/-- IMPL_VARIANT: which equivalent datapath implements the transform (00_scope.md R5). -/
inductive ImplVariant where
  | portable
  | sse4
  | avx2
  | shani
  deriving DecidableEq, Repr

/-- The implementation parameters of 00_scope.md R5, but LATENCY, which is a free value below.
DESIGN CHOICE: they stand in State, where no step changes them (log 5). -/
structure Params where
  /-- MEM_SIZE: bytes in MEM. -/
  memSize : Nat
  /-- BLOCK_BASE: the host bus address of register offset 0 (20_memory.md R60, R72). -/
  blockBase : Nat
  /-- IMPL_VARIANT: it changes no result, only LATENCY (R9). -/
  implVariant : ImplVariant
  /-- SELFTEST_PASS (70_reset_and_hazards.md R237). -/
  selfTestPass : Bool
  deriving DecidableEq, Repr

/-- "a power of two from 4096 to 65536" (00_scope.md R5). -/
def Params.valid (p : Params) : Bool :=
  [4096, 8192, 16384, 32768, 65536].contains p.memSize

/-- The spec's default MEM_SIZE, the SELFTEST_PASS of a correct block, and a BLOCK_BASE and IMPL_VARIANT of
the model's (00_scope.md R5). DESIGN CHOICE: the parameters of `State.reset` (log 5). -/
def Params.default : Params :=
  { memSize := 65536, blockBase := 0, implVariant := .portable, selfTestPass := true }

/-- LIMIT = 2^61 - 1, the longest message in bytes (00_scope.md R7). -/
def lengthLimit : Nat := 2 ^ 61 - 1

/-- FREE VALUE: the `n`-th drawn byte (00_scope.md R15; log 3). -/
opaque Config.freeByte (n : Nat) : BitVec 8

/-- FREE VALUE: the `n`-th drawn 32-bit word (00_scope.md R15; log 3). -/
opaque Config.freeWord (n : Nat) : BitVec 32

/-- FREE VALUE: LATENCY, counted in host turns (43_system.md R192, 70_reset_and_hazards.md R236; log 2). It
may differ from one IMPL_VARIANT to another (00_scope.md R9). -/
opaque Config.latency (variant : ImplVariant) (n : Nat) : Nat

end Sys2Proof
end

