-- ==== Sys2Proof/Machine/State.lean ====
section
/-!
DEFINITION. The state of the block (10_state.md R20), the host actions not yet performed (43_system.md
R199), and the state after hardware reset (R41). Plain data only.
-/
namespace Sys2Proof.Machine

/-- A hash instance of width `w` (10_state.md R23): 32 for SHA-256, 64 for SHA-512. -/
structure HashInst (w : Nat) where
  /-- H[0..7], the chaining words. -/
  h : Words8 w
  /-- CNT, total bytes absorbed. -/
  cnt : BitVec 64
  /-- BUF, the unprocessed tail. -/
  buf : List Byte
  /-- FIN, set by Finalize. -/
  fin : Bool
  deriving DecidableEq, Repr

/-- The Initialize state: the given words, counter 0, empty buffer, not finalized (10_state.md R41). -/
def HashInst.initial {w : Nat} (h : Words8 w) : HashInst w := { h := h, cnt := 0, buf := [], fin := false }

/-- Eight zero words (10_state.md R41, 42_hmac_sha512.md R176). -/
def zeroWords (w : Nat) : Words8 w := ⟨0, 0, 0, 0, 0, 0, 0, 0⟩

/-- MEM as the list of bytes written since hardware reset, by rising address. A byte not listed holds
no value (20_memory.md R80; log 4). -/
abbrev Memory := List Host.Cell

/-- The error codes (60_exceptions.md R205); 9 to 15 are never produced (log 14). -/
inductive ErrCode where
  /-- 0: no error recorded. -/
  | noError
  /-- 1 (R206). -/
  | illegalOpcode
  /-- 2 (R207). -/
  | reservedField
  /-- 3 (R209). -/
  | range
  /-- 4 (R210). -/
  | useAfterFinal
  /-- 5 (R208). -/
  | notKeyed
  /-- 6 (R211). -/
  | lengthLimit
  /-- 7 (R212). -/
  | busyOverrun
  /-- 8 (R213). -/
  | selftestFail
  deriving DecidableEq, Repr

/-- One action of the host (43_system.md R199), or of the platform around it. Offsets are the 17-bit
byte offsets of 20_memory.md R60. -/
inductive HostAction where
  /-- W off, data, wstrb: a 32-bit write. -/
  | write (off : BitVec 17) (data : BitVec 32) (wstrb : BitVec 4)
  /-- R off: a 32-bit read. -/
  | read (off : BitVec 17)
  /-- WAIT: read STATUS until BUSY reads 0. -/
  | wait
  /-- An access of a width other than 32 bits, which is no transaction of this bus (20_memory.md R62). -/
  | otherWidth (off : BitVec 17)
  /-- The platform asserts and releases the reset input (70_reset_and_hazards.md R235; log 12). -/
  | hardwareReset
  deriving DecidableEq, Repr

/-- What marks the run as gone wrong, for good (00_scope.md R15, 43_system.md R201). -/
inductive Fault where
  /-- A command reads `len` bytes at `addr`, and one of them was never written. Raised by the meanings of
  S256.WRITE, S256.XFORM, S256.LDST, S512.WRITE, S512.XFORM, S512.LDST, HMAC.KEY and HMAC.WRITE
  (20_memory.md R80). Safe: the block goes on with an unspecified byte. -/
  | readUnwritten (addr len : Nat)
  /-- The host writes the MEM window while BUSY = 1. Raised by a host write (70_reset_and_hazards.md
  R244). Safe: "A real block might corrupt the command in flight, or might not". -/
  | memWriteWhileBusy
  deriving DecidableEq, Repr

/-- What the model gives no meaning (00_scope.md R15). -/
inductive Refusal where
  /-- An instruction with no meaning yet. Raised by no arm of `exec`. Safe. -/
  | notModelled (mnemonic : String)
  /-- A host access at an offset that is no multiple of 4. Raised by a host read or write (20_memory.md
  R62). Safe. -/
  | misalignedAccess
  /-- A host access of a width other than 32 bits. Raised by that host action (20_memory.md R62). Safe. -/
  | accessWidth
  /-- A host write to a register with WSTRB other than 0b1111. Raised by a host write (20_memory.md R65).
  Safe. -/
  | partialStrobe
  /-- INFLIGHT holds a word that does not decode. Raised by the engine's completion step, in states no run
  reaches (43_system.md R190 decodes before it accepts; log 17). Safe. -/
  | undecodableInflight
  deriving DecidableEq, Repr

/-- The architectural state of 10_state.md R20, the parameters of 00_scope.md R5, and the model's own
fields `host`, `reads`, `wait` and `draws`. -/
structure State where
  /-- The implementation's parameters, which no step changes (log 5). -/
  params : Params
  /-- S256 (R24). -/
  s256 : HashInst 32
  /-- S512 (R25). -/
  s512 : HashInst 64
  /-- HI, HMAC's inner hash (R26). -/
  hi : HashInst 64
  /-- HO, HMAC's outer hash (R26). -/
  ho : HashInst 64
  /-- HKEYED (R26). -/
  hkeyed : Bool
  /-- HFIN (R26). -/
  hfin : Bool
  /-- MEM (R29). -/
  mem : Memory
  /-- BUSY (R40). -/
  busy : Bool
  /-- DONE (R40). -/
  done : Bool
  /-- ERR (R40). -/
  err : Bool
  /-- ERR_LOST (R40). -/
  errLost : Bool
  /-- FATAL (R40). -/
  fatal : Bool
  /-- ERRCODE (R40, 60_exceptions.md R205). -/
  errCode : ErrCode
  /-- ERR_CMD (R37). -/
  errCmd : Command
  /-- IE_DONE (R34). -/
  ieDone : Bool
  /-- IE_ERR (R34). -/
  ieErr : Bool
  /-- CMD_LO (R36). -/
  cmdLo : Word32
  /-- CMD_HI (R36). -/
  cmdHi : Word32
  /-- INFLIGHT (R40). -/
  inflight : Option Command
  /-- MODEL: the host actions not yet performed, the next one first (43_system.md R199; log 1). -/
  host : List HostAction
  /-- MODEL: the values the host's reads returned, newest first (log 10). -/
  reads : List Word32
  /-- MODEL: host turns left before the engine's pending step, while BUSY = 1 (log 2). -/
  wait : Nat
  /-- MODEL: how many free values have been drawn (log 3). -/
  draws : Nat
  deriving DecidableEq, Repr

/-- Every state at its value right after hardware reset, with the self-test running (10_state.md R41,
70_reset_and_hazards.md R235, R236). The model's own fields are given (logs 1, 2, 3, 10). -/
def State.afterReset (p : Params) (host : List HostAction) (reads : List Word32) (wait draws : Nat) : State where
  params := p
  s256 := HashInst.initial iv256
  s512 := HashInst.initial iv512
  hi := HashInst.initial (zeroWords 64)
  ho := HashInst.initial (zeroWords 64)
  hkeyed := false
  hfin := false
  mem := []
  busy := true
  done := false
  err := false
  errLost := false
  fatal := false
  errCode := .noError
  errCmd := 0
  ieDone := false
  ieErr := false
  cmdLo := 0
  cmdHi := 0
  inflight := none
  host := host
  reads := reads
  wait := wait
  draws := draws

/-- The machine right after reset, with the default parameters (log 5) and no host program loaded. -/
def State.reset : State := State.afterReset Params.default [] [] (Config.latency Params.default.implVariant 0) 1

end Sys2Proof.Machine
end

