-- ==== Sys2Proof/Machine/Transform.lean ====
section
/-!
DEFINITION. The two transforms (40_sha256.md R105 to R118, 41_sha512.md R140 to R152), written once
over an algorithm's constants and functions, as the source does: "a SHA-512 transform with the same
structure". Also the big-endian encodings of 00_scope.md R12.
-/
namespace Sys2Proof.Machine

/-- ROTR^n (00_scope.md R11). -/
def rotr {w : Nat} (n : Nat) (x : BitVec w) : BitVec w := (x >>> n) ||| (x <<< (w - n))

/-- SHR^n (00_scope.md R11). -/
def shr {w : Nat} (n : Nat) (x : BitVec w) : BitVec w := x >>> n

/-- Ch (40_sha256.md R107, 41_sha512.md R142). -/
def ch {w : Nat} (x y z : BitVec w) : BitVec w := (x &&& y) ^^^ (~~~x &&& z)

/-- Maj (40_sha256.md R108, 41_sha512.md R142). -/
def maj {w : Nat} (x y z : BitVec w) : BitVec w := (x &&& y) ^^^ (x &&& z) ^^^ (y &&& z)

/-- Σ0_256 (40_sha256.md R109). -/
def bigSigma0of256 (x : BitVec 32) : BitVec 32 := rotr 2 x ^^^ rotr 13 x ^^^ rotr 22 x

/-- Σ1_256 (40_sha256.md R110). -/
def bigSigma1of256 (x : BitVec 32) : BitVec 32 := rotr 6 x ^^^ rotr 11 x ^^^ rotr 25 x

/-- σ0_256 (40_sha256.md R111). -/
def smallSigma0of256 (x : BitVec 32) : BitVec 32 := rotr 7 x ^^^ rotr 18 x ^^^ shr 3 x

/-- σ1_256 (40_sha256.md R112). -/
def smallSigma1of256 (x : BitVec 32) : BitVec 32 := rotr 17 x ^^^ rotr 19 x ^^^ shr 10 x

/-- Σ0_512 (41_sha512.md R143). -/
def bigSigma0of512 (x : BitVec 64) : BitVec 64 := rotr 28 x ^^^ rotr 34 x ^^^ rotr 39 x

/-- Σ1_512 (41_sha512.md R144). -/
def bigSigma1of512 (x : BitVec 64) : BitVec 64 := rotr 14 x ^^^ rotr 18 x ^^^ rotr 41 x

/-- σ0_512 (41_sha512.md R145). -/
def smallSigma0of512 (x : BitVec 64) : BitVec 64 := rotr 1 x ^^^ rotr 8 x ^^^ shr 7 x

/-- σ1_512 (41_sha512.md R146). -/
def smallSigma1of512 (x : BitVec 64) : BitVec 64 := rotr 19 x ^^^ rotr 61 x ^^^ shr 6 x

/-- What distinguishes the two algorithms (00_scope.md R5 "Fixed sizes", R6). The number of rounds is
the number of round constants. -/
structure Algo (w : Nat) where
  /-- Block size in bytes. -/
  blockBytes : Nat
  /-- Width of the bit-length field of the padding, in bytes. -/
  lenBytes : Nat
  iv : Words8 w
  k : List (BitVec w)
  bigSigma0 : BitVec w → BitVec w
  bigSigma1 : BitVec w → BitVec w
  smallSigma0 : BitVec w → BitVec w
  smallSigma1 : BitVec w → BitVec w

/-- SHA-256 (40_sha256.md). -/
def sha256 : Algo 32 where
  blockBytes := 64
  lenBytes := 8
  iv := iv256
  k := k256
  bigSigma0 := bigSigma0of256
  bigSigma1 := bigSigma1of256
  smallSigma0 := smallSigma0of256
  smallSigma1 := smallSigma1of256

/-- SHA-512 (41_sha512.md). -/
def sha512 : Algo 64 where
  blockBytes := 128
  lenBytes := 16
  iv := iv512
  k := k512
  bigSigma0 := bigSigma0of512
  bigSigma1 := bigSigma1of512
  smallSigma0 := smallSigma0of512
  smallSigma1 := smallSigma1of512

/-- BEval (00_scope.md R12). -/
def beVal (s : List Byte) : Nat := s.foldl (fun v b => v * 256 + b.toNat) 0

/-- The `n`-byte big-endian encoding of a word, BE_w for `n = w/8` (00_scope.md R12). -/
def beBytes {w : Nat} (n : Nat) (x : BitVec w) : List Byte :=
  (List.range n).map fun i => x.extractLsb' (8 * (n - 1 - i)) 8

/-- The `n` consecutive `w`-bit big-endian words at the start of a byte string. -/
def beWords (w n : Nat) (s : List Byte) : List (BitVec w) :=
  (List.range n).map fun t => BitVec.ofNat w (beVal ((s.drop (w / 8 * t)).take (w / 8)))

/-- W[t] from the words before it, newest first (40_sha256.md R114, 41_sha512.md R148). -/
def scheduleNext {w : Nat} (A : Algo w) (newest : List (BitVec w)) : BitVec w :=
  A.smallSigma1 (newest.getD 1 0) + newest.getD 6 0 + A.smallSigma0 (newest.getD 14 0) + newest.getD 15 0

/-- `n` more schedule words, newest first. -/
def scheduleExtend {w : Nat} (A : Algo w) : Nat → List (BitVec w) → List (BitVec w)
  | 0, newest => newest
  | n + 1, newest => scheduleExtend A n (scheduleNext A newest :: newest)

/-- The message schedule W of a block (40_sha256.md R113, R114, 41_sha512.md R147, R148). -/
def schedule {w : Nat} (A : Algo w) (block : List Byte) : List (BitVec w) :=
  (scheduleExtend A (A.k.length - 16) (beWords w 16 block).reverse).reverse

/-- Round t, given K[t] and W[t] (40_sha256.md R115, 41_sha512.md R149). -/
def round {w : Nat} (A : Algo w) (v : Words8 w) (kw : BitVec w × BitVec w) : Words8 w :=
  let t1 := v.h + A.bigSigma1 v.e + ch v.e v.f v.g + kw.1 + kw.2
  let t2 := A.bigSigma0 v.a + maj v.a v.b v.c
  { a := t1 + t2, b := v.a, c := v.b, d := v.c, e := v.d + t1, f := v.e, g := v.f, h := v.g }

/-- The feed-forward addition (40_sha256.md R116, 41_sha512.md R150). -/
def feedForward {w : Nat} (x y : Words8 w) : Words8 w :=
  { a := x.a + y.a, b := x.b + y.b, c := x.c + y.c, d := x.d + y.d,
    e := x.e + y.e, f := x.f + y.f, g := x.g + y.g, h := x.h + y.h }

/-- Compress(H, B) (40_sha256.md R116, 41_sha512.md R150). -/
def compress {w : Nat} (A : Algo w) (H : Words8 w) (block : List Byte) : Words8 w :=
  feedForward H ((A.k.zip (schedule A block)).foldl (round A) H)

/-- Compress* over the first `n` blocks of a byte string (40_sha256.md R117, 41_sha512.md R151). -/
def compressBlocks {w : Nat} (A : Algo w) : Nat → Words8 w → List Byte → Words8 w
  | 0, H, _ => H
  | n + 1, H, s => compressBlocks A n (compress A H (s.take A.blockBytes)) (s.drop A.blockBytes)

/-- Pad(c) for a message of `c` bytes (40_sha256.md R118, 41_sha512.md R152): the byte 0x80, zeros, and
the big-endian bit length, whose bytes above the low eight are zero. -/
def pad {w : Nat} (A : Algo w) (c : Nat) : List Byte :=
  let lastFree := A.blockBytes - 1 - A.lenBytes
  let z := (lastFree + A.blockBytes - c % A.blockBytes) % A.blockBytes
  0x80 :: (List.replicate z 0 ++ List.replicate (A.lenBytes - 8) 0 ++ beBytes 8 (BitVec.ofNat 64 (8 * c)))

/-- BE(H[0]) ‖ … ‖ BE(H[7]): the digest and the stored chaining state (40_sha256.md R121, R127,
41_sha512.md R155, R161). -/
def chainBytes {w : Nat} (H : Words8 w) : List Byte := H.toList.flatMap (beBytes (w / 8))

/-- The chaining state stored at the start of a byte string (40_sha256.md R126, 41_sha512.md R160). -/
def chainOfBytes (w : Nat) (s : List Byte) : Words8 w :=
  let word := fun i => (beWords w 8 s).getD i 0
  { a := word 0, b := word 1, c := word 2, d := word 3, e := word 4, f := word 5, g := word 6, h := word 7 }

/-- The whole hash of a message, as the standard states it: pad, then compress every block from the
initial state (00_scope.md R2, 40_sha256.md R128, 41_sha512.md R162). -/
def hash {w : Nat} (A : Algo w) (m : List Byte) : List Byte :=
  let padded := m ++ pad A m.length
  chainBytes (compressBlocks A (padded.length / A.blockBytes) A.iv padded)

end Sys2Proof.Machine
end

