-- ==== Sys2Proof/Machine/Ops.lean ====
section
/-!
DEFINITION. The named operations: MEM (00_scope.md R13), the hash instances (40_sha256.md R119, R120,
41_sha512.md R153, R154), recording an error and clearing it (60_exceptions.md R215, R217), and
completion (43_system.md R192).
-/
namespace Sys2Proof.Machine

/-! ## MEM -/

/-- The byte at an address, if one was written since hardware reset (20_memory.md R80). -/
def Memory.read : Memory → Nat → Option Byte
  | [], _ => none
  | (k, v) :: rest, a => if k = a then some v else Memory.read rest a

/-- Write one byte, keeping the list sorted by address. -/
def Memory.write : Memory → Nat → Byte → Memory
  | [], a, b => [(a, b)]
  | (k, v) :: rest, a, b =>
    if a < k then (a, b) :: (k, v) :: rest
    else if a = k then (a, b) :: rest
    else (k, v) :: Memory.write rest a b

/-- MemRead(a, n) (00_scope.md R13), where every one of the bytes was written. -/
def Memory.readBytes (m : Memory) : Nat → Nat → Option (List Byte)
  | _, 0 => some []
  | a, n + 1 =>
    match Memory.read m a with
    | none => none
    | some b => (Memory.readBytes m (a + 1) n).map (b :: ·)

/-- MemWrite(a, n, s) (00_scope.md R13). -/
def Memory.writeBytes : Memory → Nat → List Byte → Memory
  | m, _, [] => m
  | m, a, b :: s => Memory.writeBytes (Memory.write m a b) (a + 1) s

/-- The written bytes of a span become free values; no byte comes to count as written
(70_reset_and_hazards.md R240). -/
def Memory.scramble (m : Memory) (a n draws : Nat) : Memory :=
  m.map fun cell =>
    if a ≤ cell.1 ∧ cell.1 < a + n then (cell.1, Config.freeByte (draws + (cell.1 - a))) else cell

/-- The canonical form: addresses strictly rising. An unlisted byte holds no value, so no entry can equal
what an unlisted address reads as. -/
abbrev Memory.wf (m : Memory) : Prop := m.Pairwise fun x y => x.1 < y.1

/-! ## Hash instances -/

/-- Absorb (40_sha256.md R119, 41_sha512.md R153). -/
def absorb {w : Nat} (A : Algo w) (I : HashInst w) (m : List Byte) : HashInst w :=
  let data := I.buf ++ m
  let n := data.length / A.blockBytes
  { I with
    h := compressBlocks A n I.h data
    buf := data.drop (A.blockBytes * n)
    cnt := I.cnt + BitVec.ofNat 64 m.length }

/-- The instance Finalize leaves (40_sha256.md R120, 41_sha512.md R154). -/
def finalizeInst {w : Nat} (A : Algo w) (I : HashInst w) : HashInst w :=
  { absorb A I (pad A I.cnt.toNat) with fin := true }

/-- The digest Finalize returns (40_sha256.md R120, R121, 41_sha512.md R154, R155). -/
def finalizeDigest {w : Nat} (A : Algo w) (I : HashInst w) : List Byte :=
  chainBytes (finalizeInst A I).h

/-- XFORM's effect on an instance: H only (40_sha256.md R125, 41_sha512.md R159). -/
def transformInst {w : Nat} (A : Algo w) (I : HashInst w) (n : Nat) (s : List Byte) : HashInst w :=
  { I with h := compressBlocks A n I.h s }

/-- LDST's effect: the stored words, CNT for `n` whole blocks, an empty buffer, not finalized
(40_sha256.md R126, 41_sha512.md R160). -/
def loadInst {w : Nat} (A : Algo w) (n : Nat) (s : List Byte) : HashInst w :=
  { h := chainOfBytes w s, cnt := BitVec.ofNat 64 (A.blockBytes * n), buf := [], fin := false }

/-! ## HMAC -/

/-- IPAD and OPAD: 128 equal bytes (42_hmac_sha512.md R170). -/
def padBytes (b : Byte) : List Byte := List.replicate 128 b

/-- Bytewise exclusive or (42_hmac_sha512.md R172). -/
def xorBytes (x y : List Byte) : List Byte := List.zipWith (· ^^^ ·) x y

/-- K0(K), the normalized key; a long key is hashed by a fresh instance (42_hmac_sha512.md R171, R177). -/
def normalizeKey (key : List Byte) : List Byte :=
  if key.length ≤ 128 then key ++ List.replicate (128 - key.length) 0
  else finalizeDigest sha512 (absorb sha512 (HashInst.initial iv512) key) ++ List.replicate 64 0

/-- A fresh SHA-512 instance that has absorbed K0 ⊕ pad (42_hmac_sha512.md R173). -/
def keyedInst (key : List Byte) (p : Byte) : HashInst 64 :=
  absorb sha512 (HashInst.initial iv512) (xorBytes (normalizeKey key) (padBytes p))

/-- HO after HMAC.FINAL: it absorbs HI's digest and is finalized (42_hmac_sha512.md R175). -/
def outerFinal (hi ho : HashInst 64) : HashInst 64 :=
  finalizeInst sha512 (absorb sha512 ho (finalizeDigest sha512 hi))

/-- K0(K) with the whole-message hash (42_hmac_sha512.md R171). -/
def keyBlock (key : List Byte) : List Byte :=
  if key.length ≤ 128 then key ++ List.replicate (128 - key.length) 0
  else hash sha512 key ++ List.replicate 64 0

/-- HMAC512(K, m) as RFC 2104 states it (42_hmac_sha512.md R172). -/
def hmac512 (key m : List Byte) : List Byte :=
  hash sha512 (xorBytes (keyBlock key) (padBytes 0x5c)
    ++ hash sha512 (xorBytes (keyBlock key) (padBytes 0x36) ++ m))

/-! ## Errors and completion -/

/-- The error a word that does not decode raises (30_encoding.md R92). -/
def DecodeError.errCode : DecodeError → ErrCode
  | .illegalOpcode => .illegalOpcode
  | .reservedField => .reservedField

/-- raise Error(code) for the issued word `w` (60_exceptions.md R215). -/
def raiseError (code : ErrCode) (w : Command) (s : State) : State :=
  { s with err := true, errCode := code, errCmd := w }

/-- The return from an error: CTRL.ERR_CLR, which does nothing while FATAL = 1 (60_exceptions.md R217,
43_system.md R196). -/
def clearError (s : State) : State :=
  if s.fatal then s else { s with err := false, errLost := false, errCode := .noError, errCmd := 0 }

/-- Discarding a command while ERR = 1 or FATAL = 1 (60_exceptions.md R214). -/
def discard (s : State) : State := { s with errLost := true }

/-- What every completion does beside the command's own effects (43_system.md R192). -/
def complete (s : State) : State := { s with inflight := none, busy := false, done := true }

/-- The end of the self-test (70_reset_and_hazards.md R236, 60_exceptions.md R213; log 9). -/
def selfTestEnd (s : State) : State :=
  if s.params.selfTestPass then { s with busy := false }
  else { s with busy := false, fatal := true, err := true, errCode := .selftestFail, errCmd := 0 }

/-- A command whose checks answer `found` either raises that error or has its effects. -/
def guarded (found : Option ErrCode) (w : Command) (s : State)
    (effects : Host.Outcome State Fault Refusal) : Host.Outcome State Fault Refusal :=
  match found with
  | some code => .next (raiseError code w s)
  | none => effects

/-- Run `effects` on the bytes a command reads; a never-written one is a model fault (20_memory.md R80). -/
def withBytes (s : State) (a n : Nat)
    (effects : List Byte → Host.Outcome State Fault Refusal) : Host.Outcome State Fault Refusal :=
  match Memory.readBytes s.mem a n with
  | none => .fault (.readUnwritten a n)
  | some bytes => effects bytes

end Sys2Proof.Machine
end

