-- ==== Sys2Proof/Machine/Operands.lean ====
section
/-!
DEFINITION. What each command's operands select: its MEM spans (20_memory.md R69), and the checks on
them and on the state in the order of 60_exceptions.md R216.
-/
namespace Sys2Proof.Machine

/-- A span of MEM: its first address and its length. -/
abbrev Span := Nat × Nat

/-- The bytes a command reads (20_memory.md R69). -/
def readSpan : Instr → Option Span
  | .nop => none
  | .s256Init => none
  | .s256Write src len => some (src, len)
  | .s256Final _ => none
  | .s256Xform src nblk => some (src, 64 * nblk)
  | .s256Ldst src _ => some (src, 32)
  | .s256Stst _ => none
  | .s512Init => none
  | .s512Write src len => some (src, len)
  | .s512Final _ => none
  | .s512Xform src nblk => some (src, 128 * nblk)
  | .s512Ldst src _ => some (src, 64)
  | .s512Stst _ => none
  | .hmacKey src len => some (src, len)
  | .hmacWrite src len => some (src, len)
  | .hmacFinal _ => none
  | .hmacClear => none

/-- The bytes a command writes (20_memory.md R69). -/
def writeSpan : Instr → Option Span
  | .nop => none
  | .s256Init => none
  | .s256Write _ _ => none
  | .s256Final dst => some (dst, 32)
  | .s256Xform _ _ => none
  | .s256Ldst _ _ => none
  | .s256Stst dst => some (dst, 32)
  | .s512Init => none
  | .s512Write _ _ => none
  | .s512Final dst => some (dst, 64)
  | .s512Xform _ _ => none
  | .s512Ldst _ _ => none
  | .s512Stst dst => some (dst, 64)
  | .hmacKey _ _ => none
  | .hmacWrite _ _ => none
  | .hmacFinal dst => some (dst, 64)
  | .hmacClear => none

/-- The write span of the command in flight, if there is one. -/
def inflightWriteSpan (s : State) : Option Span :=
  match s.inflight with
  | none => none
  | some w =>
    match decode w with
    | .ok i => writeSpan i
    | .error _ => none

/-- An address lies in a span. -/
def inSpan (span : Option Span) (a : Nat) : Bool :=
  match span with
  | none => false
  | some (start, len) => decide (start ≤ a ∧ a < start + len)

/-- The RANGE condition: "An access of length 0 never raises RANGE" (60_exceptions.md R209; log 7). -/
def outOfRange (s : State) (a n : Nat) : Bool := decide (n ≠ 0 ∧ a + n > s.params.memSize)

/-- The LENGTH_LIMIT condition (60_exceptions.md R211), computed exactly. -/
def overLimit (cnt : BitVec 64) (len : Nat) : Bool := decide (cnt.toNat + len > lengthLimit)

/-- The first condition that holds, in the order listed (60_exceptions.md R216). -/
def firstError : List (Bool × ErrCode) → Option ErrCode
  | [] => none
  | (holds, code) :: rest => if holds then some code else firstError rest

/-- NOP has no check of its own (43_system.md R193). -/
def checkNop (_ : State) : Option ErrCode := none

/-- S256.INIT has no check of its own (40_sha256.md R122). -/
def checkS256Init (_ : State) : Option ErrCode := none

/-- The checks of S256.WRITE (40_sha256.md R123). -/
def checkS256Write (src len : Nat) (s : State) : Option ErrCode :=
  firstError [(s.s256.fin, .useAfterFinal), (outOfRange s src len, .range), (overLimit s.s256.cnt len, .lengthLimit)]

/-- The checks of S256.FINAL (40_sha256.md R124). -/
def checkS256Final (dst : Nat) (s : State) : Option ErrCode :=
  firstError [(s.s256.fin, .useAfterFinal), (outOfRange s dst 32, .range)]

/-- The checks of S256.XFORM (40_sha256.md R125). -/
def checkS256Xform (src nblk : Nat) (s : State) : Option ErrCode :=
  firstError [(outOfRange s src (64 * nblk), .range)]

/-- The checks of S256.LDST (40_sha256.md R126). -/
def checkS256Ldst (src : Nat) (s : State) : Option ErrCode :=
  firstError [(outOfRange s src 32, .range)]

/-- The checks of S256.STST (40_sha256.md R127). -/
def checkS256Stst (dst : Nat) (s : State) : Option ErrCode :=
  firstError [(outOfRange s dst 32, .range)]

/-- S512.INIT has no check of its own (41_sha512.md R156). -/
def checkS512Init (_ : State) : Option ErrCode := none

/-- The checks of S512.WRITE (41_sha512.md R157). -/
def checkS512Write (src len : Nat) (s : State) : Option ErrCode :=
  firstError [(s.s512.fin, .useAfterFinal), (outOfRange s src len, .range), (overLimit s.s512.cnt len, .lengthLimit)]

/-- The checks of S512.FINAL (41_sha512.md R158). -/
def checkS512Final (dst : Nat) (s : State) : Option ErrCode :=
  firstError [(s.s512.fin, .useAfterFinal), (outOfRange s dst 64, .range)]

/-- The checks of S512.XFORM (41_sha512.md R159). -/
def checkS512Xform (src nblk : Nat) (s : State) : Option ErrCode :=
  firstError [(outOfRange s src (128 * nblk), .range)]

/-- The checks of S512.LDST (41_sha512.md R160). -/
def checkS512Ldst (src : Nat) (s : State) : Option ErrCode :=
  firstError [(outOfRange s src 64, .range)]

/-- The checks of S512.STST (41_sha512.md R161). -/
def checkS512Stst (dst : Nat) (s : State) : Option ErrCode :=
  firstError [(outOfRange s dst 64, .range)]

/-- The checks of HMAC.KEY (42_hmac_sha512.md R173). -/
def checkHmacKey (src len : Nat) (s : State) : Option ErrCode :=
  firstError [(outOfRange s src len, .range)]

/-- The checks of HMAC.WRITE (42_hmac_sha512.md R174). -/
def checkHmacWrite (src len : Nat) (s : State) : Option ErrCode :=
  firstError [(!s.hkeyed, .notKeyed), (s.hfin, .useAfterFinal), (outOfRange s src len, .range),
    (overLimit s.hi.cnt len, .lengthLimit)]

/-- The checks of HMAC.FINAL (42_hmac_sha512.md R175). -/
def checkHmacFinal (dst : Nat) (s : State) : Option ErrCode :=
  firstError [(!s.hkeyed, .notKeyed), (s.hfin, .useAfterFinal), (outOfRange s dst 64, .range)]

/-- HMAC.CLEAR has no check of its own (42_hmac_sha512.md R176). -/
def checkHmacClear (_ : State) : Option ErrCode := none

/-- "run opc's checks in its rule's order, against the current state" (43_system.md R190). -/
def commandError : Instr → State → Option ErrCode
  | .nop, s => checkNop s
  | .s256Init, s => checkS256Init s
  | .s256Write src len, s => checkS256Write src len s
  | .s256Final dst, s => checkS256Final dst s
  | .s256Xform src nblk, s => checkS256Xform src nblk s
  | .s256Ldst src _, s => checkS256Ldst src s
  | .s256Stst dst, s => checkS256Stst dst s
  | .s512Init, s => checkS512Init s
  | .s512Write src len, s => checkS512Write src len s
  | .s512Final dst, s => checkS512Final dst s
  | .s512Xform src nblk, s => checkS512Xform src nblk s
  | .s512Ldst src _, s => checkS512Ldst src s
  | .s512Stst dst, s => checkS512Stst dst s
  | .hmacKey src len, s => checkHmacKey src len s
  | .hmacWrite src len, s => checkHmacWrite src len s
  | .hmacFinal dst, s => checkHmacFinal dst s
  | .hmacClear, s => checkHmacClear s

end Sys2Proof.Machine
end

