-- ==== Sys2Proof/Machine/Hmac.lean ====
section
/-!
DEFINITION. The meanings of the HMAC commands (42_hmac_sha512.md §2), which never read or write S256 or
S512 (R177).
-/
namespace Sys2Proof.Machine

/-- HMAC.KEY (42_hmac_sha512.md R173). -/
def execHmacKey (src len : Nat) (s : State) : Host.Outcome State Fault Refusal :=
  guarded (checkHmacKey src len s) (encode (.hmacKey src len)) s <|
    withBytes s src len fun key => .next (complete { s with
      hi := keyedInst key 0x36
      ho := keyedInst key 0x5c
      hkeyed := true
      hfin := false })

/-- HMAC.WRITE (42_hmac_sha512.md R174). -/
def execHmacWrite (src len : Nat) (s : State) : Host.Outcome State Fault Refusal :=
  guarded (checkHmacWrite src len s) (encode (.hmacWrite src len)) s <|
    withBytes s src len fun m => .next (complete { s with hi := absorb sha512 s.hi m })

/-- HMAC.FINAL (42_hmac_sha512.md R175). -/
def execHmacFinal (dst : Nat) (s : State) : Host.Outcome State Fault Refusal :=
  guarded (checkHmacFinal dst s) (encode (.hmacFinal dst)) s <|
    .next (complete { s with
      hi := finalizeInst sha512 s.hi
      ho := outerFinal s.hi s.ho
      mem := Memory.writeBytes s.mem dst (chainBytes (outerFinal s.hi s.ho).h)
      hfin := true })

/-- HMAC.CLEAR (42_hmac_sha512.md R176). -/
def execHmacClear (s : State) : Host.Outcome State Fault Refusal :=
  guarded (checkHmacClear s) (encode .hmacClear) s <|
    .next (complete { s with
      hi := HashInst.initial (zeroWords 64)
      ho := HashInst.initial (zeroWords 64)
      hkeyed := false
      hfin := false })

end Sys2Proof.Machine
end

