-- ==== Sys2Proof/Machine/Sha256.lean ====
section
/-!
DEFINITION. The meanings of the SHA-256 commands (40_sha256.md §5): the checks of each rule, then its
effects and completion (43_system.md R190, R192; log 6).
-/
namespace Sys2Proof.Machine

/-- S256.INIT (40_sha256.md R122). -/
def execS256Init (s : State) : Host.Outcome State Fault Refusal :=
  guarded (checkS256Init s) (encode .s256Init) s <|
    .next (complete { s with s256 := HashInst.initial iv256 })

/-- S256.WRITE (40_sha256.md R123). -/
def execS256Write (src len : Nat) (s : State) : Host.Outcome State Fault Refusal :=
  guarded (checkS256Write src len s) (encode (.s256Write src len)) s <|
    withBytes s src len fun m => .next (complete { s with s256 := absorb sha256 s.s256 m })

/-- S256.FINAL (40_sha256.md R124). -/
def execS256Final (dst : Nat) (s : State) : Host.Outcome State Fault Refusal :=
  guarded (checkS256Final dst s) (encode (.s256Final dst)) s <|
    .next (complete { s with
      s256 := finalizeInst sha256 s.s256
      mem := Memory.writeBytes s.mem dst (finalizeDigest sha256 s.s256) })

/-- S256.XFORM (40_sha256.md R125). -/
def execS256Xform (src nblk : Nat) (s : State) : Host.Outcome State Fault Refusal :=
  guarded (checkS256Xform src nblk s) (encode (.s256Xform src nblk)) s <|
    withBytes s src (64 * nblk) fun m => .next (complete { s with s256 := transformInst sha256 s.s256 nblk m })

/-- S256.LDST (40_sha256.md R126). -/
def execS256Ldst (src nblk : Nat) (s : State) : Host.Outcome State Fault Refusal :=
  guarded (checkS256Ldst src s) (encode (.s256Ldst src nblk)) s <|
    withBytes s src 32 fun m => .next (complete { s with s256 := loadInst sha256 nblk m })

/-- S256.STST (40_sha256.md R127). -/
def execS256Stst (dst : Nat) (s : State) : Host.Outcome State Fault Refusal :=
  guarded (checkS256Stst dst s) (encode (.s256Stst dst)) s <|
    .next (complete { s with mem := Memory.writeBytes s.mem dst (chainBytes s.s256.h) })

end Sys2Proof.Machine
end

