-- ==== Sys2Proof/Machine/Sha512.lean ====
section
/-!
DEFINITION. The meanings of the SHA-512 commands (41_sha512.md §5).
-/
namespace Sys2Proof.Machine

/-- S512.INIT (41_sha512.md R156). -/
def execS512Init (s : State) : Host.Outcome State Fault Refusal :=
  guarded (checkS512Init s) (encode .s512Init) s <|
    .next (complete { s with s512 := HashInst.initial iv512 })

/-- S512.WRITE (41_sha512.md R157). -/
def execS512Write (src len : Nat) (s : State) : Host.Outcome State Fault Refusal :=
  guarded (checkS512Write src len s) (encode (.s512Write src len)) s <|
    withBytes s src len fun m => .next (complete { s with s512 := absorb sha512 s.s512 m })

/-- S512.FINAL (41_sha512.md R158). -/
def execS512Final (dst : Nat) (s : State) : Host.Outcome State Fault Refusal :=
  guarded (checkS512Final dst s) (encode (.s512Final dst)) s <|
    .next (complete { s with
      s512 := finalizeInst sha512 s.s512
      mem := Memory.writeBytes s.mem dst (finalizeDigest sha512 s.s512) })

/-- S512.XFORM (41_sha512.md R159). -/
def execS512Xform (src nblk : Nat) (s : State) : Host.Outcome State Fault Refusal :=
  guarded (checkS512Xform src nblk s) (encode (.s512Xform src nblk)) s <|
    withBytes s src (128 * nblk) fun m => .next (complete { s with s512 := transformInst sha512 s.s512 nblk m })

/-- S512.LDST (41_sha512.md R160). -/
def execS512Ldst (src nblk : Nat) (s : State) : Host.Outcome State Fault Refusal :=
  guarded (checkS512Ldst src s) (encode (.s512Ldst src nblk)) s <|
    withBytes s src 64 fun m => .next (complete { s with s512 := loadInst sha512 nblk m })

/-- S512.STST (41_sha512.md R161). -/
def execS512Stst (dst : Nat) (s : State) : Host.Outcome State Fault Refusal :=
  guarded (checkS512Stst dst s) (encode (.s512Stst dst)) s <|
    .next (complete { s with mem := Memory.writeBytes s.mem dst (chainBytes s.s512.h) })

end Sys2Proof.Machine
end

