-- ==== Sys2Proof/Machine/System.lean ====
section
/-!
DEFINITION. The meaning of NOP (43_system.md R193).
-/
namespace Sys2Proof.Machine

/-- NOP: "no effect at completion other than rule R192's" (43_system.md R193). -/
def execNop (s : State) : Host.Outcome State Fault Refusal :=
  guarded (checkNop s) (encode .nop) s <| .next (complete s)

end Sys2Proof.Machine
end

