-- ==== Sys2Proof/Machine/Dispatch.lean ====
section
/-!
DEFINITION. `exec`: each command to its meaning.
-/
namespace Sys2Proof.Machine

def exec (i : Instr) (s : State) : Host.Outcome State Fault Refusal :=
  match i with
  | .nop => Sys2Proof.Machine.execNop s
  | .s256Init => Sys2Proof.Machine.execS256Init s
  | .s256Write src len => Sys2Proof.Machine.execS256Write src len s
  | .s256Final dst => Sys2Proof.Machine.execS256Final dst s
  | .s256Xform src nblk => Sys2Proof.Machine.execS256Xform src nblk s
  | .s256Ldst src nblk => Sys2Proof.Machine.execS256Ldst src nblk s
  | .s256Stst dst => Sys2Proof.Machine.execS256Stst dst s
  | .s512Init => Sys2Proof.Machine.execS512Init s
  | .s512Write src len => Sys2Proof.Machine.execS512Write src len s
  | .s512Final dst => Sys2Proof.Machine.execS512Final dst s
  | .s512Xform src nblk => Sys2Proof.Machine.execS512Xform src nblk s
  | .s512Ldst src nblk => Sys2Proof.Machine.execS512Ldst src nblk s
  | .s512Stst dst => Sys2Proof.Machine.execS512Stst dst s
  | .hmacKey src len => Sys2Proof.Machine.execHmacKey src len s
  | .hmacWrite src len => Sys2Proof.Machine.execHmacWrite src len s
  | .hmacFinal dst => Sys2Proof.Machine.execHmacFinal dst s
  | .hmacClear => Sys2Proof.Machine.execHmacClear s

end Sys2Proof.Machine
end

