-- ==== Sys2Proof/Machine/Flags.lean ====
section
/-!
DEFINITION. The views of the state: the interrupt output (60_exceptions.md R220) and the register
values a host reads (10_state.md R31 to R38).
-/
namespace Sys2Proof.Machine

/-- The 4-bit code STATUS.ERRCODE reads (60_exceptions.md R205). -/
def ErrCode.bits : ErrCode → BitVec 4
  | .noError => 0
  | .illegalOpcode => 1
  | .reservedField => 2
  | .range => 3
  | .useAfterFinal => 4
  | .notKeyed => 5
  | .lengthLimit => 6
  | .busyOverrun => 7
  | .selftestFail => 8

/-- IRQ = (IE_DONE ∧ DONE) ∨ (IE_ERR ∧ ERR) (60_exceptions.md R220). -/
def State.irq (s : State) : Bool := (s.ieDone && s.done) || (s.ieErr && s.err)

/-- ID (10_state.md R31). -/
def idValue : Word32 := 0x53484132

/-- STATUS, bit 31 first (10_state.md R32). -/
def State.status (s : State) : Word32 :=
  (0 : BitVec 12) ++ ErrCode.bits s.errCode ++ (0 : BitVec 6)
    ++ BitVec.ofBool s.irq ++ BitVec.ofBool s.hfin ++ BitVec.ofBool s.hkeyed
    ++ BitVec.ofBool s.s512.fin ++ BitVec.ofBool s.s256.fin
    ++ BitVec.ofBool s.fatal ++ BitVec.ofBool s.errLost ++ BitVec.ofBool s.err
    ++ BitVec.ofBool s.done ++ BitVec.ofBool s.busy

/-- What a read of CTRL returns: IE_ERR and IE_DONE, and 0 elsewhere (10_state.md R34). -/
def State.ctrl (s : State) : Word32 :=
  (0 : BitVec 30) ++ BitVec.ofBool s.ieErr ++ BitVec.ofBool s.ieDone

/-- MEMSIZE (10_state.md R35). -/
def State.memSizeValue (s : State) : Word32 := BitVec.ofNat 32 s.params.memSize

/-- Bits 31:0 of a 64-bit value. -/
def lowHalf (x : BitVec 64) : Word32 := x.extractLsb' 0 32

/-- Bits 63:32 of a 64-bit value. -/
def highHalf (x : BitVec 64) : Word32 := x.extractLsb' 32 32

end Sys2Proof.Machine
end

