-- ==== Sys2Proof/Machine/HostAccess.lean ====
section
/-!
DEFINITION. The host's side: issue (43_system.md R190), register and window reads and writes (R195 to
R197, 20_memory.md R60 to R65), soft reset and abort (70_reset_and_hazards.md R239, R240), hardware
reset (R235), and one turn of the host.
-/
namespace Sys2Proof.Machine

/-! ## Issue -/

/-- An accepted command is in flight until its completion, which comes after a LATENCY the spec leaves
open (43_system.md R190, R192; log 2). -/
def accept (w : Command) (s : State) : State :=
  { s with
    busy := true, inflight := some w, wait := Config.latency s.params.implVariant s.draws, draws := s.draws + 1 }

/-- Decode the word and run its checks (43_system.md R190). -/
def decodeAndCheck (w : Command) (s : State) : State :=
  match decode w with
  | .error e => raiseError (DecodeError.errCode e) w s
  | .ok i =>
    match commandError i s with
    | some code => raiseError code w s
    | none => accept w s

/-- Issue(word) (43_system.md R190, priority 60_exceptions.md R216). -/
def issue (w : Command) (s : State) : State :=
  if s.fatal || s.err then discard s
  else if s.busy then raiseError .busyOverrun w s
  else decodeAndCheck w s

/-! ## Resets -/

/-- Hardware reset: every state at its reset value, MEM without a written byte, and the self-test started
(70_reset_and_hazards.md R235, R236, 10_state.md R41). The host's own record and queue are outside. -/
def hardwareReset (s : State) : State :=
  State.afterReset s.params s.host s.reads (Config.latency s.params.implVariant s.draws) (s.draws + 1)

/-- Abort(INFLIGHT): the bytes of the write span are drawn (70_reset_and_hazards.md R240). -/
def abort (s : State) : State :=
  match inflightWriteSpan s with
  | none => s
  | some (a, n) => { s with mem := Memory.scramble s.mem a n s.draws, draws := s.draws + n }

/-- SoftReset() (70_reset_and_hazards.md R239): ignored during the self-test; else everything at its reset
value but MEM and, while FATAL = 1, the self-test's error. -/
def softReset (s : State) : State :=
  if s.busy && s.inflight.isNone then s
  else
    let t := abort s
    { State.afterReset t.params t.host t.reads t.wait t.draws with
      mem := t.mem
      busy := false
      fatal := t.fatal
      err := t.fatal
      errCode := if t.fatal then .selftestFail else .noError }

/-! ## Register writes -/

/-- DONE_CLR: writing 1 clears DONE (10_state.md R34). -/
def clearDone (s : State) : State := { s with done := false }

/-- A write of CTRL (43_system.md R196). -/
def writeCtrl (v : Word32) (s : State) : State :=
  if v.getLsbD 31 then softReset s
  else
    let t := { s with ieDone := v.getLsbD 0, ieErr := v.getLsbD 1 }
    let u := if v.getLsbD 8 then clearDone t else t
    if v.getLsbD 9 then clearError u else u

/-- A write of CMD_HI stores the value and issues `CMD_HI ‖ CMD_LO` (10_state.md R36, 43_system.md R190). -/
def writeCmdHi (v : Word32) (s : State) : State :=
  issue (v ++ s.cmdLo) { s with cmdHi := v }

/-- A full-strobe register write, by offset: CTRL, CMD_LO and CMD_HI act, every other offset is read-only
or reserved and ignores the write (10_state.md R30, R39, 43_system.md R197). -/
def writeRegister (off : Nat) (v : Word32) (s : State) : State :=
  match off with
  | 0x08 => writeCtrl v s
  | 0x10 => { s with cmdLo := v }
  | 0x14 => writeCmdHi v s
  | _ => s

/-! ## Register reads -/

/-- Record the value a host read returned (log 10). -/
def returnRead (v : Word32) (s : State) : State := { s with reads := v :: s.reads }

/-- A CNT register: a draw while BUSY = 1 (10_state.md R38, 70_reset_and_hazards.md R245). -/
def readCounter (v : Word32) (s : State) : State :=
  if s.busy then returnRead (Config.freeWord s.draws) { s with draws := s.draws + 1 } else returnRead v s

/-- A register read, by offset (10_state.md R30 to R39, 43_system.md R195). -/
def readRegister (off : Nat) (s : State) : State :=
  match off with
  | 0x00 => returnRead idValue s
  | 0x04 => returnRead (State.status s) s
  | 0x08 => returnRead (State.ctrl s) s
  | 0x0C => returnRead (State.memSizeValue s) s
  | 0x10 => returnRead s.cmdLo s
  | 0x14 => returnRead s.cmdHi s
  | 0x18 => returnRead (lowHalf s.errCmd) s
  | 0x1C => returnRead (highHalf s.errCmd) s
  | 0x20 => readCounter (lowHalf s.s256.cnt) s
  | 0x24 => readCounter (highHalf s.s256.cnt) s
  | 0x28 => readCounter (lowHalf s.s512.cnt) s
  | 0x2C => readCounter (highHalf s.s512.cnt) s
  | _ => returnRead 0 s

/-! ## The MEM window -/

/-- The byte a window read returns: a draw where it was never written (20_memory.md R80), or where the
command in flight will write it (70_reset_and_hazards.md R244). -/
def windowByte (s : State) (a draw : Nat) : Byte :=
  if s.busy && inSpan (inflightWriteSpan s) a then Config.freeByte draw
  else
    match Memory.read s.mem a with
    | some b => b
    | none => Config.freeByte draw

/-- A window read of the aligned word at MEM address `a`, little-endian (20_memory.md R63); 0 where there is
no memory (R64). -/
def readWindow (a : Nat) (s : State) : State :=
  if a + 3 < s.params.memSize then
    returnRead (windowByte s (a + 3) (s.draws + 3) ++ windowByte s (a + 2) (s.draws + 2)
      ++ windowByte s (a + 1) (s.draws + 1) ++ windowByte s a s.draws) { s with draws := s.draws + 4 }
  else returnRead 0 s

/-- Write byte lane `j` of the data if its strobe is set (20_memory.md R61, R63). -/
def writeLane (data : Word32) (wstrb : BitVec 4) (a j : Nat) (m : Memory) : Memory :=
  if wstrb.getLsbD j then Memory.write m (a + j) (data.extractLsb' (8 * j) 8) else m

/-- A window write of the aligned word at MEM address `a` (20_memory.md R63); ignored where there is no
memory (R64). -/
def writeWindow (a : Nat) (data : Word32) (wstrb : BitVec 4) (s : State) : State :=
  if a + 3 < s.params.memSize then
    { s with mem := writeLane data wstrb a 3 (writeLane data wstrb a 2
        (writeLane data wstrb a 1 (writeLane data wstrb a 0 s.mem))) }
  else s

/-! ## The host's bus -/

/-- The host bus address of an offset of the block (20_memory.md R60). -/
def busAddress (p : Params) (off : BitVec 17) : Nat := p.blockBase + off.toNat

/-- The offset a host bus address stands for: the block answers the 128 KiB from BLOCK_BASE, and no other
address (20_memory.md R60, R72). -/
def busOffset (p : Params) (addr : Nat) : Option (BitVec 17) :=
  if p.blockBase ≤ addr ∧ addr < p.blockBase + 0x20000 then some (BitVec.ofNat 17 (addr - p.blockBase)) else none

/-! ## Host accesses and the host's turn -/

/-- The first window offset (20_memory.md R60). -/
def windowBase : Nat := 0x10000

/-- An aligned offset (20_memory.md R61). -/
def alignedOffset (off : BitVec 17) : Bool := off.toNat % 4 == 0

/-- A host write (20_memory.md R61 to R65, 70_reset_and_hazards.md R244; log 8). -/
def hostWrite (off : BitVec 17) (data : Word32) (wstrb : BitVec 4) (s : State) : Host.Outcome State Fault Refusal :=
  if !alignedOffset off then .refused .misalignedAccess
  else if off.toNat < windowBase then
    if wstrb = 0b1111 then .next (writeRegister off.toNat data s) else .refused .partialStrobe
  else if s.busy then .fault .memWriteWhileBusy
  else .next (writeWindow (off.toNat - windowBase) data wstrb s)

/-- A host read (20_memory.md R61 to R64). -/
def hostRead (off : BitVec 17) (s : State) : Host.Outcome State Fault Refusal :=
  if !alignedOffset off then .refused .misalignedAccess
  else if off.toNat < windowBase then .next (readRegister off.toNat s)
  else .next (readWindow (off.toNat - windowBase) s)

/-- The host performs its next action `act`, with `rest` to follow (43_system.md R199). A WAIT is done when
STATUS reads BUSY = 0, and is tried again otherwise. -/
def hostAct (act : HostAction) (rest : List HostAction) (s : State) : Host.Outcome State Fault Refusal :=
  match act with
  | .write off data wstrb => hostWrite off data wstrb { s with host := rest }
  | .read off => hostRead off { s with host := rest }
  | .wait => if s.busy then .next s else .next { s with host := rest }
  | .otherWidth _ => .refused .accessWidth
  | .hardwareReset => .next (hardwareReset { s with host := rest })

/-- One host turn. With no action left the host does nothing, and an idle block keeps all state
(60_exceptions.md R228, 43_system.md R200; log 19). -/
def hostTurn (s : State) : Host.Outcome State Fault Refusal :=
  match s.host with
  | [] => .next s
  | act :: rest => hostAct act rest s

/-- While BUSY = 1 a host turn brings the engine's pending step nearer (log 2). -/
def passTurn (s : State) : State := if s.busy then { s with wait := s.wait - 1 } else s

end Sys2Proof.Machine
end

