-- ==== Sys2Proof/Machine/Engine.lean ====
section
/-!
DEFINITION. The engine's step: the completion of the command in flight (43_system.md R192) or the end of
the self-test (70_reset_and_hazards.md R236), and whose turn it is.
-/
namespace Sys2Proof.Machine

/-- Complete(): run the command the word stands for (43_system.md R192). -/
def runCommand (w : Command) (s : State) : Host.Outcome State Fault Refusal :=
  match decode w with
  | .ok i => exec i s
  | .error _ => .refused .undecodableInflight

/-- The engine's one step while BUSY = 1. -/
def engineStep (s : State) : Host.Outcome State Fault Refusal :=
  match s.inflight with
  | none => .next (selfTestEnd s)
  | some w => runCommand w s

/-- It is the engine's turn: it is busy and its LATENCY has passed (log 2). -/
def engineTurn (s : State) : Bool := s.busy && s.wait == 0

/-- Put a command word where the engine takes it from, its LATENCY passed. -/
def placeCommand (w : Command) (s : State) : State := { s with busy := true, inflight := some w, wait := 0 }

end Sys2Proof.Machine
end

