-- ==== Sys2Proof/Machine/Step.lean ====
section
/-!
DEFINITION. One step of host and engine together (00_scope.md R4): the engine's step when it is the
engine's turn, else one turn of the host.
-/
namespace Sys2Proof.Machine

/-- One step. -/
def step (s : State) : Host.Outcome State Fault Refusal :=
  if engineTurn s then engineStep s else hostTurn (passTurn s)

/-- `s` with the `nbits`-bit table word in flight, so that the next step runs it (log 1). -/
def State.withFetchWord (s : State) (nbits w : Nat) : State :=
  placeCommand (BitVec.ofNat 64 (w % 2 ^ nbits)) s

end Sys2Proof.Machine
end

