-- ==== Sys2Proof/Machine/HostProgram.lean ====
section
/-!
DEFINITION. The shorthands of host programs (43_system.md R199, 70_reset_and_hazards.md R241), the
pseudo-instructions (30_encoding.md R96), and the BIP32 byte layouts a host builds and reads
(42_hmac_sha512.md R179 to R182). They are data for the host queue; no step calls them.
-/
namespace Sys2Proof.Machine

/-- ISSUE c: CMD_LO, then CMD_HI, then WAIT (43_system.md R199, 30_encoding.md R97). -/
def issueActions (c : Command) : List HostAction :=
  [.write 0x10 (c.extractLsb' 0 32) 0xF, .write 0x14 (c.extractLsb' 32 32) 0xF, .wait]

/-- The first two host actions of the boot sequence: WAIT, then read STATUS (70_reset_and_hazards.md R241). -/
def bootActions : List HostAction := [.wait, .read 0x04]

/-- The window offset of the aligned word `k` of MEM (20_memory.md R63). DESIGN CHOICE: past MEM address 0xFFFF
there is no window, and the offset wraps modulo 2^17 to a register's (log 22). -/
def wordOffset (k : Nat) : BitVec 17 := BitVec.ofNat 17 (0x10000 + 4 * k)

/-- The byte that POKE `a, bytes` puts at `addr`, and 0 at an address it leaves alone. -/
def pokeByte (a : Nat) (bytes : List Byte) (addr : Nat) : Byte :=
  if a ≤ addr then bytes.getD (addr - a) 0 else 0

/-- POKE `a, bytes` sets `addr`. -/
def pokeSets (a : Nat) (bytes : List Byte) (addr : Nat) : Bool := decide (a ≤ addr ∧ addr < a + bytes.length)

/-- The window write of word `k` in POKE `a, bytes` (43_system.md R199). -/
def pokeWord (a : Nat) (bytes : List Byte) (k : Nat) : HostAction :=
  .write (wordOffset k)
    (pokeByte a bytes (4 * k + 3) ++ pokeByte a bytes (4 * k + 2)
      ++ pokeByte a bytes (4 * k + 1) ++ pokeByte a bytes (4 * k))
    (BitVec.ofBool (pokeSets a bytes (4 * k + 3)) ++ BitVec.ofBool (pokeSets a bytes (4 * k + 2))
      ++ BitVec.ofBool (pokeSets a bytes (4 * k + 1)) ++ BitVec.ofBool (pokeSets a bytes (4 * k)))

/-- The aligned words that `n` bytes at `a` touch, in ascending order. -/
def wordsTouched (a n : Nat) : List Nat :=
  if n = 0 then [] else List.range' (a / 4) ((a + n - 1) / 4 - a / 4 + 1)

/-- POKE a, bytes (43_system.md R199). DESIGN CHOICE: what it is where the bytes reach past MEM address 0xFFFF
(log 22). -/
def poke (a : Nat) (bytes : List Byte) : List HostAction := (wordsTouched a bytes.length).map (pokeWord a bytes)

/-- PEEK a, n (43_system.md R199). DESIGN CHOICE: one window read of each aligned word that the bytes touch, in
ascending order (log 21), and what it is where the bytes reach past MEM address 0xFFFF (log 22). -/
def peek (a n : Nat) : List HostAction := (wordsTouched a n).map fun k => .read (wordOffset k)

/-- The pseudo-instructions (30_encoding.md R96). -/
inductive Pseudo where
  /-- S256.RESET. -/
  | s256Reset
  /-- S512.RESET. -/
  | s512Reset
  /-- S256.HASH. -/
  | s256Hash (dst src len : Nat)
  /-- S512.HASH. -/
  | s512Hash (dst src len : Nat)
  /-- HMAC.MAC. -/
  | hmacMac (dst ksrc klen msrc mlen : Nat)
  /-- S256.D64. -/
  | s256D64 (dst src : Nat)
  deriving DecidableEq, Repr

/-- The expansion of a pseudo-instruction (30_encoding.md R96). -/
def expandPseudo : Pseudo → List Instr
  | .s256Reset => [.s256Init]
  | .s512Reset => [.s512Init]
  | .s256Hash dst src len => [.s256Init, .s256Write src len, .s256Final dst]
  | .s512Hash dst src len => [.s512Init, .s512Write src len, .s512Final dst]
  | .hmacMac dst ksrc klen msrc mlen => [.hmacKey ksrc klen, .hmacWrite msrc mlen, .hmacFinal dst]
  | .s256D64 dst src =>
    [.s256Init, .s256Write src 64, .s256Final dst, .s256Init, .s256Write dst 32, .s256Final dst]

/-- The commands one after another, the host waiting for BUSY = 0 after each (30_encoding.md R96). -/
def issueAll (commands : List Instr) : List HostAction := commands.flatMap fun i => issueActions (encode i)

/-! ## BIP32 layouts -/

/-- The 12-byte key of master key generation, "Bitcoin seed" (42_hmac_sha512.md R179). -/
def masterKeyString : List Byte := [0x42, 0x69, 0x74, 0x63, 0x6f, 0x69, 0x6e, 0x20, 0x73, 0x65, 0x65, 0x64]

/-- BE_32 of a child index (42_hmac_sha512.md R180). -/
def indexBytes (i : BitVec 32) : List Byte :=
  [i.extractLsb' 24 8, i.extractLsb' 16 8, i.extractLsb' 8 8, i.extractLsb' 0 8]

/-- The HMAC message of a child: the hardened form when the index's top bit is set (42_hmac_sha512.md R180,
R181). -/
def childMessage (compressedPub parentPriv : List Byte) (i : BitVec 32) : List Byte :=
  if i.getLsbD 31 then 0x00 :: (parentPriv ++ indexBytes i) else compressedPub ++ indexBytes i

/-- IL, the left 32 bytes of the output (42_hmac_sha512.md R182). -/
def leftHalf (d : List Byte) : List Byte := d.take 32

/-- IR, the right 32 bytes of the output (42_hmac_sha512.md R182). -/
def rightHalf (d : List Byte) : List Byte := (d.drop 32).take 32

end Sys2Proof.Machine
end

