-- ==== Sys2Proof/Safety.lean ====
section
/-!
DEFINITION. What claims speak of: the invariants of 10_state.md R27 and of the error record, a completed
run (43_system.md R200), and the parts of the state a frame names.
-/
namespace Sys2Proof.Machine

/-- `len(I.BUF) = I.CNT mod bs` (10_state.md R27). -/
def HashInst.bufferOk {w : Nat} (bs : Nat) (I : HashInst w) : Bool := I.buf.length == I.cnt.toNat % bs

/-- 10_state.md R27 for every instance of the block. -/
def State.buffersOk (s : State) : Bool :=
  HashInst.bufferOk 64 s.s256 && HashInst.bufferOk 128 s.s512
    && HashInst.bufferOk 128 s.hi && HashInst.bufferOk 128 s.ho

/-- MEM is in canonical form and lies within MEM_SIZE (10_state.md R29). -/
def State.memoryOk (s : State) : Prop :=
  Memory.wf s.mem ∧ ∀ cell ∈ s.mem, cell.1 < s.params.memSize

/-- An instance that may still absorb has not passed LIMIT (00_scope.md R7, 60_exceptions.md R211). -/
def State.countersOk (s : State) : Prop :=
  (s.s256.fin = false → s.s256.cnt.toNat ≤ lengthLimit) ∧
  (s.s512.fin = false → s.s512.cnt.toNat ≤ lengthLimit) ∧
  (s.hkeyed = true → s.hfin = false → s.hi.cnt.toNat ≤ lengthLimit)

/-- The error record is coherent (10_state.md R37, R41, 60_exceptions.md R213, R214). -/
def State.errorRecordOk (s : State) : Prop :=
  (s.err = false → s.errCode = .noError ∧ s.errCmd = 0 ∧ s.errLost = false) ∧
  (s.err = true → s.errCode ≠ .noError) ∧
  (s.fatal = true → s.err = true ∧ s.errCode = .selftestFail ∧ s.errCmd = 0 ∧ s.busy = false
    ∧ s.params.selfTestPass = false)

/-- A command is in flight only while BUSY = 1, and it has passed every check (10_state.md R40, 43_system.md
R191). -/
def State.inflightOk (s : State) : Prop :=
  ∀ w, s.inflight = some w → s.busy = true ∧ ∃ i, decode w = .ok i ∧ commandError i s = none

/-- The self-test is running (70_reset_and_hazards.md R236). -/
def State.selfTestRunning (s : State) : Bool := s.busy && s.inflight.isNone

/-- While the self-test runs, the instances and flags have their reset values and nothing was written
(70_reset_and_hazards.md R236, R244). -/
def State.selfTestOk (s : State) : Prop :=
  State.selfTestRunning s = true →
    s.s256 = HashInst.initial iv256 ∧ s.s512 = HashInst.initial iv512 ∧
    s.hi = HashInst.initial (zeroWords 64) ∧ s.ho = HashInst.initial (zeroWords 64) ∧
    s.hkeyed = false ∧ s.hfin = false ∧ s.mem = [] ∧ s.done = false ∧ s.fatal = false

/-- Without a key the HMAC state is zero (42_hmac_sha512.md R176, 10_state.md R41). -/
def State.hmacOk (s : State) : Prop :=
  s.hkeyed = false → s.hfin = false ∧ s.hi = HashInst.initial (zeroWords 64) ∧ s.ho = HashInst.initial (zeroWords 64)

/-- Every state at its value right after hardware reset, the self-test running (10_state.md R41,
70_reset_and_hazards.md R235, R236). The parameters and the model's own fields are no part of it. -/
def State.atReset (s : State) : Prop :=
  s.s256.h = iv256 ∧ s.s256.cnt = 0 ∧ s.s256.buf = [] ∧ s.s256.fin = false ∧
  s.s512.h = iv512 ∧ s.s512.cnt = 0 ∧ s.s512.buf = [] ∧ s.s512.fin = false ∧
  (∀ x ∈ s.hi.h.toList ++ s.ho.h.toList, x = 0) ∧ s.hi.cnt = 0 ∧ s.ho.cnt = 0 ∧ s.hi.buf = [] ∧ s.ho.buf = [] ∧
  s.hi.fin = false ∧ s.ho.fin = false ∧ s.hkeyed = false ∧ s.hfin = false ∧
  (∀ a, Memory.read s.mem a = none) ∧ s.busy = true ∧ s.inflight = none ∧ s.done = false ∧ s.err = false ∧
  s.errCode = .noError ∧ s.errCmd = 0 ∧ s.errLost = false ∧ s.fatal = false ∧ s.ieDone = false ∧
  s.ieErr = false ∧ s.cmdLo = 0 ∧ s.cmdHi = 0 ∧ State.irq s = false

/-- The invariant of the block: it holds after reset and every step keeps it. -/
structure State.Inv (s : State) : Prop where
  params_valid : s.params.valid = true
  buffers : State.buffersOk s = true
  memory : State.memoryOk s
  counters : State.countersOk s
  errorRecord : State.errorRecordOk s
  inflight : State.inflightOk s
  selfTest : State.selfTestOk s
  hmac : State.hmacOk s

/-- A state in which the block accepts a command: no error, no fatal self-test, not busy (43_system.md
R190). -/
def State.ready (s : State) : Bool := !s.fatal && !s.err && !s.busy

/-- The run has ended: no host action is left and BUSY = 0 (43_system.md R200). -/
def State.runEnded (s : State) : Bool := s.host.isEmpty && !s.busy

/-- The command's own part of the state is all that changed: every control register, parameter and model
field is as before but INFLIGHT, BUSY and DONE, which completion writes (43_system.md R192). -/
def sameControl (s t : State) : Prop :=
  t.params = s.params ∧ t.err = s.err ∧ t.errLost = s.errLost ∧ t.fatal = s.fatal ∧ t.errCode = s.errCode ∧
  t.errCmd = s.errCmd ∧ t.ieDone = s.ieDone ∧ t.ieErr = s.ieErr ∧ t.cmdLo = s.cmdLo ∧ t.cmdHi = s.cmdHi ∧
  t.host = s.host ∧ t.reads = s.reads ∧ t.wait = s.wait ∧ t.draws = s.draws

/-- Every HMAC register is as before. -/
def sameHmac (s t : State) : Prop :=
  t.hi = s.hi ∧ t.ho = s.ho ∧ t.hkeyed = s.hkeyed ∧ t.hfin = s.hfin

/-- Every byte of MEM outside `[a, a + n)` reads as before. -/
def sameMemoryOutside (a n : Nat) (s t : State) : Prop :=
  ∀ x, x < a ∨ a + n ≤ x → Memory.read t.mem x = Memory.read s.mem x

/-- Every byte of MEM reads as before. -/
def sameMemory (s t : State) : Prop := ∀ x, Memory.read t.mem x = Memory.read s.mem x

/-- `t` is a completion from `s`: BUSY = 0, INFLIGHT none, DONE = 1 (43_system.md R192), and the rest of the
control state as before. -/
def completed (s t : State) : Prop :=
  t.busy = false ∧ t.inflight = none ∧ t.done = true ∧ sameControl s t

/-- The span of `n` bytes at `a` is in range (60_exceptions.md R209). -/
def inRange (s : State) (a n : Nat) : Prop := n = 0 ∨ a + n ≤ s.params.memSize

/-- Commands run one after another. -/
def execAll : List Instr → State → Host.Outcome State Fault Refusal
  | [], s => .next s
  | i :: rest, s =>
    match exec i s with
    | .next t => execAll rest t
    | .fault r => .fault r
    | .refused r => .refused r

/-! ## The conditions of 60_exceptions.md R216, each in the words of its own rule -/

/-- OPC is one of the 239 reserved values (30_encoding.md R90). -/
def reservedOpcode (w : Command) : Bool :=
  let opc := (opcField w).toNat
  decide ((0x07 ≤ opc ∧ opc ≤ 0x10) ∨ (0x17 ≤ opc ∧ opc ≤ 0x20) ∨ 0x25 ≤ opc)

/-- The opcodes whose SRC must be zero (30_encoding.md R88). -/
def srcMustBeZero : List (BitVec 8) := [0x00, 0x01, 0x11, 0x24, 0x03, 0x13, 0x23, 0x06, 0x16]

/-- The opcodes whose DST must be zero (30_encoding.md R88). -/
def dstMustBeZero : List (BitVec 8) :=
  [0x00, 0x01, 0x11, 0x24, 0x02, 0x12, 0x22, 0x21, 0x04, 0x14, 0x05, 0x15]

/-- The opcodes whose LEN must be zero (30_encoding.md R88). -/
def lenMustBeZero : List (BitVec 8) := [0x00, 0x01, 0x11, 0x24, 0x03, 0x13, 0x23, 0x06, 0x16]

/-- A field that must be zero is not (30_encoding.md R91). -/
def reservedFieldSet (w : Command) : Bool :=
  (srcMustBeZero.contains (opcField w) && srcField w != 0)
    || (dstMustBeZero.contains (opcField w) && dstField w != 0)
    || (lenMustBeZero.contains (opcField w) && lenField w != 0)

/-- HMAC.WRITE or HMAC.FINAL, with no key loaded (60_exceptions.md R208). -/
def usesMissingKey (i : Instr) (s : State) : Prop :=
  s.hkeyed = false ∧ ((∃ src len, i = .hmacWrite src len) ∨ ∃ dst, i = .hmacFinal dst)

/-- WRITE or FINAL on a finalized instance (60_exceptions.md R210). -/
def usesFinalized (i : Instr) (s : State) : Prop :=
  (s.s256.fin = true ∧ ((∃ src len, i = .s256Write src len) ∨ ∃ dst, i = .s256Final dst)) ∨
  (s.s512.fin = true ∧ ((∃ src len, i = .s512Write src len) ∨ ∃ dst, i = .s512Final dst)) ∨
  (s.hfin = true ∧ ((∃ src len, i = .hmacWrite src len) ∨ ∃ dst, i = .hmacFinal dst))

/-- A MEM span of the command passes MEM_SIZE (60_exceptions.md R209). -/
def passesMemory (i : Instr) (s : State) : Prop :=
  ∃ a n, (readSpan i = some (a, n) ∨ writeSpan i = some (a, n)) ∧ n ≠ 0 ∧ a + n > s.params.memSize

/-- A WRITE whose instance would pass LIMIT (60_exceptions.md R211). -/
def passesLimit (i : Instr) (s : State) : Prop :=
  (∃ src len, i = .s256Write src len ∧ s.s256.cnt.toNat + len > lengthLimit) ∨
  (∃ src len, i = .s512Write src len ∧ s.s512.cnt.toNat + len > lengthLimit) ∨
  (∃ src len, i = .hmacWrite src len ∧ s.hi.cnt.toNat + len > lengthLimit)

/-- The block with another BLOCK_BASE and IMPL_VARIANT (00_scope.md R5). -/
def State.rebuilt (base : Nat) (variant : ImplVariant) (s : State) : State :=
  { s with params := { s.params with blockBase := base, implVariant := variant } }

/-- An outcome with `f` applied to its next state. -/
def mapNext (f : State → State) : Host.Outcome State Fault Refusal → Host.Outcome State Fault Refusal
  | .next t => .next (f t)
  | .fault r => .fault r
  | .refused r => .refused r

/-- A byte of MEM that the command in flight will not write: its value is settled (70_reset_and_hazards.md
R244). -/
def State.settled (s : State) (a : Nat) : Prop := s.busy = true → inSpan (inflightWriteSpan s) a = false

/-- A host action that resets the block: the reset input, or a CTRL write with SOFT_RESET. -/
def resetsBlock : HostAction → Bool
  | .write off data _ => off == 0x08 && data.getLsbD 31
  | .hardwareReset => true
  | .read _ => false
  | .wait => false
  | .otherWidth _ => false

end Sys2Proof.Machine
end

