-- ==== Sys2Proof/Certificates/Slice0/Obligations.lean ====
section
/-!
DEFINITION. The statements for the provers. Each docstring names the rules of spec/ it formalises, and
says where a clause rests on a choice of the model.
-/
open Sys2Proof Sys2Proof.Machine

/-! ## Encoding and decoding (30_encoding.md) -/

/-- Decoding the word of a well-formed command gives the command back, with every operand at every value its
field admits, and so does the table form of the decoder (R86 to R89, R92, R95). -/
def Obligations.DecodeOfEncode : Prop :=
  ∀ i : Instr, i.wellFormed = true →
    decode (encode i) = .ok i ∧ decodeTableWord 64 (encode i).toNat = some i

/-- A word that decodes is the word of what it decodes to, and that command's operands fit their fields: no bit
of a legal word is ignored (R86 to R88, R91, R92). -/
def Obligations.EncodeOfDecode : Prop :=
  ∀ (w : Command) (i : Instr), decode w = .ok i → i.wellFormed = true ∧ encode i = w

/-- R93: a word meets a row's mask and match exactly when it decodes to that row's command. -/
def Obligations.MaskAndMatchAgreeWithDecode : Prop :=
  ∀ (w : Command) (r : TableRow), r ∈ opcodeTable →
    ((w &&& r.mask = r.pattern) ↔ ∃ i, decode w = .ok i ∧ i.mnemonic = r.mnemonic)

/-- R90: the reserved opcodes are 239 values, and a command with one raises ILLEGAL_OPCODE and has no other
effect. -/
def Obligations.ReservedOpcodesAreIllegal : Prop :=
  ((List.range 256).filter fun n => reservedOpcode (pack (BitVec.ofNat 8 n) 0 0 0)).length = 239 ∧
  ∀ (w : Command) (s : State), State.ready s = true → reservedOpcode w = true →
    issue w s = { s with err := true, errCode := .illegalOpcode, errCmd := w }

/-- R91: a listed opcode with a nonzero field that must be zero raises RESERVED_FIELD and has no other effect. -/
def Obligations.ReservedFieldsAreRefused : Prop :=
  ∀ (w : Command) (s : State), State.ready s = true → reservedOpcode w = false → reservedFieldSet w = true →
    issue w s = { s with err := true, errCode := .reservedField, errCmd := w }

/-- R94: the encoding examples, each read back by the decoder. -/
def Obligations.EncodingExamples : Prop :=
  (encode (.s256Write 0x1000 3) = 0x0210000000000003 ∧ decode 0x0210000000000003 = .ok (.s256Write 0x1000 3)) ∧
  (encode (.s256Final 0x0100) = 0x0300000100000000 ∧ decode 0x0300000100000000 = .ok (.s256Final 0x0100)) ∧
  (encode (.s512Xform 0x0200 2) = 0x1402000000000002 ∧ decode 0x1402000000000002 = .ok (.s512Xform 0x0200 2)) ∧
  (encode (.hmacFinal 0x0040) = 0x2300000040000000 ∧ decode 0x2300000040000000 = .ok (.hmacFinal 0x0040)) ∧
  (encode (.hmacKey 0x0000 12) = 0x210000000000000C ∧ decode 0x210000000000000C = .ok (.hmacKey 0x0000 12))

/-- R95: the assembler takes a command's line exactly when its operands fit, and gives the command's word. -/
def Obligations.AssemblerRefusesWhatDoesNotFit : Prop :=
  ∀ (mnemonic : String) (operands : List Nat) (i : Instr), parseLine mnemonic operands = some i →
    mnemonic = i.mnemonic ∧
    (i.wellFormed = true → assemble mnemonic operands = some (encode i) ∧ decode (encode i) = .ok i) ∧
    (i.wellFormed = false → assemble mnemonic operands = none ∧ ∃ n ∈ operands, 65536 ≤ n)

/-! ## The transforms (40_sha256.md, 41_sha512.md) -/

/-- R113, R114, R147 and R148: the two message schedules, word by word. -/
def Obligations.MessageSchedules : Prop :=
  (∀ block : List Byte,
     let W := schedule sha256 block
     W.length = 64 ∧
     (∀ t, t < 16 → W.getD t 0 = BitVec.ofNat 32 (beVal ((block.drop (4 * t)).take 4))) ∧
     (∀ t, 16 ≤ t → t < 64 → W.getD t 0 = smallSigma1of256 (W.getD (t - 2) 0) + W.getD (t - 7) 0
       + smallSigma0of256 (W.getD (t - 15) 0) + W.getD (t - 16) 0)) ∧
  (∀ block : List Byte,
     let W := schedule sha512 block
     W.length = 80 ∧
     (∀ t, t < 16 → W.getD t 0 = BitVec.ofNat 64 (beVal ((block.drop (8 * t)).take 8))) ∧
     (∀ t, 16 ≤ t → t < 80 → W.getD t 0 = smallSigma1of512 (W.getD (t - 2) 0) + W.getD (t - 7) 0
       + smallSigma0of512 (W.getD (t - 15) 0) + W.getD (t - 16) 0))

/-- R115, R116, R149, R150: Compress starts from H, runs round t on K[t] and W[t] for every t in order, with T1
and T2 as the rules give them, and adds the result to H. -/
def Obligations.CompressRunsEveryRound : Prop :=
  (∀ (H : Words8 32) (block : List Byte), ∃ v : Nat → Words8 32, v 0 = H ∧
    (∀ t, t < 64 →
      let T1 := (v t).h + bigSigma1of256 (v t).e + ch (v t).e (v t).f (v t).g + k256.getD t 0
        + (schedule sha256 block).getD t 0
      let T2 := bigSigma0of256 (v t).a + maj (v t).a (v t).b (v t).c
      v (t + 1) = ⟨T1 + T2, (v t).a, (v t).b, (v t).c, (v t).d + T1, (v t).e, (v t).f, (v t).g⟩) ∧
    compress sha256 H block = ⟨H.a + (v 64).a, H.b + (v 64).b, H.c + (v 64).c, H.d + (v 64).d,
      H.e + (v 64).e, H.f + (v 64).f, H.g + (v 64).g, H.h + (v 64).h⟩) ∧
  (∀ (H : Words8 64) (block : List Byte), ∃ v : Nat → Words8 64, v 0 = H ∧
    (∀ t, t < 80 →
      let T1 := (v t).h + bigSigma1of512 (v t).e + ch (v t).e (v t).f (v t).g + k512.getD t 0
        + (schedule sha512 block).getD t 0
      let T2 := bigSigma0of512 (v t).a + maj (v t).a (v t).b (v t).c
      v (t + 1) = ⟨T1 + T2, (v t).a, (v t).b, (v t).c, (v t).d + T1, (v t).e, (v t).f, (v t).g⟩) ∧
    compress sha512 H block = ⟨H.a + (v 80).a, H.b + (v 80).b, H.c + (v 80).c, H.d + (v 80).d,
      H.e + (v 80).e, H.f + (v 80).f, H.g + (v 80).g, H.h + (v 80).h⟩)

/-- R117 and R151: a transform over several blocks is the transform over the first ones followed by the
transform over the rest, and over no block it returns H. -/
def Obligations.MultiBlockIsBlockByBlock : Prop :=
  (∀ (H : Words8 32) (a b : Nat) (x y : List Byte), x.length = 64 * a →
    compressBlocks sha256 0 H x = H ∧
    compressBlocks sha256 (a + b) H (x ++ y) = compressBlocks sha256 b (compressBlocks sha256 a H x) y ∧
    (y.length = 64 → compressBlocks sha256 1 H y = compress sha256 H y)) ∧
  (∀ (H : Words8 64) (a b : Nat) (x y : List Byte), x.length = 128 * a →
    compressBlocks sha512 0 H x = H ∧
    compressBlocks sha512 (a + b) H (x ++ y) = compressBlocks sha512 b (compressBlocks sha512 a H x) y ∧
    (y.length = 128 → compressBlocks sha512 1 H y = compress sha512 H y))

/-- R118 and R152: Pad(c), its length and what it completes; the length field is exactly 8c. -/
def Obligations.Paddings : Prop :=
  (∀ c : Nat, c ≤ lengthLimit → ∃ z : Nat, (z : Int) = (55 - (c % 64 : Nat) : Int) % 64 ∧
     pad sha256 c = [0x80] ++ List.replicate z 0 ++ beBytes 8 (BitVec.ofNat 64 (8 * c)) ∧
     beVal (beBytes 8 (BitVec.ofNat 64 (8 * c))) = 8 * c ∧
     (pad sha256 c).length = 1 + z + 8 ∧ 9 ≤ (pad sha256 c).length ∧ (pad sha256 c).length ≤ 72 ∧
     (c + (pad sha256 c).length) % 64 = 0) ∧
  (∀ c : Nat, c ≤ lengthLimit → ∃ z : Nat, (z : Int) = (111 - (c % 128 : Nat) : Int) % 128 ∧
     pad sha512 c = [0x80] ++ List.replicate z 0 ++ List.replicate 8 0 ++ beBytes 8 (BitVec.ofNat 64 (8 * c)) ∧
     beVal ((pad sha512 c).drop (1 + z)) = 8 * c ∧
     (pad sha512 c).length = 17 + z ∧ 17 ≤ (pad sha512 c).length ∧ (pad sha512 c).length ≤ 144 ∧
     (c + (pad sha512 c).length) % 128 = 0)

/-- R121 and R155: the digest bytes of the accumulators, byte by byte, and back. -/
def Obligations.DigestBytesAreBigEndian : Prop :=
  (∀ H : Words8 32, (chainBytes H).length = 32 ∧ chainOfBytes 32 (chainBytes H) = H ∧
    ∀ i j, i < 8 → j < 4 → (chainBytes H).getD (4 * i + j) 0 = (H.toList.getD i 0).extractLsb' (24 - 8 * j) 8) ∧
  (∀ H : Words8 64, (chainBytes H).length = 64 ∧ chainOfBytes 64 (chainBytes H) = H ∧
    ∀ i j, i < 8 → j < 8 → (chainBytes H).getD (8 * i + j) 0 = (H.toList.getD i 0).extractLsb' (56 - 8 * j) 8)

/-- Absorbing in two parts is absorbing at once, for every instance and every split, and finalizing then gives
the standard's hash of the message (R119, R120, R128, R153, R154, R162). -/
def Obligations.AbsorbingStreams : Prop :=
  (∀ (I : HashInst 32) (m1 m2 : List Byte), absorb sha256 (absorb sha256 I m1) m2 = absorb sha256 I (m1 ++ m2)) ∧
  (∀ (I : HashInst 64) (m1 m2 : List Byte), absorb sha512 (absorb sha512 I m1) m2 = absorb sha512 I (m1 ++ m2)) ∧
  (∀ m1 m2 : List Byte, m1.length + m2.length ≤ lengthLimit →
    finalizeDigest sha256 (absorb sha256 (absorb sha256 (HashInst.initial iv256) m1) m2) = hash sha256 (m1 ++ m2) ∧
    finalizeDigest sha512 (absorb sha512 (absorb sha512 (HashInst.initial iv512) m1) m2) = hash sha512 (m1 ++ m2))

/-! ## What each command does (40_sha256.md §5, 41_sha512.md §5, 42_hmac_sha512.md §2, 43_system.md) -/

/-- NOP completes in every state and changes nothing but INFLIGHT, BUSY and DONE (R193). -/
def Obligations.NopOnlyCompletes : Prop :=
  ∀ s : State, ∃ t, exec .nop s = .next t ∧ completed s t ∧ t.s256 = s.s256 ∧ t.s512 = s.s512 ∧
    sameHmac s t ∧ sameMemory s t

/-- INIT, in every state, leaves its instance in the Initialize state and everything else as it was; twice
equals once (R122, R156). -/
def Obligations.InitReturnsToTheInitialState : Prop :=
  (∀ s : State, ∃ t, exec .s256Init s = .next t ∧ completed s t ∧
    t.s256.h = iv256 ∧ t.s256.cnt = 0 ∧ t.s256.buf = [] ∧ t.s256.fin = false ∧
    t.s512 = s.s512 ∧ sameHmac s t ∧ sameMemory s t ∧ exec .s256Init t = .next t) ∧
  (∀ s : State, ∃ t, exec .s512Init s = .next t ∧ completed s t ∧
    t.s512.h = iv512 ∧ t.s512.cnt = 0 ∧ t.s512.buf = [] ∧ t.s512.fin = false ∧
    t.s256 = s.s256 ∧ sameHmac s t ∧ sameMemory s t ∧ exec .s512Init t = .next t)

/-- S256.WRITE and S512.WRITE absorb their bytes: CNT grows by LEN, the full blocks of BUF and message go through
Compress*, the rest stays in BUF; MEM and everything else are as before (R119, R123, R153, R157). -/
def Obligations.PlainWritesAbsorb : Prop :=
  (∀ (src len : Nat) (s : State) (m : List Byte),
     s.s256.fin = false → inRange s src len → s.s256.cnt.toNat + len ≤ lengthLimit →
     Memory.readBytes s.mem src len = some m →
     ∃ t, exec (.s256Write src len) s = .next t ∧ completed s t ∧
       (let data := s.s256.buf ++ m
        let n := data.length / 64
        t.s256.h = compressBlocks sha256 n s.s256.h (data.take (64 * n)) ∧ t.s256.buf = data.drop (64 * n)) ∧
       t.s256.cnt.toNat = s.s256.cnt.toNat + len ∧ t.s256.fin = false ∧
       t.s512 = s.s512 ∧ sameHmac s t ∧ sameMemory s t) ∧
  (∀ (src len : Nat) (s : State) (m : List Byte),
     s.s512.fin = false → inRange s src len → s.s512.cnt.toNat + len ≤ lengthLimit →
     Memory.readBytes s.mem src len = some m →
     ∃ t, exec (.s512Write src len) s = .next t ∧ completed s t ∧
       (let data := s.s512.buf ++ m
        let n := data.length / 128
        t.s512.h = compressBlocks sha512 n s.s512.h (data.take (128 * n)) ∧ t.s512.buf = data.drop (128 * n)) ∧
       t.s512.cnt.toNat = s.s512.cnt.toNat + len ∧ t.s512.fin = false ∧
       t.s256 = s.s256 ∧ sameHmac s t ∧ sameMemory s t)

/-- HMAC.WRITE absorbs its bytes into HI alone (R174, R177). -/
def Obligations.HmacWriteAbsorbs : Prop :=
  ∀ (src len : Nat) (s : State) (m : List Byte),
    s.hkeyed = true → s.hfin = false → inRange s src len → s.hi.cnt.toNat + len ≤ lengthLimit →
    Memory.readBytes s.mem src len = some m →
    ∃ t, exec (.hmacWrite src len) s = .next t ∧ completed s t ∧
      (let data := s.hi.buf ++ m
       let n := data.length / 128
       t.hi.h = compressBlocks sha512 n s.hi.h (data.take (128 * n)) ∧ t.hi.buf = data.drop (128 * n)) ∧
      t.hi.cnt.toNat = s.hi.cnt.toNat + len ∧ t.hi.fin = s.hi.fin ∧
      t.ho = s.ho ∧ t.hkeyed = true ∧ t.hfin = false ∧
      t.s256 = s.s256 ∧ t.s512 = s.s512 ∧ sameMemory s t

/-- S256.FINAL and S512.FINAL pad, compress the last blocks, store the digest bytes at DST and leave the state R120 and
R154 fix; every byte outside the digest and everything else are as before (R118, R120, R124, R152, R154, R158). The
premises on BUF and CNT are part of the invariant `State.Inv`. -/
def Obligations.PlainFinalsStoreTheDigest : Prop :=
  (∀ (dst : Nat) (s : State),
     s.s256.fin = false → dst + 32 ≤ s.params.memSize →
     HashInst.bufferOk 64 s.s256 = true → s.s256.cnt.toNat ≤ lengthLimit →
     ∃ t, exec (.s256Final dst) s = .next t ∧ completed s t ∧
       (let data := s.s256.buf ++ pad sha256 s.s256.cnt.toNat
        t.s256.h = compressBlocks sha256 (data.length / 64) s.s256.h data) ∧
       Memory.readBytes t.mem dst 32 = some (chainBytes t.s256.h) ∧
       t.s256.cnt.toNat = s.s256.cnt.toNat + (pad sha256 s.s256.cnt.toNat).length ∧
       t.s256.buf = [] ∧ t.s256.fin = true ∧
       sameMemoryOutside dst 32 s t ∧ t.s512 = s.s512 ∧ sameHmac s t) ∧
  (∀ (dst : Nat) (s : State),
     s.s512.fin = false → dst + 64 ≤ s.params.memSize →
     HashInst.bufferOk 128 s.s512 = true → s.s512.cnt.toNat ≤ lengthLimit →
     ∃ t, exec (.s512Final dst) s = .next t ∧ completed s t ∧
       (let data := s.s512.buf ++ pad sha512 s.s512.cnt.toNat
        t.s512.h = compressBlocks sha512 (data.length / 128) s.s512.h data) ∧
       Memory.readBytes t.mem dst 64 = some (chainBytes t.s512.h) ∧
       t.s512.cnt.toNat = s.s512.cnt.toNat + (pad sha512 s.s512.cnt.toNat).length ∧
       t.s512.buf = [] ∧ t.s512.fin = true ∧
       sameMemoryOutside dst 64 s t ∧ t.s256 = s.s256 ∧ sameHmac s t)

/-- HMAC.FINAL finalizes HI, absorbs its digest into HO, finalizes HO and stores HO's digest at DST; HKEYED stays
1 and HFIN becomes 1 (R175). -/
def Obligations.HmacFinalStoresTheMac : Prop :=
  ∀ (dst : Nat) (s : State),
    s.hkeyed = true → s.hfin = false → dst + 64 ≤ s.params.memSize →
    ∃ t, exec (.hmacFinal dst) s = .next t ∧ completed s t ∧
      t.hi = { absorb sha512 s.hi (pad sha512 s.hi.cnt.toNat) with fin := true } ∧
      (let outer := absorb sha512 s.ho (chainBytes t.hi.h)
       t.ho = { absorb sha512 outer (pad sha512 outer.cnt.toNat) with fin := true }) ∧
      Memory.readBytes t.mem dst 64 = some (chainBytes t.ho.h) ∧
      t.hkeyed = true ∧ t.hfin = true ∧
      sameMemoryOutside dst 64 s t ∧ t.s256 = s.s256 ∧ t.s512 = s.s512

/-- XFORM applies the transform to LEN blocks on H alone, also on a finalized instance; LEN = 0 changes nothing
(R125, R159). -/
def Obligations.XformTouchesOnlyH : Prop :=
  (∀ (src nblk : Nat) (s : State) (m : List Byte),
    inRange s src (64 * nblk) → Memory.readBytes s.mem src (64 * nblk) = some m →
    ∃ t, exec (.s256Xform src nblk) s = .next t ∧ completed s t ∧
      t.s256.h = compressBlocks sha256 nblk s.s256.h m ∧ (nblk = 0 → t.s256.h = s.s256.h) ∧
      t.s256.cnt = s.s256.cnt ∧ t.s256.buf = s.s256.buf ∧ t.s256.fin = s.s256.fin ∧
      t.s512 = s.s512 ∧ sameHmac s t ∧ sameMemory s t) ∧
  (∀ (src nblk : Nat) (s : State) (m : List Byte),
    inRange s src (128 * nblk) → Memory.readBytes s.mem src (128 * nblk) = some m →
    ∃ t, exec (.s512Xform src nblk) s = .next t ∧ completed s t ∧
      t.s512.h = compressBlocks sha512 nblk s.s512.h m ∧ (nblk = 0 → t.s512.h = s.s512.h) ∧
      t.s512.cnt = s.s512.cnt ∧ t.s512.buf = s.s512.buf ∧ t.s512.fin = s.s512.fin ∧
      t.s256 = s.s256 ∧ sameHmac s t ∧ sameMemory s t)

/-- LDST loads the chaining state whose big-endian bytes stand at SRC, sets CNT for LEN whole blocks, empties BUF
and leaves the finalized state (R126, R160). -/
def Obligations.LdstLoadsTheChainingState : Prop :=
  (∀ (src nblk : Nat) (s : State) (m : List Byte),
    src + 32 ≤ s.params.memSize → nblk < 2 ^ 24 → Memory.readBytes s.mem src 32 = some m →
    ∃ t, exec (.s256Ldst src nblk) s = .next t ∧ completed s t ∧
      chainBytes t.s256.h = m ∧ t.s256.cnt.toNat = 64 * nblk ∧ t.s256.cnt.toNat ≤ lengthLimit ∧
      t.s256.buf = [] ∧ t.s256.fin = false ∧
      t.s512 = s.s512 ∧ sameHmac s t ∧ sameMemory s t) ∧
  (∀ (src nblk : Nat) (s : State) (m : List Byte),
    src + 64 ≤ s.params.memSize → nblk < 2 ^ 24 → Memory.readBytes s.mem src 64 = some m →
    ∃ t, exec (.s512Ldst src nblk) s = .next t ∧ completed s t ∧
      chainBytes t.s512.h = m ∧ t.s512.cnt.toNat = 128 * nblk ∧ t.s512.cnt.toNat ≤ lengthLimit ∧
      t.s512.buf = [] ∧ t.s512.fin = false ∧
      t.s256 = s.s256 ∧ sameHmac s t ∧ sameMemory s t)

/-- STST stores H big-endian at DST, in every instance state, and changes nothing else (R127, R161). -/
def Obligations.StstStoresTheChainingState : Prop :=
  (∀ (dst : Nat) (s : State), dst + 32 ≤ s.params.memSize →
    ∃ t, exec (.s256Stst dst) s = .next t ∧ completed s t ∧
      Memory.readBytes t.mem dst 32 = some (chainBytes s.s256.h) ∧ sameMemoryOutside dst 32 s t ∧
      t.s256 = s.s256 ∧ t.s512 = s.s512 ∧ sameHmac s t) ∧
  (∀ (dst : Nat) (s : State), dst + 64 ≤ s.params.memSize →
    ∃ t, exec (.s512Stst dst) s = .next t ∧ completed s t ∧
      Memory.readBytes t.mem dst 64 = some (chainBytes s.s512.h) ∧ sameMemoryOutside dst 64 s t ∧
      t.s256 = s.s256 ∧ t.s512 = s.s512 ∧ sameHmac s t)

/-- A midstate stored by STST at a block boundary and loaded by LDST restores the instance (R126's and R127's
examples, R160, R161). -/
def Obligations.StoredMidstateLoadsBack : Prop :=
  (∀ (dst nblk : Nat) (s : State), dst + 32 ≤ s.params.memSize → nblk < 2 ^ 24 →
    s.s256.cnt.toNat = 64 * nblk → s.s256.buf = [] → s.s256.fin = false →
    ∃ t, execAll [.s256Stst dst, .s256Init, .s256Ldst dst nblk] s = .next t ∧ t.s256 = s.s256) ∧
  (∀ (dst nblk : Nat) (s : State), dst + 64 ≤ s.params.memSize → nblk < 2 ^ 24 →
    s.s512.cnt.toNat = 128 * nblk → s.s512.buf = [] → s.s512.fin = false →
    ∃ t, execAll [.s512Stst dst, .s512Init, .s512Ldst dst nblk] s = .next t ∧ t.s512 = s.s512)

/-- HMAC.KEY keys HI and HO with the normalized key, for keys of every length in range: each has absorbed one
block, HKEYED is 1 and HFIN is 0; MEM, S256 and S512 are as before (R171, R173). -/
def Obligations.HmacKeyKeysBothInstances : Prop :=
  ∀ (src len : Nat) (s : State) (key : List Byte),
    s.params.valid = true → inRange s src len → Memory.readBytes s.mem src len = some key →
    ∃ t, exec (.hmacKey src len) s = .next t ∧ completed s t ∧
      (keyBlock key).length = 128 ∧
      t.hi.h = compress sha512 iv512 (xorBytes (keyBlock key) (padBytes 0x36)) ∧
      t.ho.h = compress sha512 iv512 (xorBytes (keyBlock key) (padBytes 0x5c)) ∧
      t.hi.cnt = 128 ∧ t.ho.cnt = 128 ∧ t.hi.buf = [] ∧ t.ho.buf = [] ∧ t.hi.fin = false ∧ t.ho.fin = false ∧
      t.hkeyed = true ∧ t.hfin = false ∧
      t.s256 = s.s256 ∧ t.s512 = s.s512 ∧ sameMemory s t

/-- HMAC.CLEAR zeroizes the HMAC state, in every state; MEM, S256 and S512 are as before, and WRITE and FINAL
raise NOT_KEYED afterwards (R176, R208). -/
def Obligations.HmacClearZeroizes : Prop :=
  ∀ s : State, ∃ t, exec .hmacClear s = .next t ∧ completed s t ∧
    (∀ x ∈ t.hi.h.toList ++ t.ho.h.toList, x = 0) ∧
    t.hi.cnt = 0 ∧ t.ho.cnt = 0 ∧ t.hi.buf = [] ∧ t.ho.buf = [] ∧ t.hi.fin = false ∧ t.ho.fin = false ∧
    t.hkeyed = false ∧ t.hfin = false ∧ t.s256 = s.s256 ∧ t.s512 = s.s512 ∧ sameMemory s t ∧
    (∀ src len, commandError (.hmacWrite src len) t = some .notKeyed) ∧
    (∀ dst, commandError (.hmacFinal dst) t = some .notKeyed)

/-! ## Whole hashes and MACs (R128, R162, R184, R96) -/

/-- R128 and R162 on the machine: INIT; WRITE m1; WRITE m2; FINAL stores the standard's hash of m1‖m2, and leaves the
same instance as INIT; WRITE m1‖m2; FINAL, wherever the messages stand. That a zero-length part is in range wherever
it stands on a small MEM follows R209's reading (log 7). -/
def Obligations.StreamingEquivalence : Prop :=
  (∀ (s u : State) (src1 len1 src2 len2 src dst : Nat) (m1 m2 : List Byte),
     s.params.valid = true → u.params.valid = true →
     inRange s src1 len1 → inRange s src2 len2 → dst + 32 ≤ s.params.memSize →
     Memory.readBytes s.mem src1 len1 = some m1 → Memory.readBytes s.mem src2 len2 = some m2 →
     inRange u src (len1 + len2) → dst + 32 ≤ u.params.memSize →
     Memory.readBytes u.mem src (len1 + len2) = some (m1 ++ m2) →
     ∃ t v, execAll [.s256Init, .s256Write src1 len1, .s256Write src2 len2, .s256Final dst] s = .next t ∧
       execAll [.s256Init, .s256Write src (len1 + len2), .s256Final dst] u = .next v ∧
       Memory.readBytes t.mem dst 32 = some (hash sha256 (m1 ++ m2)) ∧
       Memory.readBytes v.mem dst 32 = some (hash sha256 (m1 ++ m2)) ∧ t.s256 = v.s256) ∧
  (∀ (s u : State) (src1 len1 src2 len2 src dst : Nat) (m1 m2 : List Byte),
     s.params.valid = true → u.params.valid = true →
     inRange s src1 len1 → inRange s src2 len2 → dst + 64 ≤ s.params.memSize →
     Memory.readBytes s.mem src1 len1 = some m1 → Memory.readBytes s.mem src2 len2 = some m2 →
     inRange u src (len1 + len2) → dst + 64 ≤ u.params.memSize →
     Memory.readBytes u.mem src (len1 + len2) = some (m1 ++ m2) →
     ∃ t v, execAll [.s512Init, .s512Write src1 len1, .s512Write src2 len2, .s512Final dst] s = .next t ∧
       execAll [.s512Init, .s512Write src (len1 + len2), .s512Final dst] u = .next v ∧
       Memory.readBytes t.mem dst 64 = some (hash sha512 (m1 ++ m2)) ∧
       Memory.readBytes v.mem dst 64 = some (hash sha512 (m1 ++ m2)) ∧ t.s512 = v.s512)

/-- R184: KEY; WRITE m1; …; WRITE mk; FINAL stores HMAC512(K, m1‖…‖mk) as RFC 2104 states it, for a key of any
length in range and any number of writes. That a zero-length key or piece is in range wherever it stands on a small
MEM follows R209's reading (log 7). -/
def Obligations.HmacStoresTheStandardMac : Prop :=
  ∀ (s : State) (ksrc klen dst : Nat) (key : List Byte) (writes : List (Nat × Nat × List Byte)),
    s.params.valid = true → inRange s ksrc klen → dst + 64 ≤ s.params.memSize →
    Memory.readBytes s.mem ksrc klen = some key →
    (∀ x ∈ writes, inRange s x.1 x.2.1 ∧ Memory.readBytes s.mem x.1 x.2.1 = some x.2.2) →
    128 + (writes.flatMap fun x => x.2.2).length ≤ lengthLimit →
    ∃ t, execAll ([.hmacKey ksrc klen] ++ (writes.map fun x => .hmacWrite x.1 x.2.1) ++ [.hmacFinal dst]) s
        = .next t ∧
      Memory.readBytes t.mem dst 64 = some (hmac512 key (writes.flatMap fun x => x.2.2))

/-- R96: the pseudo-instruction S256.D64 writes SHA256(SHA256(block)) of the 64 bytes at src to dst. -/
def Obligations.DoubleHashPseudoInstruction : Prop :=
  ∀ (s : State) (src dst : Nat) (block : List Byte),
    s.params.valid = true → src + 64 ≤ s.params.memSize → dst + 32 ≤ s.params.memSize →
    Memory.readBytes s.mem src 64 = some block →
    ∃ t, execAll (expandPseudo (.s256D64 dst src)) s = .next t ∧
      Memory.readBytes t.mem dst 32 = some (hash sha256 (hash sha256 block)) ∧ sameMemoryOutside dst 32 s t

/-- Every command whose checks find no error, and whose bytes to read were all written, completes, and every byte
outside its write span reads as before (43_system.md R190, R191, R192, 20_memory.md R69). -/
def Obligations.EveryCommandCompletes : Prop :=
  ∀ (i : Instr) (s : State), commandError i s = none →
    (∀ x, inSpan (readSpan i) x = true → (Memory.read s.mem x).isSome = true) →
    ∃ t, exec i s = .next t ∧ completed s t ∧
      ∀ x, inSpan (writeSpan i) x = false → Memory.read t.mem x = Memory.read s.mem x

/-- R80: a command that passes its checks and would read a never-written byte is a model fault. -/
def Obligations.UnwrittenReadsFault : Prop :=
  ∀ (i : Instr) (s : State) (a n x : Nat), commandError i s = none → readSpan i = some (a, n) →
    a ≤ x → x < a + n → Memory.read s.mem x = none → exec i s = .fault (.readUnwritten a n)

/-- R69 and R129: no command both reads and writes MEM, and a command's effects are a function of the rest of the
state and of the bytes in its read span alone. -/
def Obligations.CommandsDependOnTheirReadSpan : Prop :=
  ∀ i : Instr, (readSpan i = none ∨ writeSpan i = none) ∧
    ∀ (s t : State) (m : Memory),
      (∀ x, inSpan (readSpan i) x = true → Memory.read m x = Memory.read s.mem x) → exec i s = .next t →
      ∃ t', exec i { s with mem := m } = .next t' ∧ t' = { t with mem := t'.mem } ∧
        (∀ x, inSpan (writeSpan i) x = true → commandError i s = none →
          Memory.read t'.mem x = Memory.read t.mem x)

/-- R177: the HMAC commands neither read nor write S256 or S512: with any other values in them, the outcome is the
same but for those values. -/
def Obligations.HmacIgnoresThePlainInstances : Prop :=
  ∀ (i : Instr) (s : State) (x : HashInst 32) (y : HashInst 64),
    ((∃ src len, i = .hmacKey src len) ∨ (∃ src len, i = .hmacWrite src len) ∨ (∃ dst, i = .hmacFinal dst) ∨
      i = .hmacClear) →
    (∀ t, exec i s = .next t → t.s256 = s.s256 ∧ t.s512 = s.s512 ∧
      exec i { s with s256 := x, s512 := y } = .next { t with s256 := x, s512 := y }) ∧
    (∀ r, exec i s = .fault r → exec i { s with s256 := x, s512 := y } = .fault r)

/-! ## Errors (60_exceptions.md) -/

/-- R215 and R219: a command whose checks find an error records it and changes nothing else. -/
def Obligations.ErrorsArePrecise : Prop :=
  ∀ (i : Instr) (s : State) (code : ErrCode), commandError i s = some code →
    exec i s = .next { s with err := true, errCode := code, errCmd := encode i }

/-- R216 with R205 to R212 and R214: what an issued word does, case by case in the order of priority; with no
condition it is accepted (43_system.md R190), and how long it stays in flight is the model's free LATENCY
(log 2). -/
def Obligations.IssueFollowsThePriority : Prop :=
  ∀ (w : Command) (s : State),
    (s.fatal = true ∨ s.err = true → issue w s = { s with errLost := true }) ∧
    (s.fatal = false → s.err = false → s.busy = true →
      issue w s = { s with err := true, errCode := .busyOverrun, errCmd := w }) ∧
    (State.ready s = true →
      (reservedOpcode w = true → issue w s = { s with err := true, errCode := .illegalOpcode, errCmd := w }) ∧
      (reservedOpcode w = false → reservedFieldSet w = true →
        issue w s = { s with err := true, errCode := .reservedField, errCmd := w }) ∧
      (reservedOpcode w = false → reservedFieldSet w = false → ∃ i, decode w = .ok i ∧
        (usesMissingKey i s → issue w s = { s with err := true, errCode := .notKeyed, errCmd := w }) ∧
        (¬ usesMissingKey i s → usesFinalized i s →
          issue w s = { s with err := true, errCode := .useAfterFinal, errCmd := w }) ∧
        (¬ usesMissingKey i s → ¬ usesFinalized i s → passesMemory i s →
          issue w s = { s with err := true, errCode := .range, errCmd := w }) ∧
        (¬ usesMissingKey i s → ¬ usesFinalized i s → ¬ passesMemory i s → passesLimit i s →
          issue w s = { s with err := true, errCode := .lengthLimit, errCmd := w }) ∧
        (¬ usesMissingKey i s → ¬ usesFinalized i s → ¬ passesMemory i s → ¬ passesLimit i s →
          ∃ wait draws, issue w s =
            { s with busy := true, inflight := some w, wait := wait, draws := draws })))

/-- R209: a span of n > 0 bytes raises RANGE exactly when it passes MEM_SIZE, once no earlier condition holds; a
span of length 0 never does. That zero-length spans pass on a MEM smaller than 65536 bytes is the model's reading
(log 7). -/
def Obligations.RangeIsExact : Prop :=
  ∀ (i : Instr) (s : State), ¬ usesMissingKey i s → ¬ usesFinalized i s →
    (commandError i s = some .range ↔ passesMemory i s)

/-- R196 and R217: what a write of CTRL does. -/
def Obligations.CtrlWrite : Prop :=
  ∀ (v : Word32) (s : State), ∃ t, hostWrite 0x08 v 0xF s = .next t ∧
    (v.getLsbD 31 = true → t = softReset s) ∧
    (v.getLsbD 31 = false →
      t.ieDone = v.getLsbD 0 ∧ t.ieErr = v.getLsbD 1 ∧
      t.done = (s.done && !v.getLsbD 8) ∧
      (v.getLsbD 9 = true ∧ s.fatal = false →
        t.err = false ∧ t.errLost = false ∧ t.errCode = .noError ∧ t.errCmd = 0) ∧
      (v.getLsbD 9 = false ∨ s.fatal = true →
        t.err = s.err ∧ t.errLost = s.errLost ∧ t.errCode = s.errCode ∧ t.errCmd = s.errCmd) ∧
      t = { s with ieDone := t.ieDone, ieErr := t.ieErr, done := t.done, err := t.err, errLost := t.errLost,
                   errCode := t.errCode, errCmd := t.errCmd })

/-- R191: in a state of the invariant, the completion of the command in flight raises no error and is not refused:
it has its effects, with BUSY = 0 and DONE = 1, or it faults on a never-written byte (20_memory.md R80). -/
def Obligations.AcceptedCommandsCannotFail : Prop :=
  ∀ (s : State) (w : Command), State.Inv s → s.inflight = some w → s.wait = 0 →
    (∃ t, step s = .next t ∧ completed s t) ∨ ∃ a n, step s = .fault (.readUnwritten a n)

/-! ## Registers and the window (10_state.md §3, 20_memory.md, 43_system.md §2) -/

/-- R32, R33, R205 and R220: STATUS, field by field, with the number of each error code; a host write of it changes
nothing. -/
def Obligations.StatusFields : Prop :=
  (ErrCode.bits .noError = 0 ∧ ErrCode.bits .illegalOpcode = 1 ∧ ErrCode.bits .reservedField = 2 ∧
    ErrCode.bits .range = 3 ∧ ErrCode.bits .useAfterFinal = 4 ∧ ErrCode.bits .notKeyed = 5 ∧
    ErrCode.bits .lengthLimit = 6 ∧ ErrCode.bits .busyOverrun = 7 ∧ ErrCode.bits .selftestFail = 8) ∧
  ∀ s : State,
    (State.status s).getLsbD 0 = s.busy ∧ (State.status s).getLsbD 1 = s.done ∧
    (State.status s).getLsbD 2 = s.err ∧ (State.status s).getLsbD 3 = s.errLost ∧
    (State.status s).getLsbD 4 = s.fatal ∧ (State.status s).getLsbD 5 = s.s256.fin ∧
    (State.status s).getLsbD 6 = s.s512.fin ∧ (State.status s).getLsbD 7 = s.hkeyed ∧
    (State.status s).getLsbD 8 = s.hfin ∧
    (State.status s).getLsbD 9 = ((s.ieDone && s.done) || (s.ieErr && s.err)) ∧
    (∀ k, 10 ≤ k → k < 16 → (State.status s).getLsbD k = false) ∧
    (State.status s).extractLsb' 16 4 = ErrCode.bits s.errCode ∧
    (∀ k, 20 ≤ k → (State.status s).getLsbD k = false) ∧
    (∀ v, hostWrite 0x04 v 0xF s = .next s)

/-- R71 and R195: a host read changes nothing of the block; the record of the value read and the count of drawn
values are the model's own (logs 3, 10). -/
def Obligations.ReadsChangeNothing : Prop :=
  ∀ (off : BitVec 17) (s : State), off.toNat % 4 = 0 →
    ∃ v draws, hostRead off s = .next { s with reads := v :: s.reads, draws := draws }

/-- R39, R30 and R197: a reserved register offset reads 0 and ignores writes; the read-only registers ignore writes.
The record of the value read is the model's own (log 10). -/
def Obligations.ReservedAndReadOnlyRegisters : Prop :=
  ∀ (off : BitVec 17) (s : State), off.toNat % 4 = 0 →
    (0x30 ≤ off.toNat → off.toNat < 0x10000 →
      hostRead off s = .next { s with reads := 0 :: s.reads } ∧ ∀ v, hostWrite off v 0xF s = .next s) ∧
    (off.toNat ∈ [0x00, 0x04, 0x0C, 0x18, 0x1C, 0x20, 0x24, 0x28, 0x2C] → ∀ v, hostWrite off v 0xF s = .next s)

/-- R31, R34 to R38 and R195: what the registers read, also while BUSY = 1 (R33, R245) but for the four counter
registers, and the two halves of each 64-bit value put together. The record of the value read is the model's own
(log 10). -/
def Obligations.RegisterReads : Prop :=
  ∀ s : State,
    hostRead 0x00 s = .next { s with reads := 0x53484132 :: s.reads } ∧
    hostRead 0x04 s = .next { s with reads := State.status s :: s.reads } ∧
    (∃ v, hostRead 0x08 s = .next { s with reads := v :: s.reads } ∧ v.getLsbD 0 = s.ieDone ∧
      v.getLsbD 1 = s.ieErr ∧ ∀ k, 2 ≤ k → v.getLsbD k = false) ∧
    hostRead 0x0C s = .next { s with reads := BitVec.ofNat 32 s.params.memSize :: s.reads } ∧
    hostRead 0x10 s = .next { s with reads := s.cmdLo :: s.reads } ∧
    hostRead 0x14 s = .next { s with reads := s.cmdHi :: s.reads } ∧
    (∃ lo hi : Word32, hostRead 0x18 s = .next { s with reads := lo :: s.reads } ∧
      hostRead 0x1C s = .next { s with reads := hi :: s.reads } ∧ hi ++ lo = s.errCmd) ∧
    (s.busy = false →
      (∃ lo hi : Word32, hostRead 0x20 s = .next { s with reads := lo :: s.reads } ∧
        hostRead 0x24 s = .next { s with reads := hi :: s.reads } ∧ hi ++ lo = s.s256.cnt) ∧
      (∃ lo hi : Word32, hostRead 0x28 s = .next { s with reads := lo :: s.reads } ∧
        hostRead 0x2C s = .next { s with reads := hi :: s.reads } ∧ hi ++ lo = s.s512.cnt))

/-- R63, R64 and R244, reading: byte j of the word read is the byte of MEM at its address, for each byte that was
written and that no command in flight will write, also while BUSY = 1 and whatever the word's other bytes are; with
four such bytes the word is their little-endian number; 0 where there is no memory. The record and the draw count
are the model's own (logs 3, 10). -/
def Obligations.WindowReads : Prop :=
  ∀ (k : Nat) (s : State), 4 * k < 0x10000 →
    (4 * k + 3 < s.params.memSize →
      ∃ v draws, hostRead (BitVec.ofNat 17 (0x10000 + 4 * k)) s =
          .next { s with reads := v :: s.reads, draws := draws } ∧
        (∀ (j : Nat) (b : Byte), j < 4 → Memory.read s.mem (4 * k + j) = some b → State.settled s (4 * k + j) →
          v.extractLsb' (8 * j) 8 = b) ∧
        (∀ b0 b1 b2 b3 : Byte, (∀ j, j < 4 → State.settled s (4 * k + j)) →
          Memory.readBytes s.mem (4 * k) 4 = some [b0, b1, b2, b3] →
          v.toNat = b0.toNat + b1.toNat * 2 ^ 8 + b2.toNat * 2 ^ 16 + b3.toNat * 2 ^ 24)) ∧
    (s.params.memSize ≤ 4 * k →
      hostRead (BitVec.ofNat 17 (0x10000 + 4 * k)) s = .next { s with reads := 0 :: s.reads })

/-- R63 and R64, writing while BUSY = 0: each strobed byte is stored at its address, every other byte stays, and a
write where there is no memory is ignored. -/
def Obligations.WindowWrites : Prop :=
  ∀ (k : Nat) (data : Word32) (wstrb : BitVec 4) (s : State), 4 * k < 0x10000 → s.busy = false →
    (4 * k + 3 < s.params.memSize →
      ∃ m, hostWrite (BitVec.ofNat 17 (0x10000 + 4 * k)) data wstrb s = .next { s with mem := m } ∧
        (∀ j, j < 4 → wstrb.getLsbD j = true →
          Memory.read m (4 * k + j) = some (data.extractLsb' (8 * j) 8)) ∧
        (∀ j, j < 4 → wstrb.getLsbD j = false → Memory.read m (4 * k + j) = Memory.read s.mem (4 * k + j)) ∧
        (∀ x, x < 4 * k ∨ 4 * k + 4 ≤ x → Memory.read m x = Memory.read s.mem x)) ∧
    (s.params.memSize ≤ 4 * k → hostWrite (BitVec.ofNat 17 (0x10000 + 4 * k)) data wstrb s = .next s)

/-- R36, R197 and R246: a write of CMD_LO only stores, and a write of CMD_HI stores and issues the word whose bits
63:32 are CMD_HI and 31:0 are CMD_LO; both also while BUSY = 1. -/
def Obligations.CommandRegisterWrites : Prop :=
  ∀ (v : Word32) (s : State),
    hostWrite 0x10 v 0xF s = .next { s with cmdLo := v } ∧
    ∃ w : Command, w.extractLsb' 32 32 = v ∧ w.extractLsb' 0 32 = s.cmdLo ∧
      hostWrite 0x14 v 0xF s = .next (issue w { s with cmdHi := v })

/-- R38, R244, R245 and R80: what a host read draws. The drawn values are free (log 3), and no two reads share
one. -/
def Obligations.DrawnReads : Prop :=
  (∀ (off : BitVec 17) (s : State), s.busy = true → off.toNat ∈ [0x20, 0x24, 0x28, 0x2C] →
    hostRead off s = .next { s with reads := Config.freeWord s.draws :: s.reads, draws := s.draws + 1 }) ∧
  (∀ (k j : Nat) (s : State), 4 * k + 3 < 0x10000 → 4 * k + 3 < s.params.memSize → j < 4 →
    ((s.busy = true ∧ inSpan (inflightWriteSpan s) (4 * k + j) = true) ∨ Memory.read s.mem (4 * k + j) = none) →
    ∃ v, hostRead (BitVec.ofNat 17 (0x10000 + 4 * k)) s =
        .next { s with reads := v :: s.reads, draws := s.draws + 4 } ∧
      v.extractLsb' (8 * j) 8 = Config.freeByte (s.draws + j))

/-- The accesses the model stops on: misaligned or not 32 bits wide (R62), a register write with another strobe
(R65), and a window write while BUSY = 1 (70_reset_and_hazards.md R244). That the last holds for window offsets
beyond MEM_SIZE too is the model's reading (log 8). -/
def Obligations.StoppedAccesses : Prop :=
  ∀ (off : BitVec 17) (data : Word32) (wstrb : BitVec 4) (rest : List HostAction) (s : State),
    (off.toNat % 4 ≠ 0 →
      hostRead off s = .refused .misalignedAccess ∧ hostWrite off data wstrb s = .refused .misalignedAccess) ∧
    hostAct (.otherWidth off) rest s = .refused .accessWidth ∧
    (off.toNat % 4 = 0 → off.toNat < 0x10000 → wstrb ≠ 0b1111 → hostWrite off data wstrb s = .refused .partialStrobe) ∧
    (off.toNat % 4 = 0 → 0x10000 ≤ off.toNat → s.busy = true → hostWrite off data wstrb s = .fault .memWriteWhileBusy)

/-! ## Reset (10_state.md R41, 70_reset_and_hazards.md) -/

/-- R41, R235 and R236: every state right after hardware reset, from any state, and in the model's reset state; MEM
holds no written byte, and STATUS reads 1. The parameters are unchanged (log 5). -/
def Obligations.HardwareResetValues : Prop :=
  (∀ s : State, (hardwareReset s).params = s.params ∧ State.atReset (hardwareReset s) ∧
    State.status (hardwareReset s) = 0x00000001) ∧
  State.atReset State.reset ∧ State.status State.reset = 0x00000001

/-- R236 and R213: the end of the self-test, when its turn comes: BUSY becomes 0, and a failed one records
SELFTEST_FAIL with FATAL; nothing else changes. That ERR_CMD is cleared after an overrun during the self-test is the
model's reading (log 9). -/
def Obligations.SelfTestEnds : Prop :=
  ∀ s : State, s.busy = true → s.inflight = none → s.wait = 0 →
    (s.params.selfTestPass = true → step s = .next { s with busy := false }) ∧
    (s.params.selfTestPass = false → step s = .next { s with
      busy := false, fatal := true, err := true, errCode := .selftestFail, errCmd := 0 })

/-- R239 and R240: a soft reset is ignored during the self-test; otherwise it takes effect within the CTRL write:
every state at its reset value, BUSY = 0, FATAL kept with its error, and MEM unchanged outside the write span of an
aborted command, in which no byte comes to count as written. -/
def Obligations.SoftReset : Prop :=
  ∀ (v : Word32) (s : State), v.getLsbD 31 = true →
    (State.selfTestRunning s = true → hostWrite 0x08 v 0xF s = .next s) ∧
    (State.selfTestRunning s = false → ∃ t, hostWrite 0x08 v 0xF s = .next t ∧
      t.params = s.params ∧ t.s256 = HashInst.initial iv256 ∧ t.s512 = HashInst.initial iv512 ∧
      t.hi = HashInst.initial (zeroWords 64) ∧ t.ho = HashInst.initial (zeroWords 64) ∧
      t.hkeyed = false ∧ t.hfin = false ∧ t.busy = false ∧ t.inflight = none ∧ t.done = false ∧
      t.fatal = s.fatal ∧ t.err = s.fatal ∧ t.errCode = (if s.fatal then .selftestFail else .noError) ∧
      t.errCmd = 0 ∧ t.errLost = false ∧ t.ieDone = false ∧ t.ieErr = false ∧ t.cmdLo = 0 ∧ t.cmdHi = 0 ∧
      (∀ x, (Memory.read t.mem x).isSome = (Memory.read s.mem x).isSome) ∧
      (∀ x, inSpan (inflightWriteSpan s) x = false → Memory.read t.mem x = Memory.read s.mem x))

/-- R237 and R213: after a failed self-test, no step but a hardware reset leaves FATAL, and no command runs: the
instances keep their values or return to the Initialize state. -/
def Obligations.FatalIsForever : Prop :=
  ∀ s t : State, State.Inv s → s.fatal = true → s.host.head? ≠ some .hardwareReset → step s = .next t →
    t.fatal = true ∧ t.err = true ∧ t.errCode = .selftestFail ∧ t.busy = false ∧ t.done = (t.done && s.done) ∧
    (t.s256 = s.s256 ∨ t.s256 = HashInst.initial iv256) ∧ (t.s512 = s.s512 ∨ t.s512 = HashInst.initial iv512)

/-! ## Steps (43_system.md, 70_reset_and_hazards.md) -/

/-- A step runs the decoded instruction: when the engine's turn comes and the word in flight decodes to a command,
the step is that command's meaning (43_system.md R192). At every other turn the step performs the action at the head
of the host's queue, a read, a write, a WAIT or a reset, and takes it off the queue; with no action left the block
stays as it is (43_system.md R199, R200). Whose turn it is, the count-down and the queue are the model's (logs 1, 2,
19). -/
def Obligations.StepRunsTheDecodedInstruction : Prop :=
  (∀ (s : State) (w : Command) (i : Instr), s.busy = true → s.inflight = some w → s.wait = 0 →
    decode w = .ok i → step s = exec i s) ∧
  (∀ (s : State) (i : Instr), i.wellFormed = true →
    step (s.withFetchWord 64 (encode i).toNat) =
      exec i { s with busy := true, inflight := some (encode i), wait := 0 }) ∧
  (∀ (s : State) (rest : List HostAction), s.busy = false ∨ s.wait ≠ 0 →
    let passed := { s with wait := if s.busy then s.wait - 1 else s.wait }
    let t := { passed with host := rest }
    (s.host = [] → step s = .next passed) ∧
    (∀ off, s.host = .read off :: rest → step s = hostRead off t) ∧
    (∀ off data wstrb, s.host = .write off data wstrb :: rest → step s = hostWrite off data wstrb t) ∧
    (s.host = .wait :: rest → step s = .next (if s.busy then passed else t)) ∧
    (s.host = .hardwareReset :: rest → step s = .next (hardwareReset t)) ∧
    (∀ off, s.host = .otherWidth off :: rest → step s = .refused .accessWidth))

/-- R194: while BUSY = 1 and it is not the engine's turn, no host action but a reset changes the instances, the HMAC
flags, MEM, FATAL, BUSY or INFLIGHT; DONE can only be cleared, and the error record only be cleared or take
BUSY_OVERRUN. A host write to MEM is no next state (70_reset_and_hazards.md R244). -/
def Obligations.NothingMovesWhileBusy : Prop :=
  ∀ s t : State, s.busy = true → s.wait ≠ 0 → s.host.head?.any resetsBlock = false → step s = .next t →
    t.s256 = s.s256 ∧ t.s512 = s.s512 ∧ sameHmac s t ∧ t.mem = s.mem ∧ t.fatal = s.fatal ∧ t.busy = true ∧
    t.inflight = s.inflight ∧ t.params = s.params ∧ (t.done = true → s.done = true) ∧
    ((t.err = s.err ∧ t.errCode = s.errCode ∧ t.errCmd = s.errCmd) ∨
     (t.err = false ∧ t.errCode = .noError ∧ t.errCmd = 0 ∧ t.errLost = false) ∨
     (s.err = false ∧ s.fatal = false ∧ t.err = true ∧ t.errCode = .busyOverrun ∧ t.errLost = s.errLost))

/-- POKE a, bytes (R199), from a block that is not busy: after its window writes the bytes stand at `a`, every other
byte of MEM reads as before, and nothing else has changed. -/
def Obligations.PokeStoresItsBytes : Prop :=
  ∀ (s : State) (a : Nat) (bytes : List Byte) (rest : List HostAction),
    s.params.valid = true → s.busy = false → a + bytes.length ≤ s.params.memSize → s.host = poke a bytes ++ rest →
    ∃ m, Host.Core.run Sys2Proof.core (poke a bytes).length s = .next { s with mem := m, host := rest } ∧
      Memory.readBytes m a bytes.length = some bytes ∧
      ∀ x, x < a ∨ a + bytes.length ≤ x → Memory.read m x = Memory.read s.mem x

/-- R97, R190, R192, R199: from a ready block, ISSUE of a command that passes its checks leaves, after finitely many
steps, exactly what the command's meaning gives, with the two halves of the word in CMD_LO and CMD_HI and the host
past its WAIT. `wait` and `draws` are the model's own. -/
def Obligations.IssueSequenceRunsTheCommand : Prop :=
  ∀ (i : Instr) (s u : State) (rest : List HostAction), i.wellFormed = true → State.ready s = true →
    s.host = issueActions (encode i) ++ rest → commandError i s = none → exec i s = .next u →
    ∃ k wait draws, Host.Core.run Sys2Proof.core k s = .next { u with
      cmdLo := (encode i).extractLsb' 0 32, cmdHi := (encode i).extractLsb' 32 32, host := rest,
      wait := wait, draws := draws }

/-! ## Invariants -/

/-- R27: every command that writes an instance keeps `len(BUF) = CNT mod bs`, and so does every step. -/
def Obligations.BuffersMatchCounters : Prop :=
  (∀ (i : Instr) (s t : State), State.buffersOk s = true → exec i s = .next t → State.buffersOk t = true) ∧
  (∀ s t : State, State.buffersOk s = true → step s = .next t → State.buffersOk t = true)

/-- Every step keeps MEM in its canonical form, a list of written bytes by strictly rising address. That list is the
model's own form of MEM (log 4); R80 asks only that a byte never written holds no value. -/
def Obligations.MemoryStaysCanonical : Prop :=
  ∀ s t : State, Memory.wf s.mem → step s = .next t → Memory.wf t.mem

/-- The parameters of the implementation never change (R5), BLOCK_BASE and IMPL_VARIANT change no result (R9), and the
host bus addresses of the block are the 128 KiB from BLOCK_BASE, offset by offset (R60, R72). That the parameters
stand in State, and that IMPL_VARIANT shows only in the count-down, is the model's choice (logs 2, 5). -/
def Obligations.ParametersNeverChange : Prop :=
  (∀ s t : State, step s = .next t → t.params = s.params) ∧
  (∀ (s : State) (base : Nat) (variant : ImplVariant),
    (∀ t, step s = .next t →
      ∃ wait, step (State.rebuilt base variant s) = .next { State.rebuilt base variant t with wait := wait }) ∧
    (∀ r, step s = .fault r → step (State.rebuilt base variant s) = .fault r) ∧
    (∀ r, step s = .refused r → step (State.rebuilt base variant s) = .refused r)) ∧
  (∀ (p : Params) (addr : Nat) (off : BitVec 17), busOffset p addr = some off ↔ busAddress p off = addr)

/-- The invariant holds right after reset. It says nothing of the free LATENCY there. -/
def Obligations.InvariantHoldsAfterReset : Prop := State.Inv State.reset

/-- Every step keeps the invariant: R27 for every instance, MEM canonical and within MEM_SIZE, counters within LIMIT,
the error record coherent, a command in flight decodes and passes its checks, the self-test leaves everything at
reset, and an unkeyed HMAC processor is zero. -/
def Obligations.InvariantKeptByEveryStep : Prop :=
  ∀ s t : State, State.Inv s → step s = .next t → State.Inv t

/-! ## BIP32 data (42_hmac_sha512.md §3) -/

/-- R180, R181 and R182: the two child messages are 37 bytes, chosen by the index's top bit and ending in BE_32 of the
index, and the output splits into IL and IR. -/
def Obligations.Bip32Layouts : Prop :=
  ∀ (pub priv d : List Byte) (i : BitVec 32), pub.length = 33 → priv.length = 32 → d.length = 64 →
    (childMessage pub priv i).length = 37 ∧ beVal ((childMessage pub priv i).drop 33) = i.toNat ∧
    (i.getLsbD 31 = false → (childMessage pub priv i).take 33 = pub) ∧
    (i.getLsbD 31 = true → (childMessage pub priv i).take 33 = 0x00 :: priv) ∧
    (leftHalf d).length = 32 ∧ (rightHalf d).length = 32 ∧ leftHalf d ++ rightHalf d = d
end

