-- ==== Sys2Proof/Laws/Decode.lean ====
section
/-!
SUPPORT. The fields of a packed word, and what decoding a word says of it.
-/
namespace Sys2Proof

@[simp] theorem opcField_pack (o : BitVec 8) (s d : BitVec 16) (l : BitVec 24) : opcField (pack o s d l) = o := by
  apply BitVec.eq_of_getLsbD_eq
  intro i hi
  simp only [opcField, pack, BitVec.getLsbD_extractLsb', BitVec.getLsbD_append]
  simp [hi, show ¬ 56 + i < 24 by omega, show ¬ 56 + i - 24 < 16 by omega, show ¬ 56 + i - 24 - 16 < 16 by omega,
    show 56 + i - 24 - 16 - 16 = i by omega]

@[simp] theorem srcField_pack (o : BitVec 8) (s d : BitVec 16) (l : BitVec 24) : srcField (pack o s d l) = s := by
  apply BitVec.eq_of_getLsbD_eq
  intro i hi
  simp only [srcField, pack, BitVec.getLsbD_extractLsb', BitVec.getLsbD_append]
  simp [hi, show ¬ 40 + i < 24 by omega, show ¬ 40 + i - 24 < 16 by omega,
    show 40 + i - 24 - 16 = i by omega]

@[simp] theorem dstField_pack (o : BitVec 8) (s d : BitVec 16) (l : BitVec 24) : dstField (pack o s d l) = d := by
  apply BitVec.eq_of_getLsbD_eq
  intro i hi
  simp only [dstField, pack, BitVec.getLsbD_extractLsb', BitVec.getLsbD_append]
  simp [hi, show ¬ 24 + i < 24 by omega, show 24 + i - 24 = i by omega]

@[simp] theorem lenField_pack (o : BitVec 8) (s d : BitVec 16) (l : BitVec 24) : lenField (pack o s d l) = l := by
  apply BitVec.eq_of_getLsbD_eq
  intro i hi
  simp only [lenField, pack, BitVec.getLsbD_extractLsb', BitVec.getLsbD_append]
  simp [hi]

/-- A word is the packing of its fields (30_encoding.md R86). -/
theorem pack_fields (w : Command) : pack (opcField w) (srcField w) (dstField w) (lenField w) = w := by
  apply BitVec.eq_of_getLsbD_eq
  intro i hi
  simp only [opcField, srcField, dstField, lenField, pack, BitVec.getLsbD_extractLsb', BitVec.getLsbD_append]
  by_cases h1 : i < 24
  · simp [h1]
  · by_cases h2 : i - 24 < 16
    · simp [h1, h2, show 24 + (i - 24) = i by omega]
    · by_cases h3 : i - 24 - 16 < 16
      · simp [h1, h2, h3, show 40 + (i - 24 - 16) = i by omega]
      · have h4 : i - 24 - 16 - 16 < 8 := by omega
        simp [h1, h2, h3, h4, show 56 + (i - 24 - 16 - 16) = i by omega]

end Sys2Proof
end

