-- ==== Sys2Proof/Laws/Memory.lean ====
section
/-!
SUPPORT. The laws of MEM: a read after a write, and that every memory operation keeps the canonical form.
-/
namespace Sys2Proof.Machine

theorem Memory.read_write_same (m : Memory) (a : Nat) (b : Byte) :
    Memory.read (Memory.write m a b) a = some b := by
  induction m with
  | nil => simp [Memory.write, Memory.read]
  | cons cell rest ih =>
    obtain ⟨k, v⟩ := cell
    simp only [Memory.write]
    split
    · simp [Memory.read]
    · split
      · simp [Memory.read]
      · have : k ≠ a := by omega
        simp [Memory.read, this, ih]

theorem Memory.read_write_other (m : Memory) (a x : Nat) (b : Byte) (h : x ≠ a) :
    Memory.read (Memory.write m a b) x = Memory.read m x := by
  induction m with
  | nil => simp [Memory.write, Memory.read, Ne.symm h]
  | cons cell rest ih =>
    obtain ⟨k, v⟩ := cell
    simp only [Memory.write]
    split
    · simp [Memory.read, Ne.symm h]
    · split
      · next hk => subst hk; simp [Memory.read, Ne.symm h]
      · simp [Memory.read, ih]

/-- The addresses of a written memory are the old ones and the written one. -/
theorem Memory.mem_write (m : Memory) (a : Nat) (b : Byte) (cell : Host.Cell)
    (h : cell ∈ Memory.write m a b) : cell = (a, b) ∨ cell ∈ m := by
  induction m with
  | nil => simpa [Memory.write] using h
  | cons c rest ih =>
    obtain ⟨k, v⟩ := c
    simp only [Memory.write] at h
    split at h
    · simpa using h
    · split at h
      · rcases List.mem_cons.1 h with h | h
        · exact .inl h
        · exact .inr (List.mem_cons_of_mem _ h)
      · rcases List.mem_cons.1 h with h | h
        · exact .inr (by simp [h])
        · rcases ih h with h | h
          · exact .inl h
          · exact .inr (List.mem_cons_of_mem _ h)

theorem Memory.wf_write (m : Memory) (a : Nat) (b : Byte) (h : Memory.wf m) : Memory.wf (Memory.write m a b) := by
  induction m with
  | nil => simp [Memory.write, Memory.wf]
  | cons c rest ih =>
    obtain ⟨k, v⟩ := c
    obtain ⟨hk, hrest⟩ := List.pairwise_cons.1 h
    simp only [Memory.write]
    split
    · next hlt =>
      refine List.pairwise_cons.2 ⟨fun c hc => ?_, h⟩
      rcases List.mem_cons.1 hc with hc | hc
      · simpa [hc] using hlt
      · exact Nat.lt_trans hlt (hk c hc)
    · split
      · next heq => subst heq; exact List.pairwise_cons.2 ⟨hk, hrest⟩
      · refine List.pairwise_cons.2 ⟨fun c hc => ?_, ih hrest⟩
        rcases Memory.mem_write rest a b c hc with hc | hc
        · subst hc; show k < a; omega
        · exact hk c hc

theorem Memory.wf_writeBytes (s : List Byte) : ∀ (m : Memory) (a : Nat), Memory.wf m →
    Memory.wf (Memory.writeBytes m a s) := by
  induction s with
  | nil => exact fun _ _ h => h
  | cons b s ih => exact fun m a h => ih _ _ (Memory.wf_write m a b h)

theorem Memory.mem_writeBytes (s : List Byte) : ∀ (m : Memory) (a : Nat) (cell : Host.Cell),
    cell ∈ Memory.writeBytes m a s → (a ≤ cell.1 ∧ cell.1 < a + s.length) ∨ cell ∈ m := by
  induction s with
  | nil => exact fun _ _ _ h => .inr h
  | cons b s ih =>
    intro m a cell h
    rcases ih _ _ cell h with h | h
    · exact .inl (by simp only [List.length_cons]; omega)
    · rcases Memory.mem_write m a b cell h with h | h
      · exact .inl (by subst h; simp)
      · exact .inr h

theorem Memory.read_writeBytes_outside (s : List Byte) : ∀ (m : Memory) (a x : Nat),
    x < a ∨ a + s.length ≤ x → Memory.read (Memory.writeBytes m a s) x = Memory.read m x := by
  induction s with
  | nil => exact fun _ _ _ _ => rfl
  | cons b s ih =>
    intro m a x h
    simp only [List.length_cons] at h
    rw [Memory.writeBytes, ih _ _ _ (by omega), Memory.read_write_other _ _ _ _ (by omega)]

/-- A span just written reads back as what was written. -/
theorem Memory.readBytes_writeBytes (s : List Byte) : ∀ (m : Memory) (a : Nat),
    Memory.readBytes (Memory.writeBytes m a s) a s.length = some s := by
  induction s with
  | nil => exact fun _ _ => rfl
  | cons b s ih =>
    intro m a
    rw [List.length_cons, Memory.readBytes, Memory.writeBytes,
      Memory.read_writeBytes_outside s _ _ _ (.inl (Nat.lt_succ_self a)), Memory.read_write_same]
    simp [ih]

/-- What reading a span says of its bytes. -/
theorem Memory.readBytes_eq_some (m : Memory) : ∀ (n a : Nat) (s : List Byte),
    Memory.readBytes m a n = some s ↔
      s.length = n ∧ ∀ i, i < n → Memory.read m (a + i) = some (s.getD i 0) := by
  intro n
  induction n with
  | zero => intro a s; cases s <;> simp [Memory.readBytes]
  | succ n ih =>
    intro a s
    cases s with
    | nil => simp [Memory.readBytes]; split <;> simp
    | cons b s =>
      rw [Memory.readBytes]
      constructor
      · intro h
        split at h
        · simp at h
        · next b' hb =>
          simp only [Option.map_eq_some_iff, List.cons.injEq] at h
          obtain ⟨s', hs', rfl, rfl⟩ := h
          obtain ⟨hl, hr⟩ := (ih _ _).1 hs'
          refine ⟨by simp [hl], fun i hi => ?_⟩
          cases i with
          | zero => simpa using hb
          | succ i => simpa [Nat.add_assoc, Nat.add_comm 1] using hr i (by omega)
      · rintro ⟨hl, hr⟩
        have h0 := hr 0 (by omega)
        simp only [Nat.add_zero, List.getD_cons_zero] at h0
        simp only [h0]
        have : Memory.readBytes m (a + 1) n = some s := (ih _ _).2 ⟨by simpa using hl, fun i hi => by
          have := hr (i + 1) (by omega)
          simpa [Nat.add_assoc, Nat.add_comm 1] using this⟩
        simp [this]

theorem Memory.readBytes_length (m : Memory) (a n : Nat) (s : List Byte) (h : Memory.readBytes m a n = some s) :
    s.length = n := ((Memory.readBytes_eq_some m n a s).1 h).1

/-- Reading a span depends on its bytes alone. -/
theorem Memory.readBytes_congr (m m' : Memory) (n : Nat) : ∀ a,
    (∀ x, a ≤ x → x < a + n → Memory.read m x = Memory.read m' x) →
    Memory.readBytes m a n = Memory.readBytes m' a n := by
  induction n with
  | zero => exact fun _ _ => rfl
  | succ n ih =>
    intro a h
    rw [Memory.readBytes, Memory.readBytes, h a (Nat.le_refl _) (by omega),
      ih (a + 1) fun x h1 h2 => h x (by omega) (by omega)]

theorem Memory.wf_scramble (m : Memory) (a n d : Nat) (h : Memory.wf m) : Memory.wf (Memory.scramble m a n d) := by
  unfold Memory.scramble Memory.wf
  rw [List.pairwise_map]
  refine List.Pairwise.imp ?_ h
  intro x y hxy
  split <;> split <;> simpa using hxy

theorem Memory.mem_scramble (m : Memory) (a n d : Nat) (cell : Host.Cell) (h : cell ∈ Memory.scramble m a n d) :
    ∃ old ∈ m, cell.1 = old.1 := by
  obtain ⟨old, hold, rfl⟩ := List.mem_map.1 h
  exact ⟨old, hold, by split <;> rfl⟩

/-- Scrambling a span leaves every other byte alone. -/
theorem Memory.read_scramble_outside (m : Memory) (a n d x : Nat) (h : x < a ∨ a + n ≤ x) :
    Memory.read (Memory.scramble m a n d) x = Memory.read m x := by
  induction m with
  | nil => rfl
  | cons c rest ih =>
    obtain ⟨k, v⟩ := c
    simp only [Memory.scramble, List.map_cons] at ih ⊢
    split
    · next hk =>
      have : k ≠ x := by omega
      simp [Memory.read, this, ih]
    · simp [Memory.read, ih]

/-- Scrambling makes no byte written or unwritten. -/
theorem Memory.isSome_read_scramble (m : Memory) (a n d x : Nat) :
    (Memory.read (Memory.scramble m a n d) x).isSome = (Memory.read m x).isSome := by
  induction m with
  | nil => rfl
  | cons c rest ih =>
    obtain ⟨k, v⟩ := c
    rw [Memory.scramble, List.map_cons, ← Memory.scramble]
    by_cases hk : k = x <;> split <;> simp [Memory.read, hk, ih]

theorem Memory.wf_writeLane (data : Word32) (wstrb : BitVec 4) (a j : Nat) (m : Memory) (h : Memory.wf m) :
    Memory.wf (writeLane data wstrb a j m) := by
  unfold writeLane
  split
  · exact Memory.wf_write _ _ _ h
  · exact h

/-- A byte lane write: the lane's byte if strobed, every other byte as before. -/
theorem Memory.read_writeLane (data : Word32) (wstrb : BitVec 4) (a j x : Nat) (m : Memory) :
    Memory.read (writeLane data wstrb a j m) x =
      if x = a + j ∧ wstrb.getLsbD j = true then some (data.extractLsb' (8 * j) 8) else Memory.read m x := by
  unfold writeLane
  by_cases hw : wstrb.getLsbD j = true
  · by_cases hx : x = a + j
    · subst hx; simp [hw, Memory.read_write_same]
    · simp [hw, hx, Memory.read_write_other]
  · simp [hw]

/-- Memory after reset is in canonical form. -/
theorem Memory.wf_reset : Memory.wf State.reset.mem := List.Pairwise.nil

end Sys2Proof.Machine
end

