-- ==== Sys2Proof/Laws/Transform.lean ====
section
/-!
SUPPORT. Lengths of the byte strings the transforms use, and how Compress* splits over its blocks.
-/
namespace Sys2Proof.Machine

@[simp] theorem sha256_blockBytes : sha256.blockBytes = 64 := rfl
@[simp] theorem sha512_blockBytes : sha512.blockBytes = 128 := rfl
@[simp] theorem sha256_lenBytes : sha256.lenBytes = 8 := rfl
@[simp] theorem sha512_lenBytes : sha512.lenBytes = 16 := rfl
@[simp] theorem sha256_iv : sha256.iv = iv256 := rfl
@[simp] theorem sha512_iv : sha512.iv = iv512 := rfl
@[simp] theorem sha256_rounds : sha256.k.length = 64 := rfl
@[simp] theorem sha512_rounds : sha512.k.length = 80 := rfl

@[simp] theorem beBytes_length {w : Nat} (n : Nat) (x : BitVec w) : (beBytes n x).length = n := by
  simp [beBytes]

@[simp] theorem Words8.toList_length {w : Nat} (x : Words8 w) : x.toList.length = 8 := rfl

@[simp] theorem chainBytes_length {w : Nat} (H : Words8 w) : (chainBytes H).length = 8 * (w / 8) := by
  simp only [chainBytes, Words8.toList, List.flatMap_cons, List.flatMap_nil, List.length_append, beBytes_length,
    List.length_nil]
  omega

/-- The padding fills the last block (40_sha256.md R118). -/
theorem pad_length_256 (c : Nat) : (c + (pad sha256 c).length) % 64 = 0 := by
  simp [pad]; omega

/-- The padding fills the last block (41_sha512.md R152). -/
theorem pad_length_512 (c : Nat) : (c + (pad sha512 c).length) % 128 = 0 := by
  simp [pad]; omega

/-- Compress* over `n` blocks looks at the first `n` blocks alone. -/
theorem compressBlocks_append {w : Nat} (A : Algo w) (y : List Byte) : ∀ (n : Nat) (H : Words8 w) (x : List Byte),
    A.blockBytes * n ≤ x.length → compressBlocks A n H (x ++ y) = compressBlocks A n H x := by
  intro n
  induction n with
  | zero => exact fun _ _ _ => rfl
  | succ n ih =>
    intro H x hx
    rw [Nat.mul_succ] at hx
    have h1 : A.blockBytes ≤ x.length := by omega
    rw [compressBlocks, compressBlocks, List.take_append_of_le_length h1, List.drop_append_of_le_length h1]
    exact ih _ _ (by rw [List.length_drop]; omega)

/-- Compress* over `a + b` blocks is Compress* over `a`, then over the next `b`. -/
theorem compressBlocks_add {w : Nat} (A : Algo w) (b : Nat) : ∀ (a : Nat) (H : Words8 w) (x : List Byte),
    compressBlocks A (a + b) H x = compressBlocks A b (compressBlocks A a H x) (x.drop (A.blockBytes * a)) := by
  intro a
  induction a with
  | zero => intro H x; simp [compressBlocks]
  | succ a ih =>
    intro H x
    rw [Nat.succ_add, compressBlocks, ih, compressBlocks, List.drop_drop, Nat.mul_succ, Nat.add_comm A.blockBytes]

end Sys2Proof.Machine
end

