-- ==== Sys2Proof/Laws/Ops.lean ====
section
/-!
SUPPORT. For each shared operation of Machine/Ops.lean, everything it can do, said once.
-/
namespace Sys2Proof.Machine

/-! ## Guarded commands -/

/-- A guarded command answers a next state in two ways: the error of its checks, or its effects. -/
theorem guarded_eq_next {found : Option ErrCode} {w : Command} {s t : State}
    {effects : Host.Outcome State Fault Refusal} (h : guarded found w s effects = .next t) :
    (∃ code, found = some code ∧ t = raiseError code w s) ∨ (found = none ∧ effects = .next t) := by
  cases found with
  | none => exact .inr ⟨rfl, h⟩
  | some code => exact .inl ⟨code, rfl, by cases h; rfl⟩

theorem guarded_none (w : Command) (s : State) (effects : Host.Outcome State Fault Refusal) :
    guarded none w s effects = effects := rfl

theorem guarded_some (code : ErrCode) (w : Command) (s : State) (effects : Host.Outcome State Fault Refusal) :
    guarded (some code) w s effects = .next (raiseError code w s) := rfl

/-- A command that reads MEM answers a next state only if every byte it reads was written. -/
theorem withBytes_eq_next {s t : State} {a n : Nat} {effects : List Byte → Host.Outcome State Fault Refusal}
    (h : withBytes s a n effects = .next t) :
    ∃ bytes, Memory.readBytes s.mem a n = some bytes ∧ effects bytes = .next t := by
  unfold withBytes at h
  split at h
  · cases h
  · next bytes hb => exact ⟨bytes, hb, h⟩

theorem withBytes_some {s : State} {a n : Nat} {bytes : List Byte}
    (effects : List Byte → Host.Outcome State Fault Refusal) (h : Memory.readBytes s.mem a n = some bytes) :
    withBytes s a n effects = effects bytes := by simp [withBytes, h]

theorem withBytes_none {s : State} {a n : Nat} (effects : List Byte → Host.Outcome State Fault Refusal)
    (h : Memory.readBytes s.mem a n = none) : withBytes s a n effects = .fault (.readUnwritten a n) := by
  simp [withBytes, h]

/-- The first error of a list: none of its conditions holds, or one does. -/
theorem firstError_eq_none (l : List (Bool × ErrCode)) : firstError l = none ↔ ∀ c ∈ l, c.1 = false := by
  induction l with
  | nil => simp [firstError]
  | cons c rest ih =>
    obtain ⟨b, e⟩ := c
    cases b <;> simp [firstError, ih]

theorem outOfRange_eq_false (s : State) (a n : Nat) : outOfRange s a n = false ↔ inRange s a n := by
  simp only [outOfRange, inRange, decide_eq_false_iff_not]
  omega

/-! ## The fields of the hash instances the operations leave -/

@[simp] theorem initial_h {w : Nat} (h : Words8 w) : (HashInst.initial h).h = h := rfl
@[simp] theorem initial_cnt {w : Nat} (h : Words8 w) : (HashInst.initial h).cnt = 0 := rfl
@[simp] theorem initial_buf {w : Nat} (h : Words8 w) : (HashInst.initial h).buf = [] := rfl
@[simp] theorem initial_fin {w : Nat} (h : Words8 w) : (HashInst.initial h).fin = false := rfl
@[simp] theorem transformInst_h {w : Nat} (A : Algo w) (I : HashInst w) (n : Nat) (s : List Byte) :
    (transformInst A I n s).h = compressBlocks A n I.h s := rfl
@[simp] theorem transformInst_cnt {w : Nat} (A : Algo w) (I : HashInst w) (n : Nat) (s : List Byte) :
    (transformInst A I n s).cnt = I.cnt := rfl
@[simp] theorem transformInst_buf {w : Nat} (A : Algo w) (I : HashInst w) (n : Nat) (s : List Byte) :
    (transformInst A I n s).buf = I.buf := rfl
@[simp] theorem transformInst_fin {w : Nat} (A : Algo w) (I : HashInst w) (n : Nat) (s : List Byte) :
    (transformInst A I n s).fin = I.fin := rfl
@[simp] theorem loadInst_h {w : Nat} (A : Algo w) (n : Nat) (s : List Byte) :
    (loadInst A n s).h = chainOfBytes w s := rfl
@[simp] theorem loadInst_cnt {w : Nat} (A : Algo w) (n : Nat) (s : List Byte) :
    (loadInst A n s).cnt = BitVec.ofNat 64 (A.blockBytes * n) := rfl
@[simp] theorem loadInst_buf {w : Nat} (A : Algo w) (n : Nat) (s : List Byte) : (loadInst A n s).buf = [] := rfl
@[simp] theorem loadInst_fin {w : Nat} (A : Algo w) (n : Nat) (s : List Byte) : (loadInst A n s).fin = false := rfl
@[simp] theorem finalizeInst_h {w : Nat} (A : Algo w) (I : HashInst w) :
    (finalizeInst A I).h = (absorb A I (pad A I.cnt.toNat)).h := rfl
@[simp] theorem finalizeInst_cnt {w : Nat} (A : Algo w) (I : HashInst w) :
    (finalizeInst A I).cnt = (absorb A I (pad A I.cnt.toNat)).cnt := rfl
@[simp] theorem finalizeInst_buf {w : Nat} (A : Algo w) (I : HashInst w) :
    (finalizeInst A I).buf = (absorb A I (pad A I.cnt.toNat)).buf := rfl
@[simp] theorem finalizeInst_fin {w : Nat} (A : Algo w) (I : HashInst w) : (finalizeInst A I).fin = true := rfl

/-! ## Absorbing -/

theorem absorb_fin {w : Nat} (A : Algo w) (I : HashInst w) (m : List Byte) : (absorb A I m).fin = I.fin := rfl

theorem absorb_cnt {w : Nat} (A : Algo w) (I : HashInst w) (m : List Byte) :
    (absorb A I m).cnt = I.cnt + BitVec.ofNat 64 m.length := rfl

/-- While the counter does not wrap, it counts the absorbed bytes (40_sha256.md R119). -/
theorem absorb_cnt_toNat {w : Nat} (A : Algo w) (I : HashInst w) (m : List Byte)
    (h : I.cnt.toNat + m.length < 2 ^ 64) : (absorb A I m).cnt.toNat = I.cnt.toNat + m.length := by
  rw [absorb_cnt, BitVec.toNat_add, BitVec.toNat_ofNat]
  omega

/-- The buffer keeps what is left of the last block. -/
theorem absorb_buf_length {w : Nat} (A : Algo w) (I : HashInst w) (m : List Byte) :
    (absorb A I m).buf.length = (I.buf.length + m.length) % A.blockBytes := by
  simp only [absorb, List.length_drop, List.length_append]
  have := Nat.div_add_mod (I.buf.length + m.length) A.blockBytes
  omega

/-- Absorbing keeps 10_state.md R27, for a block size that divides 2^64. -/
theorem absorb_bufferOk {w : Nat} (A : Algo w) (I : HashInst w) (m : List Byte) (hd : A.blockBytes ∣ 2 ^ 64)
    (h : HashInst.bufferOk A.blockBytes I = true) : HashInst.bufferOk A.blockBytes (absorb A I m) = true := by
  simp only [HashInst.bufferOk, beq_iff_eq] at h ⊢
  rw [absorb_buf_length, absorb_cnt, BitVec.toNat_add, BitVec.toNat_ofNat, Nat.mod_mod_of_dvd _ hd, h,
    Nat.mod_add_mod, Nat.add_mod I.cnt.toNat (m.length % 2 ^ 64), Nat.mod_mod_of_dvd _ hd, ← Nat.add_mod]

/-- The Initialize state keeps 10_state.md R27. -/
theorem initial_bufferOk {w : Nat} (bs : Nat) (h : Words8 w) : HashInst.bufferOk bs (HashInst.initial h) = true := by
  simp [HashInst.bufferOk, HashInst.initial]

end Sys2Proof.Machine
end

