-- ==== Sys2Proof/Laws/State.lean ====
section
/-!
SUPPORT. One lemma per field per named update of the state, so that no proof unfolds a record update.
-/
namespace Sys2Proof.Machine

/-! ## complete -/

@[simp] theorem complete_params (s : State) : (complete s).params = s.params := rfl
@[simp] theorem complete_s256 (s : State) : (complete s).s256 = s.s256 := rfl
@[simp] theorem complete_s512 (s : State) : (complete s).s512 = s.s512 := rfl
@[simp] theorem complete_hi (s : State) : (complete s).hi = s.hi := rfl
@[simp] theorem complete_ho (s : State) : (complete s).ho = s.ho := rfl
@[simp] theorem complete_hkeyed (s : State) : (complete s).hkeyed = s.hkeyed := rfl
@[simp] theorem complete_hfin (s : State) : (complete s).hfin = s.hfin := rfl
@[simp] theorem complete_mem (s : State) : (complete s).mem = s.mem := rfl
@[simp] theorem complete_busy (s : State) : (complete s).busy = false := rfl
@[simp] theorem complete_done (s : State) : (complete s).done = true := rfl
@[simp] theorem complete_err (s : State) : (complete s).err = s.err := rfl
@[simp] theorem complete_errLost (s : State) : (complete s).errLost = s.errLost := rfl
@[simp] theorem complete_fatal (s : State) : (complete s).fatal = s.fatal := rfl
@[simp] theorem complete_errCode (s : State) : (complete s).errCode = s.errCode := rfl
@[simp] theorem complete_errCmd (s : State) : (complete s).errCmd = s.errCmd := rfl
@[simp] theorem complete_ieDone (s : State) : (complete s).ieDone = s.ieDone := rfl
@[simp] theorem complete_ieErr (s : State) : (complete s).ieErr = s.ieErr := rfl
@[simp] theorem complete_cmdLo (s : State) : (complete s).cmdLo = s.cmdLo := rfl
@[simp] theorem complete_cmdHi (s : State) : (complete s).cmdHi = s.cmdHi := rfl
@[simp] theorem complete_inflight (s : State) : (complete s).inflight = none := rfl
@[simp] theorem complete_host (s : State) : (complete s).host = s.host := rfl
@[simp] theorem complete_reads (s : State) : (complete s).reads = s.reads := rfl
@[simp] theorem complete_wait (s : State) : (complete s).wait = s.wait := rfl
@[simp] theorem complete_draws (s : State) : (complete s).draws = s.draws := rfl

/-! ## raiseError -/

@[simp] theorem raiseError_params (c : ErrCode) (w : Command) (s : State) : (raiseError c w s).params = s.params := rfl
@[simp] theorem raiseError_s256 (c : ErrCode) (w : Command) (s : State) : (raiseError c w s).s256 = s.s256 := rfl
@[simp] theorem raiseError_s512 (c : ErrCode) (w : Command) (s : State) : (raiseError c w s).s512 = s.s512 := rfl
@[simp] theorem raiseError_hi (c : ErrCode) (w : Command) (s : State) : (raiseError c w s).hi = s.hi := rfl
@[simp] theorem raiseError_ho (c : ErrCode) (w : Command) (s : State) : (raiseError c w s).ho = s.ho := rfl
@[simp] theorem raiseError_hkeyed (c : ErrCode) (w : Command) (s : State) : (raiseError c w s).hkeyed = s.hkeyed := rfl
@[simp] theorem raiseError_hfin (c : ErrCode) (w : Command) (s : State) : (raiseError c w s).hfin = s.hfin := rfl
@[simp] theorem raiseError_mem (c : ErrCode) (w : Command) (s : State) : (raiseError c w s).mem = s.mem := rfl
@[simp] theorem raiseError_busy (c : ErrCode) (w : Command) (s : State) : (raiseError c w s).busy = s.busy := rfl
@[simp] theorem raiseError_done (c : ErrCode) (w : Command) (s : State) : (raiseError c w s).done = s.done := rfl
@[simp] theorem raiseError_err (c : ErrCode) (w : Command) (s : State) : (raiseError c w s).err = true := rfl
@[simp] theorem raiseError_errLost (c : ErrCode) (w : Command) (s : State) : (raiseError c w s).errLost = s.errLost := rfl
@[simp] theorem raiseError_fatal (c : ErrCode) (w : Command) (s : State) : (raiseError c w s).fatal = s.fatal := rfl
@[simp] theorem raiseError_errCode (c : ErrCode) (w : Command) (s : State) : (raiseError c w s).errCode = c := rfl
@[simp] theorem raiseError_errCmd (c : ErrCode) (w : Command) (s : State) : (raiseError c w s).errCmd = w := rfl
@[simp] theorem raiseError_ieDone (c : ErrCode) (w : Command) (s : State) : (raiseError c w s).ieDone = s.ieDone := rfl
@[simp] theorem raiseError_ieErr (c : ErrCode) (w : Command) (s : State) : (raiseError c w s).ieErr = s.ieErr := rfl
@[simp] theorem raiseError_cmdLo (c : ErrCode) (w : Command) (s : State) : (raiseError c w s).cmdLo = s.cmdLo := rfl
@[simp] theorem raiseError_cmdHi (c : ErrCode) (w : Command) (s : State) : (raiseError c w s).cmdHi = s.cmdHi := rfl
@[simp] theorem raiseError_inflight (c : ErrCode) (w : Command) (s : State) : (raiseError c w s).inflight = s.inflight := rfl
@[simp] theorem raiseError_host (c : ErrCode) (w : Command) (s : State) : (raiseError c w s).host = s.host := rfl
@[simp] theorem raiseError_reads (c : ErrCode) (w : Command) (s : State) : (raiseError c w s).reads = s.reads := rfl
@[simp] theorem raiseError_wait (c : ErrCode) (w : Command) (s : State) : (raiseError c w s).wait = s.wait := rfl
@[simp] theorem raiseError_draws (c : ErrCode) (w : Command) (s : State) : (raiseError c w s).draws = s.draws := rfl

/-! ## discard -/

@[simp] theorem discard_params (s : State) : (discard s).params = s.params := rfl
@[simp] theorem discard_s256 (s : State) : (discard s).s256 = s.s256 := rfl
@[simp] theorem discard_s512 (s : State) : (discard s).s512 = s.s512 := rfl
@[simp] theorem discard_hi (s : State) : (discard s).hi = s.hi := rfl
@[simp] theorem discard_ho (s : State) : (discard s).ho = s.ho := rfl
@[simp] theorem discard_hkeyed (s : State) : (discard s).hkeyed = s.hkeyed := rfl
@[simp] theorem discard_hfin (s : State) : (discard s).hfin = s.hfin := rfl
@[simp] theorem discard_mem (s : State) : (discard s).mem = s.mem := rfl
@[simp] theorem discard_busy (s : State) : (discard s).busy = s.busy := rfl
@[simp] theorem discard_done (s : State) : (discard s).done = s.done := rfl
@[simp] theorem discard_err (s : State) : (discard s).err = s.err := rfl
@[simp] theorem discard_errLost (s : State) : (discard s).errLost = true := rfl
@[simp] theorem discard_fatal (s : State) : (discard s).fatal = s.fatal := rfl
@[simp] theorem discard_errCode (s : State) : (discard s).errCode = s.errCode := rfl
@[simp] theorem discard_errCmd (s : State) : (discard s).errCmd = s.errCmd := rfl
@[simp] theorem discard_ieDone (s : State) : (discard s).ieDone = s.ieDone := rfl
@[simp] theorem discard_ieErr (s : State) : (discard s).ieErr = s.ieErr := rfl
@[simp] theorem discard_cmdLo (s : State) : (discard s).cmdLo = s.cmdLo := rfl
@[simp] theorem discard_cmdHi (s : State) : (discard s).cmdHi = s.cmdHi := rfl
@[simp] theorem discard_inflight (s : State) : (discard s).inflight = s.inflight := rfl
@[simp] theorem discard_host (s : State) : (discard s).host = s.host := rfl
@[simp] theorem discard_reads (s : State) : (discard s).reads = s.reads := rfl
@[simp] theorem discard_wait (s : State) : (discard s).wait = s.wait := rfl
@[simp] theorem discard_draws (s : State) : (discard s).draws = s.draws := rfl

/-! ## clearDone -/

@[simp] theorem clearDone_params (s : State) : (clearDone s).params = s.params := rfl
@[simp] theorem clearDone_s256 (s : State) : (clearDone s).s256 = s.s256 := rfl
@[simp] theorem clearDone_s512 (s : State) : (clearDone s).s512 = s.s512 := rfl
@[simp] theorem clearDone_hi (s : State) : (clearDone s).hi = s.hi := rfl
@[simp] theorem clearDone_ho (s : State) : (clearDone s).ho = s.ho := rfl
@[simp] theorem clearDone_hkeyed (s : State) : (clearDone s).hkeyed = s.hkeyed := rfl
@[simp] theorem clearDone_hfin (s : State) : (clearDone s).hfin = s.hfin := rfl
@[simp] theorem clearDone_mem (s : State) : (clearDone s).mem = s.mem := rfl
@[simp] theorem clearDone_busy (s : State) : (clearDone s).busy = s.busy := rfl
@[simp] theorem clearDone_done (s : State) : (clearDone s).done = false := rfl
@[simp] theorem clearDone_err (s : State) : (clearDone s).err = s.err := rfl
@[simp] theorem clearDone_errLost (s : State) : (clearDone s).errLost = s.errLost := rfl
@[simp] theorem clearDone_fatal (s : State) : (clearDone s).fatal = s.fatal := rfl
@[simp] theorem clearDone_errCode (s : State) : (clearDone s).errCode = s.errCode := rfl
@[simp] theorem clearDone_errCmd (s : State) : (clearDone s).errCmd = s.errCmd := rfl
@[simp] theorem clearDone_ieDone (s : State) : (clearDone s).ieDone = s.ieDone := rfl
@[simp] theorem clearDone_ieErr (s : State) : (clearDone s).ieErr = s.ieErr := rfl
@[simp] theorem clearDone_cmdLo (s : State) : (clearDone s).cmdLo = s.cmdLo := rfl
@[simp] theorem clearDone_cmdHi (s : State) : (clearDone s).cmdHi = s.cmdHi := rfl
@[simp] theorem clearDone_inflight (s : State) : (clearDone s).inflight = s.inflight := rfl
@[simp] theorem clearDone_host (s : State) : (clearDone s).host = s.host := rfl
@[simp] theorem clearDone_reads (s : State) : (clearDone s).reads = s.reads := rfl
@[simp] theorem clearDone_wait (s : State) : (clearDone s).wait = s.wait := rfl
@[simp] theorem clearDone_draws (s : State) : (clearDone s).draws = s.draws := rfl

/-! ## accept -/

@[simp] theorem accept_params (w : Command) (s : State) : (accept w s).params = s.params := rfl
@[simp] theorem accept_s256 (w : Command) (s : State) : (accept w s).s256 = s.s256 := rfl
@[simp] theorem accept_s512 (w : Command) (s : State) : (accept w s).s512 = s.s512 := rfl
@[simp] theorem accept_hi (w : Command) (s : State) : (accept w s).hi = s.hi := rfl
@[simp] theorem accept_ho (w : Command) (s : State) : (accept w s).ho = s.ho := rfl
@[simp] theorem accept_hkeyed (w : Command) (s : State) : (accept w s).hkeyed = s.hkeyed := rfl
@[simp] theorem accept_hfin (w : Command) (s : State) : (accept w s).hfin = s.hfin := rfl
@[simp] theorem accept_mem (w : Command) (s : State) : (accept w s).mem = s.mem := rfl
@[simp] theorem accept_busy (w : Command) (s : State) : (accept w s).busy = true := rfl
@[simp] theorem accept_done (w : Command) (s : State) : (accept w s).done = s.done := rfl
@[simp] theorem accept_err (w : Command) (s : State) : (accept w s).err = s.err := rfl
@[simp] theorem accept_errLost (w : Command) (s : State) : (accept w s).errLost = s.errLost := rfl
@[simp] theorem accept_fatal (w : Command) (s : State) : (accept w s).fatal = s.fatal := rfl
@[simp] theorem accept_errCode (w : Command) (s : State) : (accept w s).errCode = s.errCode := rfl
@[simp] theorem accept_errCmd (w : Command) (s : State) : (accept w s).errCmd = s.errCmd := rfl
@[simp] theorem accept_ieDone (w : Command) (s : State) : (accept w s).ieDone = s.ieDone := rfl
@[simp] theorem accept_ieErr (w : Command) (s : State) : (accept w s).ieErr = s.ieErr := rfl
@[simp] theorem accept_cmdLo (w : Command) (s : State) : (accept w s).cmdLo = s.cmdLo := rfl
@[simp] theorem accept_cmdHi (w : Command) (s : State) : (accept w s).cmdHi = s.cmdHi := rfl
@[simp] theorem accept_inflight (w : Command) (s : State) : (accept w s).inflight = some w := rfl
@[simp] theorem accept_host (w : Command) (s : State) : (accept w s).host = s.host := rfl
@[simp] theorem accept_reads (w : Command) (s : State) : (accept w s).reads = s.reads := rfl
@[simp] theorem accept_wait (w : Command) (s : State) : (accept w s).wait = Config.latency s.params.implVariant s.draws := rfl
@[simp] theorem accept_draws (w : Command) (s : State) : (accept w s).draws = s.draws + 1 := rfl

/-! ## returnRead -/

@[simp] theorem returnRead_params (v : Word32) (s : State) : (returnRead v s).params = s.params := rfl
@[simp] theorem returnRead_s256 (v : Word32) (s : State) : (returnRead v s).s256 = s.s256 := rfl
@[simp] theorem returnRead_s512 (v : Word32) (s : State) : (returnRead v s).s512 = s.s512 := rfl
@[simp] theorem returnRead_hi (v : Word32) (s : State) : (returnRead v s).hi = s.hi := rfl
@[simp] theorem returnRead_ho (v : Word32) (s : State) : (returnRead v s).ho = s.ho := rfl
@[simp] theorem returnRead_hkeyed (v : Word32) (s : State) : (returnRead v s).hkeyed = s.hkeyed := rfl
@[simp] theorem returnRead_hfin (v : Word32) (s : State) : (returnRead v s).hfin = s.hfin := rfl
@[simp] theorem returnRead_mem (v : Word32) (s : State) : (returnRead v s).mem = s.mem := rfl
@[simp] theorem returnRead_busy (v : Word32) (s : State) : (returnRead v s).busy = s.busy := rfl
@[simp] theorem returnRead_done (v : Word32) (s : State) : (returnRead v s).done = s.done := rfl
@[simp] theorem returnRead_err (v : Word32) (s : State) : (returnRead v s).err = s.err := rfl
@[simp] theorem returnRead_errLost (v : Word32) (s : State) : (returnRead v s).errLost = s.errLost := rfl
@[simp] theorem returnRead_fatal (v : Word32) (s : State) : (returnRead v s).fatal = s.fatal := rfl
@[simp] theorem returnRead_errCode (v : Word32) (s : State) : (returnRead v s).errCode = s.errCode := rfl
@[simp] theorem returnRead_errCmd (v : Word32) (s : State) : (returnRead v s).errCmd = s.errCmd := rfl
@[simp] theorem returnRead_ieDone (v : Word32) (s : State) : (returnRead v s).ieDone = s.ieDone := rfl
@[simp] theorem returnRead_ieErr (v : Word32) (s : State) : (returnRead v s).ieErr = s.ieErr := rfl
@[simp] theorem returnRead_cmdLo (v : Word32) (s : State) : (returnRead v s).cmdLo = s.cmdLo := rfl
@[simp] theorem returnRead_cmdHi (v : Word32) (s : State) : (returnRead v s).cmdHi = s.cmdHi := rfl
@[simp] theorem returnRead_inflight (v : Word32) (s : State) : (returnRead v s).inflight = s.inflight := rfl
@[simp] theorem returnRead_host (v : Word32) (s : State) : (returnRead v s).host = s.host := rfl
@[simp] theorem returnRead_reads (v : Word32) (s : State) : (returnRead v s).reads = v :: s.reads := rfl
@[simp] theorem returnRead_wait (v : Word32) (s : State) : (returnRead v s).wait = s.wait := rfl
@[simp] theorem returnRead_draws (v : Word32) (s : State) : (returnRead v s).draws = s.draws := rfl

/-! ## placeCommand -/

@[simp] theorem placeCommand_params (w : Command) (s : State) : (placeCommand w s).params = s.params := rfl
@[simp] theorem placeCommand_s256 (w : Command) (s : State) : (placeCommand w s).s256 = s.s256 := rfl
@[simp] theorem placeCommand_s512 (w : Command) (s : State) : (placeCommand w s).s512 = s.s512 := rfl
@[simp] theorem placeCommand_hi (w : Command) (s : State) : (placeCommand w s).hi = s.hi := rfl
@[simp] theorem placeCommand_ho (w : Command) (s : State) : (placeCommand w s).ho = s.ho := rfl
@[simp] theorem placeCommand_hkeyed (w : Command) (s : State) : (placeCommand w s).hkeyed = s.hkeyed := rfl
@[simp] theorem placeCommand_hfin (w : Command) (s : State) : (placeCommand w s).hfin = s.hfin := rfl
@[simp] theorem placeCommand_mem (w : Command) (s : State) : (placeCommand w s).mem = s.mem := rfl
@[simp] theorem placeCommand_busy (w : Command) (s : State) : (placeCommand w s).busy = true := rfl
@[simp] theorem placeCommand_done (w : Command) (s : State) : (placeCommand w s).done = s.done := rfl
@[simp] theorem placeCommand_err (w : Command) (s : State) : (placeCommand w s).err = s.err := rfl
@[simp] theorem placeCommand_errLost (w : Command) (s : State) : (placeCommand w s).errLost = s.errLost := rfl
@[simp] theorem placeCommand_fatal (w : Command) (s : State) : (placeCommand w s).fatal = s.fatal := rfl
@[simp] theorem placeCommand_errCode (w : Command) (s : State) : (placeCommand w s).errCode = s.errCode := rfl
@[simp] theorem placeCommand_errCmd (w : Command) (s : State) : (placeCommand w s).errCmd = s.errCmd := rfl
@[simp] theorem placeCommand_ieDone (w : Command) (s : State) : (placeCommand w s).ieDone = s.ieDone := rfl
@[simp] theorem placeCommand_ieErr (w : Command) (s : State) : (placeCommand w s).ieErr = s.ieErr := rfl
@[simp] theorem placeCommand_cmdLo (w : Command) (s : State) : (placeCommand w s).cmdLo = s.cmdLo := rfl
@[simp] theorem placeCommand_cmdHi (w : Command) (s : State) : (placeCommand w s).cmdHi = s.cmdHi := rfl
@[simp] theorem placeCommand_inflight (w : Command) (s : State) : (placeCommand w s).inflight = some w := rfl
@[simp] theorem placeCommand_host (w : Command) (s : State) : (placeCommand w s).host = s.host := rfl
@[simp] theorem placeCommand_reads (w : Command) (s : State) : (placeCommand w s).reads = s.reads := rfl
@[simp] theorem placeCommand_wait (w : Command) (s : State) : (placeCommand w s).wait = 0 := rfl
@[simp] theorem placeCommand_draws (w : Command) (s : State) : (placeCommand w s).draws = s.draws := rfl

/-! ## The conditional updates -/

theorem clearError_of_fatal (s : State) (h : s.fatal = true) : clearError s = s := by simp [clearError, h]

theorem clearError_of_not_fatal (s : State) (h : s.fatal = false) :
    clearError s = { s with err := false, errLost := false, errCode := .noError, errCmd := 0 } := by
  simp [clearError, h]

theorem selfTestEnd_of_pass (s : State) (h : s.params.selfTestPass = true) :
    selfTestEnd s = { s with busy := false } := by simp [selfTestEnd, h]

theorem selfTestEnd_of_fail (s : State) (h : s.params.selfTestPass = false) :
    selfTestEnd s =
      { s with busy := false, fatal := true, err := true, errCode := .selftestFail, errCmd := 0 } := by
  simp [selfTestEnd, h]

theorem passTurn_of_idle (s : State) (h : s.busy = false) : passTurn s = s := by simp [passTurn, h]

/-- Passing a turn changes `wait` alone. -/
theorem passTurn_eq (s : State) : ∃ n, passTurn s = { s with wait := n } ∧ n ≤ s.wait := by
  unfold passTurn
  split
  · exact ⟨s.wait - 1, rfl, Nat.sub_le _ _⟩
  · exact ⟨s.wait, rfl, Nat.le_refl _⟩

/-- An abort changes MEM and the draw counter alone. -/
theorem abort_eq (s : State) : ∃ m d, abort s = { s with mem := m, draws := d } := by
  unfold abort
  split
  · exact ⟨s.mem, s.draws, rfl⟩
  · exact ⟨_, _, rfl⟩

end Sys2Proof.Machine
end

