-- ==== Sys2Proof/Laws/Exec.lean ====
section
/-!
SUPPORT. What each command does, said once: the state it completes in when its checks pass, and what any
command can leave. In a proof, reach a field of a completed state by `simp` (complete_params and the rest in
Laws/State.lean), not by `rfl`, which compares whole states.
-/
namespace Sys2Proof.Machine

/-! ## Completion, command by command -/

theorem exec_nop (s : State) : exec .nop s = .next (complete s) := rfl

theorem exec_s256Init (s : State) : exec .s256Init s = .next (complete { s with s256 := HashInst.initial iv256 }) := rfl

theorem exec_s256Write (src len : Nat) (s : State) (m : List Byte) (hc : checkS256Write src len s = none)
    (hm : Memory.readBytes s.mem src len = some m) :
    exec (.s256Write src len) s = .next (complete { s with s256 := absorb sha256 s.s256 m }) := by
  simp only [exec, execS256Write, hc, guarded_none, withBytes_some _ hm]

theorem exec_s256Final (dst : Nat) (s : State) (hc : checkS256Final dst s = none) :
    exec (.s256Final dst) s = .next (complete { s with
      s256 := finalizeInst sha256 s.s256, mem := Memory.writeBytes s.mem dst (finalizeDigest sha256 s.s256) }) := by
  simp only [exec, execS256Final, hc, guarded_none]

theorem exec_s256Xform (src nblk : Nat) (s : State) (m : List Byte) (hc : checkS256Xform src nblk s = none)
    (hm : Memory.readBytes s.mem src (64 * nblk) = some m) :
    exec (.s256Xform src nblk) s = .next (complete { s with s256 := transformInst sha256 s.s256 nblk m }) := by
  simp only [exec, execS256Xform, hc, guarded_none, withBytes_some _ hm]

theorem exec_s256Ldst (src nblk : Nat) (s : State) (m : List Byte) (hc : checkS256Ldst src s = none)
    (hm : Memory.readBytes s.mem src 32 = some m) :
    exec (.s256Ldst src nblk) s = .next (complete { s with s256 := loadInst sha256 nblk m }) := by
  simp only [exec, execS256Ldst, hc, guarded_none, withBytes_some _ hm]

theorem exec_s256Stst (dst : Nat) (s : State) (hc : checkS256Stst dst s = none) :
    exec (.s256Stst dst) s = .next (complete { s with mem := Memory.writeBytes s.mem dst (chainBytes s.s256.h) }) := by
  simp only [exec, execS256Stst, hc, guarded_none]

theorem exec_s512Init (s : State) : exec .s512Init s = .next (complete { s with s512 := HashInst.initial iv512 }) := rfl

theorem exec_s512Write (src len : Nat) (s : State) (m : List Byte) (hc : checkS512Write src len s = none)
    (hm : Memory.readBytes s.mem src len = some m) :
    exec (.s512Write src len) s = .next (complete { s with s512 := absorb sha512 s.s512 m }) := by
  simp only [exec, execS512Write, hc, guarded_none, withBytes_some _ hm]

theorem exec_s512Final (dst : Nat) (s : State) (hc : checkS512Final dst s = none) :
    exec (.s512Final dst) s = .next (complete { s with
      s512 := finalizeInst sha512 s.s512, mem := Memory.writeBytes s.mem dst (finalizeDigest sha512 s.s512) }) := by
  simp only [exec, execS512Final, hc, guarded_none]

theorem exec_s512Xform (src nblk : Nat) (s : State) (m : List Byte) (hc : checkS512Xform src nblk s = none)
    (hm : Memory.readBytes s.mem src (128 * nblk) = some m) :
    exec (.s512Xform src nblk) s = .next (complete { s with s512 := transformInst sha512 s.s512 nblk m }) := by
  simp only [exec, execS512Xform, hc, guarded_none, withBytes_some _ hm]

theorem exec_s512Ldst (src nblk : Nat) (s : State) (m : List Byte) (hc : checkS512Ldst src s = none)
    (hm : Memory.readBytes s.mem src 64 = some m) :
    exec (.s512Ldst src nblk) s = .next (complete { s with s512 := loadInst sha512 nblk m }) := by
  simp only [exec, execS512Ldst, hc, guarded_none, withBytes_some _ hm]

theorem exec_s512Stst (dst : Nat) (s : State) (hc : checkS512Stst dst s = none) :
    exec (.s512Stst dst) s = .next (complete { s with mem := Memory.writeBytes s.mem dst (chainBytes s.s512.h) }) := by
  simp only [exec, execS512Stst, hc, guarded_none]

theorem exec_hmacKey (src len : Nat) (s : State) (m : List Byte) (hc : checkHmacKey src len s = none)
    (hm : Memory.readBytes s.mem src len = some m) :
    exec (.hmacKey src len) s = .next (complete { s with
      hi := keyedInst m 0x36, ho := keyedInst m 0x5c, hkeyed := true, hfin := false }) := by
  simp only [exec, execHmacKey, hc, guarded_none, withBytes_some _ hm]

theorem exec_hmacWrite (src len : Nat) (s : State) (m : List Byte) (hc : checkHmacWrite src len s = none)
    (hm : Memory.readBytes s.mem src len = some m) :
    exec (.hmacWrite src len) s = .next (complete { s with hi := absorb sha512 s.hi m }) := by
  simp only [exec, execHmacWrite, hc, guarded_none, withBytes_some _ hm]

theorem exec_hmacFinal (dst : Nat) (s : State) (hc : checkHmacFinal dst s = none) :
    exec (.hmacFinal dst) s = .next (complete { s with
      hi := finalizeInst sha512 s.hi, ho := outerFinal s.hi s.ho, hfin := true,
      mem := Memory.writeBytes s.mem dst (chainBytes (outerFinal s.hi s.ho).h) }) := by
  simp only [exec, execHmacFinal, hc, guarded_none]

theorem exec_hmacClear (s : State) : exec .hmacClear s = .next (complete { s with
      hi := HashInst.initial (zeroWords 64), ho := HashInst.initial (zeroWords 64), hkeyed := false, hfin := false }) := rfl

/-! ## What any command can leave -/

/-- A guarded command with plain effects. -/
theorem guarded_complete {found : Option ErrCode} {w : Command} {s t u : State}
    (h : guarded found w s (.next u) = .next t) :
    (∃ code, found = some code ∧ t = raiseError code w s) ∨ (found = none ∧ t = u) := by
  rcases guarded_eq_next h with h | ⟨hc, he⟩
  · exact .inl h
  · exact .inr ⟨hc, (Host.Outcome.next.inj he).symm⟩

/-- A guarded command whose effects depend on the bytes it reads. -/
theorem guarded_withBytes {found : Option ErrCode} {w : Command} {s t : State} {a n : Nat} {f : List Byte → State}
    (h : guarded found w s (withBytes s a n fun m => .next (f m)) = .next t) :
    (∃ code, found = some code ∧ t = raiseError code w s) ∨
    (found = none ∧ ∃ m, Memory.readBytes s.mem a n = some m ∧ t = f m) := by
  rcases guarded_eq_next h with h | ⟨hc, he⟩
  · exact .inl h
  · obtain ⟨m, hm, he⟩ := withBytes_eq_next he
    exact .inr ⟨hc, m, hm, (Host.Outcome.next.inj he).symm⟩

/-- A completion with any instances, HMAC flags and MEM differs from a bare one in those alone. -/
theorem complete_shape (s : State) (x : HashInst 32) (y hi ho : HashInst 64) (hkeyed hfin : Bool) (mem : Memory) :
    let t := complete { s with
      s256 := x, s512 := y, hi := hi, ho := ho, hkeyed := hkeyed, hfin := hfin, mem := mem }
    t = complete { s with
      s256 := t.s256, s512 := t.s512, hi := t.hi, ho := t.ho, hkeyed := t.hkeyed, hfin := t.hfin, mem := t.mem } := rfl

/-- A command either records the error its checks find, or completes: only the instances, the HMAC flags
and MEM can differ from a bare completion (43_system.md R190, R192). -/
theorem exec_cases {i : Instr} {s t : State} (h : exec i s = .next t) :
    (∃ code, commandError i s = some code ∧ t = raiseError code (encode i) s) ∨
    (commandError i s = none ∧ t = complete { s with
      s256 := t.s256, s512 := t.s512, hi := t.hi, ho := t.ho, hkeyed := t.hkeyed, hfin := t.hfin, mem := t.mem }) := by
  cases i
  case nop =>
    simp only [exec, execNop] at h
    rcases guarded_complete h with h | ⟨hc, rfl⟩
    · exact .inl h
    · exact .inr ⟨hc, complete_shape s _ _ _ _ _ _ _⟩
  case s256Init =>
    simp only [exec, execS256Init] at h
    rcases guarded_complete h with h | ⟨hc, rfl⟩
    · exact .inl h
    · exact .inr ⟨hc, complete_shape s _ _ _ _ _ _ _⟩
  case s256Write =>
    simp only [exec, execS256Write] at h
    rcases guarded_withBytes h with h | ⟨hc, m, -, rfl⟩
    · exact .inl h
    · exact .inr ⟨hc, complete_shape s _ _ _ _ _ _ _⟩
  case s256Final =>
    simp only [exec, execS256Final] at h
    rcases guarded_complete h with h | ⟨hc, rfl⟩
    · exact .inl h
    · exact .inr ⟨hc, complete_shape s _ _ _ _ _ _ _⟩
  case s256Xform =>
    simp only [exec, execS256Xform] at h
    rcases guarded_withBytes h with h | ⟨hc, m, -, rfl⟩
    · exact .inl h
    · exact .inr ⟨hc, complete_shape s _ _ _ _ _ _ _⟩
  case s256Ldst =>
    simp only [exec, execS256Ldst] at h
    rcases guarded_withBytes h with h | ⟨hc, m, -, rfl⟩
    · exact .inl h
    · exact .inr ⟨hc, complete_shape s _ _ _ _ _ _ _⟩
  case s256Stst =>
    simp only [exec, execS256Stst] at h
    rcases guarded_complete h with h | ⟨hc, rfl⟩
    · exact .inl h
    · exact .inr ⟨hc, complete_shape s _ _ _ _ _ _ _⟩
  case s512Init =>
    simp only [exec, execS512Init] at h
    rcases guarded_complete h with h | ⟨hc, rfl⟩
    · exact .inl h
    · exact .inr ⟨hc, complete_shape s _ _ _ _ _ _ _⟩
  case s512Write =>
    simp only [exec, execS512Write] at h
    rcases guarded_withBytes h with h | ⟨hc, m, -, rfl⟩
    · exact .inl h
    · exact .inr ⟨hc, complete_shape s _ _ _ _ _ _ _⟩
  case s512Final =>
    simp only [exec, execS512Final] at h
    rcases guarded_complete h with h | ⟨hc, rfl⟩
    · exact .inl h
    · exact .inr ⟨hc, complete_shape s _ _ _ _ _ _ _⟩
  case s512Xform =>
    simp only [exec, execS512Xform] at h
    rcases guarded_withBytes h with h | ⟨hc, m, -, rfl⟩
    · exact .inl h
    · exact .inr ⟨hc, complete_shape s _ _ _ _ _ _ _⟩
  case s512Ldst =>
    simp only [exec, execS512Ldst] at h
    rcases guarded_withBytes h with h | ⟨hc, m, -, rfl⟩
    · exact .inl h
    · exact .inr ⟨hc, complete_shape s _ _ _ _ _ _ _⟩
  case s512Stst =>
    simp only [exec, execS512Stst] at h
    rcases guarded_complete h with h | ⟨hc, rfl⟩
    · exact .inl h
    · exact .inr ⟨hc, complete_shape s _ _ _ _ _ _ _⟩
  case hmacKey =>
    simp only [exec, execHmacKey] at h
    rcases guarded_withBytes h with h | ⟨hc, m, -, rfl⟩
    · exact .inl h
    · exact .inr ⟨hc, complete_shape s _ _ _ _ _ _ _⟩
  case hmacWrite =>
    simp only [exec, execHmacWrite] at h
    rcases guarded_withBytes h with h | ⟨hc, m, -, rfl⟩
    · exact .inl h
    · exact .inr ⟨hc, complete_shape s _ _ _ _ _ _ _⟩
  case hmacFinal =>
    simp only [exec, execHmacFinal] at h
    rcases guarded_complete h with h | ⟨hc, rfl⟩
    · exact .inl h
    · exact .inr ⟨hc, complete_shape s _ _ _ _ _ _ _⟩
  case hmacClear =>
    simp only [exec, execHmacClear] at h
    rcases guarded_complete h with h | ⟨hc, rfl⟩
    · exact .inl h
    · exact .inr ⟨hc, complete_shape s _ _ _ _ _ _ _⟩

/-- The checks of a command read only the parameters, the instances and the HMAC flags (43_system.md R190,
R194). -/
theorem commandError_congr (i : Instr) {s t : State} (hp : t.params = s.params) (h2 : t.s256 = s.s256)
    (h5 : t.s512 = s.s512) (hi : t.hi = s.hi) (hk : t.hkeyed = s.hkeyed) (hf : t.hfin = s.hfin) :
    commandError i t = commandError i s := by
  cases i <;>
    simp only [commandError, checkNop, checkS256Init, checkS256Write, checkS256Final, checkS256Xform,
      checkS256Ldst, checkS256Stst, checkS512Init, checkS512Write, checkS512Final, checkS512Xform, checkS512Ldst,
      checkS512Stst, checkHmacKey, checkHmacWrite, checkHmacFinal, checkHmacClear, outOfRange, hp, h2, h5, hi, hk, hf]

/-- No check finds "no error". -/
theorem commandError_ne_noError (i : Instr) (s : State) : commandError i s ≠ some .noError := by
  cases i <;>
    simp only [commandError, checkNop, checkS256Init, checkS256Write, checkS256Final, checkS256Xform,
      checkS256Ldst, checkS256Stst, checkS512Init, checkS512Write, checkS512Final, checkS512Xform, checkS512Ldst,
      checkS512Stst, checkHmacKey, checkHmacWrite, checkHmacFinal, checkHmacClear, firstError] <;>
    (repeat' split) <;> simp

/-! ## The instances stay in step with their counters (10_state.md R27) -/

theorem sha256_block_dvd : sha256.blockBytes ∣ 2 ^ 64 := ⟨2 ^ 58, by norm_num⟩
theorem sha512_block_dvd : sha512.blockBytes ∣ 2 ^ 64 := ⟨2 ^ 57, by norm_num⟩

theorem finalizeInst_bufferOk {w : Nat} (A : Algo w) (I : HashInst w) (hd : A.blockBytes ∣ 2 ^ 64)
    (h : HashInst.bufferOk A.blockBytes I = true) : HashInst.bufferOk A.blockBytes (finalizeInst A I) = true := by
  have := absorb_bufferOk A I (pad A I.cnt.toNat) hd h
  exact this

theorem loadInst_bufferOk_256 (n : Nat) (m : List Byte) : HashInst.bufferOk 64 (loadInst sha256 n m) = true := by
  simp [HashInst.bufferOk, loadInst]

theorem loadInst_bufferOk_512 (n : Nat) (m : List Byte) : HashInst.bufferOk 128 (loadInst sha512 n m) = true := by
  simp [HashInst.bufferOk, loadInst]

theorem keyedInst_bufferOk (key : List Byte) (p : Byte) : HashInst.bufferOk 128 (keyedInst key p) = true :=
  absorb_bufferOk sha512 _ _ sha512_block_dvd (initial_bufferOk _ _)

/-! ## MEM after a command -/

/-- A command leaves MEM as it was, or writes exactly its write span (20_memory.md R69). -/
theorem exec_mem {i : Instr} {s t : State} (h : exec i s = .next t) :
    t.mem = s.mem ∨ ∃ dst bytes, commandError i s = none ∧ writeSpan i = some (dst, bytes.length) ∧
      t.mem = Memory.writeBytes s.mem dst bytes := by
  cases i
  case nop =>
    simp only [exec, execNop] at h
    rcases guarded_complete h with ⟨_, _, rfl⟩ | ⟨_, rfl⟩ <;> exact .inl (by simp)
  case s256Init =>
    simp only [exec, execS256Init] at h
    rcases guarded_complete h with ⟨_, _, rfl⟩ | ⟨_, rfl⟩ <;> exact .inl (by simp)
  case s256Write =>
    simp only [exec, execS256Write] at h
    rcases guarded_withBytes h with ⟨_, _, rfl⟩ | ⟨_, _, _, rfl⟩ <;> exact .inl (by simp)
  case s256Final dst =>
    simp only [exec, execS256Final] at h
    rcases guarded_complete h with ⟨_, _, rfl⟩ | ⟨hc, rfl⟩
    · exact .inl (by simp)
    · exact .inr ⟨dst, finalizeDigest sha256 s.s256, hc, by simp [writeSpan, finalizeDigest], by simp⟩
  case s256Xform =>
    simp only [exec, execS256Xform] at h
    rcases guarded_withBytes h with ⟨_, _, rfl⟩ | ⟨_, _, _, rfl⟩ <;> exact .inl (by simp)
  case s256Ldst =>
    simp only [exec, execS256Ldst] at h
    rcases guarded_withBytes h with ⟨_, _, rfl⟩ | ⟨_, _, _, rfl⟩ <;> exact .inl (by simp)
  case s256Stst dst =>
    simp only [exec, execS256Stst] at h
    rcases guarded_complete h with ⟨_, _, rfl⟩ | ⟨hc, rfl⟩
    · exact .inl (by simp)
    · exact .inr ⟨dst, chainBytes s.s256.h, hc, by simp [writeSpan], by simp⟩
  case s512Init =>
    simp only [exec, execS512Init] at h
    rcases guarded_complete h with ⟨_, _, rfl⟩ | ⟨_, rfl⟩ <;> exact .inl (by simp)
  case s512Write =>
    simp only [exec, execS512Write] at h
    rcases guarded_withBytes h with ⟨_, _, rfl⟩ | ⟨_, _, _, rfl⟩ <;> exact .inl (by simp)
  case s512Final dst =>
    simp only [exec, execS512Final] at h
    rcases guarded_complete h with ⟨_, _, rfl⟩ | ⟨hc, rfl⟩
    · exact .inl (by simp)
    · exact .inr ⟨dst, finalizeDigest sha512 s.s512, hc, by simp [writeSpan, finalizeDigest], by simp⟩
  case s512Xform =>
    simp only [exec, execS512Xform] at h
    rcases guarded_withBytes h with ⟨_, _, rfl⟩ | ⟨_, _, _, rfl⟩ <;> exact .inl (by simp)
  case s512Ldst =>
    simp only [exec, execS512Ldst] at h
    rcases guarded_withBytes h with ⟨_, _, rfl⟩ | ⟨_, _, _, rfl⟩ <;> exact .inl (by simp)
  case s512Stst dst =>
    simp only [exec, execS512Stst] at h
    rcases guarded_complete h with ⟨_, _, rfl⟩ | ⟨hc, rfl⟩
    · exact .inl (by simp)
    · exact .inr ⟨dst, chainBytes s.s512.h, hc, by simp [writeSpan], by simp⟩
  case hmacKey =>
    simp only [exec, execHmacKey] at h
    rcases guarded_withBytes h with ⟨_, _, rfl⟩ | ⟨_, _, _, rfl⟩ <;> exact .inl (by simp)
  case hmacWrite =>
    simp only [exec, execHmacWrite] at h
    rcases guarded_withBytes h with ⟨_, _, rfl⟩ | ⟨_, _, _, rfl⟩ <;> exact .inl (by simp)
  case hmacFinal dst =>
    simp only [exec, execHmacFinal] at h
    rcases guarded_complete h with ⟨_, _, rfl⟩ | ⟨hc, rfl⟩
    · exact .inl (by simp)
    · exact .inr ⟨dst, chainBytes (outerFinal s.hi s.ho).h, hc, by simp [writeSpan], by simp⟩
  case hmacClear =>
    simp only [exec, execHmacClear] at h
    rcases guarded_complete h with ⟨_, _, rfl⟩ | ⟨_, rfl⟩ <;> exact .inl (by simp)

/-- A command whose checks pass writes inside MEM (60_exceptions.md R209). -/
theorem writeSpan_inRange {i : Instr} {s : State} {a n : Nat} (hc : commandError i s = none)
    (hw : writeSpan i = some (a, n)) : inRange s a n := by
  cases i <;> simp [writeSpan] at hw <;> obtain ⟨rfl, rfl⟩ := hw <;>
    (simp only [commandError, checkS256Final, checkS256Stst, checkS512Final, checkS512Stst, checkHmacFinal,
      firstError_eq_none, List.mem_cons, List.not_mem_nil, or_false, forall_eq_or_imp, forall_eq] at hc
     first
     | exact (outOfRange_eq_false _ _ _).1 hc
     | exact (outOfRange_eq_false _ _ _).1 hc.2
     | exact (outOfRange_eq_false _ _ _).1 hc.2.2)

/-! ## BLOCK_BASE and IMPL_VARIANT (00_scope.md R9) -/

theorem commandError_rebuilt (i : Instr) (base : Nat) (variant : ImplVariant) (s : State) :
    commandError i (State.rebuilt base variant s) = commandError i s := by
  cases i <;> rfl

theorem guarded_rebuilt {found : Option ErrCode} {w : Command} {base : Nat} {variant : ImplVariant} {s : State}
    {x y : Host.Outcome State Fault Refusal} (h : x = mapNext (State.rebuilt base variant) y) :
    guarded found w (State.rebuilt base variant s) x = mapNext (State.rebuilt base variant) (guarded found w s y) := by
  cases found with
  | none => exact h
  | some code => rfl

theorem withBytes_rebuilt {base : Nat} {variant : ImplVariant} {s : State} {a n : Nat}
    {f g : List Byte → Host.Outcome State Fault Refusal} (h : ∀ m, f m = mapNext (State.rebuilt base variant) (g m)) :
    withBytes (State.rebuilt base variant s) a n f = mapNext (State.rebuilt base variant) (withBytes s a n g) := by
  unfold withBytes
  show (match Memory.readBytes s.mem a n with | none => _ | some bytes => _) = _
  cases Memory.readBytes s.mem a n with
  | none => rfl
  | some m => exact h m

/-- A command answers the same whatever BLOCK_BASE and IMPL_VARIANT are. -/
theorem exec_rebuilt (i : Instr) (base : Nat) (variant : ImplVariant) (s : State) :
    exec i (State.rebuilt base variant s) = mapNext (State.rebuilt base variant) (exec i s) := by
  cases i with
  | nop | s256Init | s512Init | hmacClear => rfl
  | s256Write | s256Xform | s256Ldst | s512Write | s512Xform | s512Ldst | hmacKey | hmacWrite =>
    exact guarded_rebuilt (withBytes_rebuilt fun m => by simp only [mapNext, complete, State.rebuilt])
  | s256Final | s256Stst | s512Final | s512Stst | hmacFinal =>
    exact guarded_rebuilt (by simp only [mapNext, complete, State.rebuilt])

end Sys2Proof.Machine
end

