-- ==== Sys2Proof/Laws/Host.lean ====
section
/-!
SUPPORT. What a step can do, said once: issue, each host action, and whose turn it is.
-/
namespace Sys2Proof.Machine

/-! ## Issue -/

/-- What issuing a word can do (43_system.md R190). -/
theorem issue_cases (w : Command) (s : State) :
    ((s.fatal = true ∨ s.err = true) ∧ issue w s = discard s) ∨
    (s.fatal = false ∧ s.err = false ∧ s.busy = true ∧ issue w s = raiseError .busyOverrun w s) ∨
    (s.fatal = false ∧ s.err = false ∧ s.busy = false ∧
      ((∃ e, decode w = .error e ∧ issue w s = raiseError (DecodeError.errCode e) w s) ∨
       (∃ i code, decode w = .ok i ∧ commandError i s = some code ∧ issue w s = raiseError code w s) ∨
       (∃ i, decode w = .ok i ∧ commandError i s = none ∧ issue w s = accept w s))) := by
  by_cases h : (s.fatal || s.err) = true
  · exact .inl ⟨by simpa using h, by simp only [issue, h, if_true]⟩
  · have h1 : s.fatal = false ∧ s.err = false := by simpa using h
    by_cases hb : s.busy = true
    · exact .inr (.inl ⟨h1.1, h1.2, hb, by simp [issue, h1.1, h1.2, hb]⟩)
    · have hb : s.busy = false := by simpa using hb
      refine .inr (.inr ⟨h1.1, h1.2, hb, ?_⟩)
      have hi : issue w s = decodeAndCheck w s := by simp [issue, h1.1, h1.2, hb]
      rw [hi, decodeAndCheck]
      cases hd : decode w with
      | error e => exact .inl ⟨e, rfl, rfl⟩
      | ok i =>
        cases hc : commandError i s with
        | some code => exact .inr (.inl ⟨i, code, rfl, hc, by simp [hc]⟩)
        | none => exact .inr (.inr ⟨i, rfl, hc, by simp [hc]⟩)

/-- An abort changes MEM and the model's draw count alone (70_reset_and_hazards.md R240). -/
theorem abort_shape (s : State) : abort s = { s with mem := (abort s).mem, draws := (abort s).draws } := by
  unfold abort
  split <;> rfl

/-! ## Host accesses -/

/-- A CTRL write without SOFT_RESET changes the enables, DONE and the error record alone (43_system.md R196). -/
theorem writeCtrl_cases (v : Word32) (s : State) :
    (v.getLsbD 31 = true ∧ writeCtrl v s = softReset s) ∨
    (v.getLsbD 31 = false ∧ writeCtrl v s = { s with
      ieDone := v.getLsbD 0, ieErr := v.getLsbD 1, done := s.done && !v.getLsbD 8,
      err := s.err && !(v.getLsbD 9 && !s.fatal), errLost := s.errLost && !(v.getLsbD 9 && !s.fatal),
      errCode := if v.getLsbD 9 && !s.fatal then .noError else s.errCode,
      errCmd := if v.getLsbD 9 && !s.fatal then 0 else s.errCmd }) := by
  cases h : v.getLsbD 31
  · refine .inr ⟨rfl, ?_⟩
    unfold writeCtrl clearError clearDone
    rw [h]
    cases v.getLsbD 8 <;> cases v.getLsbD 9 <;> cases hf : s.fatal <;> simp
  · exact .inl ⟨rfl, by simp [writeCtrl, h]⟩

/-- A register write is a CTRL write, a CMD_LO write, a CMD_HI write, or ignored (43_system.md R196, R197). -/
theorem writeRegister_cases (off : Nat) (v : Word32) (s : State) :
    (off = 0x08 ∧ writeRegister off v s = writeCtrl v s) ∨
    (off = 0x10 ∧ writeRegister off v s = { s with cmdLo := v }) ∨
    (off = 0x14 ∧ writeRegister off v s = writeCmdHi v s) ∨ writeRegister off v s = s := by
  unfold writeRegister
  split <;> simp

/-- A host write that is a transaction reaches a register, or the window while BUSY = 0. -/
theorem hostWrite_cases {off : BitVec 17} {data : Word32} {wstrb : BitVec 4} {s t : State}
    (h : hostWrite off data wstrb s = .next t) :
    off.toNat % 4 = 0 ∧
    ((off.toNat < 0x10000 ∧ wstrb = 0b1111 ∧ t = writeRegister off.toNat data s) ∨
     (0x10000 ≤ off.toNat ∧ s.busy = false ∧ t = writeWindow (off.toNat - 0x10000) data wstrb s)) := by
  unfold hostWrite alignedOffset windowBase at h
  by_cases h4 : off.toNat % 4 = 0
  · refine ⟨h4, ?_⟩
    rw [if_neg (by simp [h4])] at h
    by_cases hw : off.toNat < 0x10000
    · rw [if_pos hw] at h
      by_cases hs : wstrb = 0b1111
      · rw [if_pos hs] at h
        cases h
        exact .inl ⟨hw, hs, rfl⟩
      · rw [if_neg hs] at h
        cases h
    · rw [if_neg hw] at h
      cases hb : s.busy
      · simp only [hb] at h
        cases h
        exact .inr ⟨by omega, rfl, rfl⟩
      · simp only [hb] at h
        cases h
  · rw [if_pos (by simp [h4])] at h
    cases h

/-- A window write changes MEM alone. -/
theorem writeWindow_eq (a : Nat) (data : Word32) (wstrb : BitVec 4) (s : State) :
    writeWindow a data wstrb s = { s with mem := (writeWindow a data wstrb s).mem } := by
  unfold writeWindow
  split <;> rfl

/-- A register read changes the model's record and draw count alone (43_system.md R195). -/
theorem readRegister_eq (off : Nat) (s : State) :
    readRegister off s = { s with reads := (readRegister off s).reads, draws := (readRegister off s).draws } := by
  unfold readRegister readCounter returnRead
  split <;> (repeat' split) <;> rfl

/-- A window read changes the model's record and draw count alone. -/
theorem readWindow_eq (a : Nat) (s : State) :
    readWindow a s = { s with reads := (readWindow a s).reads, draws := (readWindow a s).draws } := by
  unfold readWindow returnRead
  split <;> rfl

/-- A host read changes the model's record and draw count alone (20_memory.md R71). -/
theorem hostRead_cases {off : BitVec 17} {s t : State} (h : hostRead off s = .next t) :
    t = { s with reads := t.reads, draws := t.draws } := by
  unfold hostRead at h
  split at h
  · cases h
  · split at h
    · cases h
      exact readRegister_eq _ _
    · cases h
      exact readWindow_eq _ _

/-- An offset and its host bus address determine each other (20_memory.md R60, R72). -/
theorem busOffset_eq_some (p : Params) (addr : Nat) (off : BitVec 17) :
    busOffset p addr = some off ↔ busAddress p off = addr := by
  unfold busOffset busAddress
  constructor
  · intro h
    split at h
    · cases h
      simp
      omega
    · cases h
  · rintro rfl
    have := off.isLt
    rw [if_pos (by omega)]
    simp

/-! ## Steps -/

/-- What a host action can do. -/
theorem hostAct_cases {act : HostAction} {rest : List HostAction} {s t : State} (h : hostAct act rest s = .next t) :
    (∃ off data wstrb, act = .write off data wstrb ∧ hostWrite off data wstrb { s with host := rest } = .next t) ∨
    (∃ off, act = .read off ∧ hostRead off { s with host := rest } = .next t) ∨
    (act = .wait ∧ s.busy = true ∧ t = s) ∨ (act = .wait ∧ s.busy = false ∧ t = { s with host := rest }) ∨
    (act = .hardwareReset ∧ t = hardwareReset { s with host := rest }) := by
  cases act with
  | write off data wstrb => exact .inl ⟨off, data, wstrb, rfl, h⟩
  | read off => exact .inr (.inl ⟨off, rfl, h⟩)
  | wait =>
    cases hb : s.busy
    · simp only [hostAct, hb] at h
      cases h
      exact .inr (.inr (.inr (.inl ⟨rfl, rfl, rfl⟩)))
    · simp only [hostAct, hb] at h
      cases h
      exact .inr (.inr (.inl ⟨rfl, rfl, rfl⟩))
  | otherWidth off => cases h
  | hardwareReset =>
    cases h
    exact .inr (.inr (.inr (.inr ⟨rfl, rfl⟩)))

/-- Passing a turn changes the model's count-down alone. -/
theorem passTurn_shape (s : State) : passTurn s = { s with wait := (passTurn s).wait } := by
  unfold passTurn
  split <;> rfl

/-- Everything a step can do: the end of the self-test, the completion of the command in flight, or a host
turn. -/
theorem step_cases {s t : State} (h : step s = .next t) :
    (s.busy = true ∧ s.wait = 0 ∧ s.inflight = none ∧ t = selfTestEnd s) ∨
    (s.busy = true ∧ s.wait = 0 ∧ ∃ w i, s.inflight = some w ∧ decode w = .ok i ∧ exec i s = .next t) ∨
    (engineTurn s = false ∧
      ((s.host = [] ∧ t = passTurn s) ∨
       ∃ act rest, s.host = act :: rest ∧ hostAct act rest (passTurn s) = .next t)) := by
  unfold step at h
  cases he : engineTurn s
  · rw [he] at h
    refine .inr (.inr ⟨rfl, ?_⟩)
    have hh : (passTurn s).host = s.host := by rw [passTurn_shape]
    simp only [Bool.false_eq_true, if_false, hostTurn, hh] at h
    cases hs : s.host with
    | nil =>
      rw [hs] at h
      cases h
      exact .inl ⟨rfl, rfl⟩
    | cons act rest =>
      rw [hs] at h
      exact .inr ⟨act, rest, rfl, h⟩
  · have hb : s.busy = true ∧ s.wait = 0 := by simpa [engineTurn] using he
    rw [he, if_pos rfl, engineStep] at h
    cases hi : s.inflight with
    | none =>
      rw [hi] at h
      cases h
      exact .inl ⟨hb.1, hb.2, rfl, rfl⟩
    | some w =>
      rw [hi] at h
      simp only [runCommand] at h
      cases hd : decode w with
      | ok i =>
        rw [hd] at h
        exact .inr (.inl ⟨hb.1, hb.2, w, i, rfl, hd, h⟩)
      | error e =>
        rw [hd] at h
        cases h

end Sys2Proof.Machine
end

