-- ==== Sys2Proof/Laws/PerInstr.lean ====
section
/-!
SUPPORT. A statement about every command as syntax: its word carries its opcode (30_encoding.md R89), one
lemma per constructor.
-/
namespace Sys2Proof.Laws

/-- The OPC field of a command's word is the command's opcode. -/
def Opcode.Statement (i : Instr) : Prop := opcField (encode i) = i.opcode

theorem Opcode.nop : Opcode.Statement .nop := opcField_pack _ _ _ _
theorem Opcode.s256Init : Opcode.Statement .s256Init := opcField_pack _ _ _ _
theorem Opcode.s256Write (src len : Nat) : Opcode.Statement (.s256Write src len) := opcField_pack _ _ _ _
theorem Opcode.s256Final (dst : Nat) : Opcode.Statement (.s256Final dst) := opcField_pack _ _ _ _
theorem Opcode.s256Xform (src nblk : Nat) : Opcode.Statement (.s256Xform src nblk) := opcField_pack _ _ _ _
theorem Opcode.s256Ldst (src nblk : Nat) : Opcode.Statement (.s256Ldst src nblk) := opcField_pack _ _ _ _
theorem Opcode.s256Stst (dst : Nat) : Opcode.Statement (.s256Stst dst) := opcField_pack _ _ _ _
theorem Opcode.s512Init : Opcode.Statement .s512Init := opcField_pack _ _ _ _
theorem Opcode.s512Write (src len : Nat) : Opcode.Statement (.s512Write src len) := opcField_pack _ _ _ _
theorem Opcode.s512Final (dst : Nat) : Opcode.Statement (.s512Final dst) := opcField_pack _ _ _ _
theorem Opcode.s512Xform (src nblk : Nat) : Opcode.Statement (.s512Xform src nblk) := opcField_pack _ _ _ _
theorem Opcode.s512Ldst (src nblk : Nat) : Opcode.Statement (.s512Ldst src nblk) := opcField_pack _ _ _ _
theorem Opcode.s512Stst (dst : Nat) : Opcode.Statement (.s512Stst dst) := opcField_pack _ _ _ _
theorem Opcode.hmacKey (src len : Nat) : Opcode.Statement (.hmacKey src len) := opcField_pack _ _ _ _
theorem Opcode.hmacWrite (src len : Nat) : Opcode.Statement (.hmacWrite src len) := opcField_pack _ _ _ _
theorem Opcode.hmacFinal (dst : Nat) : Opcode.Statement (.hmacFinal dst) := opcField_pack _ _ _ _
theorem Opcode.hmacClear : Opcode.Statement .hmacClear := opcField_pack _ _ _ _

end Sys2Proof.Laws
end

