-- ==== Sys2Proof/Tests/Slice0.lean ====
section
/-!
SUPPORT. Checks of the model against the examples and vectors the spec gives. Every expected value is the
spec's own; each comment names where it stands.
-/
namespace Sys2Proof.Tests
open Sys2Proof.Machine

set_option maxRecDepth 20000

/-! ## Helpers -/

/-- An idle block after a passing self-test. -/
def idle : State := { State.afterReset Params.default [] [] 0 1 with busy := false }

/-- An idle block with these bytes at `a`. -/
def withBytesAt (a : Nat) (s : List Byte) : State := { idle with mem := Memory.writeBytes [] a s }

/-- A field of the next state. -/
def after {α : Type} (o : Host.Outcome State Fault Refusal) (f : State → α) : Option α :=
  match o with
  | .next t => some (f t)
  | .fault _ => none
  | .refused _ => none

/-- The fault, if there is one. -/
def faultOf (o : Host.Outcome State Fault Refusal) : Option Fault :=
  match o with
  | .fault r => some r
  | .next _ => none
  | .refused _ => none

/-- The refusal, if there is one. -/
def refusalOf (o : Host.Outcome State Fault Refusal) : Option Refusal :=
  match o with
  | .refused r => some r
  | .next _ => none
  | .fault _ => none

/-- The bytes of MEM at an address. -/
def bytesAt (a n : Nat) (t : State) : Option (List Byte) := Memory.readBytes t.mem a n

/-- "abc". -/
def abc : List Byte := [0x61, 0x62, 0x63]

/-- An idle block with "abc" absorbed by S256 (R123's example). -/
def absorbed256 : State := { idle with s256 := absorb sha256 idle.s256 abc }

/-- An idle block with "abc" absorbed by S512 (R157's example). -/
def absorbed512 : State := { idle with s512 := absorb sha512 idle.s512 abc }

/-- An idle block keyed with "Bitcoin seed" (R173's example). -/
def keyed : State :=
  { idle with hi := keyedInst masterKeyString 0x36, ho := keyedInst masterKeyString 0x5c, hkeyed := true }

/-! ## WellFormed refuses an operand that does not fit (30_encoding.md R95) -/

theorem test_wf_s256Write_src : (Instr.s256Write 65536 0).wellFormed = false := by decide
theorem test_wf_s256Write_len : (Instr.s256Write 0 (2 ^ 24)).wellFormed = false := by decide
theorem test_wf_s256Final_dst : (Instr.s256Final 65536).wellFormed = false := by decide
theorem test_wf_s256Xform_src : (Instr.s256Xform 65536 0).wellFormed = false := by decide
theorem test_wf_s256Xform_nblk : (Instr.s256Xform 0 (2 ^ 24)).wellFormed = false := by decide
theorem test_wf_s256Ldst_src : (Instr.s256Ldst 65536 0).wellFormed = false := by decide
theorem test_wf_s256Ldst_nblk : (Instr.s256Ldst 0 (2 ^ 24)).wellFormed = false := by decide
theorem test_wf_s256Stst_dst : (Instr.s256Stst 65536).wellFormed = false := by decide
theorem test_wf_s512Write_src : (Instr.s512Write 65536 0).wellFormed = false := by decide
theorem test_wf_s512Write_len : (Instr.s512Write 0 (2 ^ 24)).wellFormed = false := by decide
theorem test_wf_s512Final_dst : (Instr.s512Final 65536).wellFormed = false := by decide
theorem test_wf_s512Xform_src : (Instr.s512Xform 65536 0).wellFormed = false := by decide
theorem test_wf_s512Xform_nblk : (Instr.s512Xform 0 (2 ^ 24)).wellFormed = false := by decide
theorem test_wf_s512Ldst_src : (Instr.s512Ldst 65536 0).wellFormed = false := by decide
theorem test_wf_s512Ldst_nblk : (Instr.s512Ldst 0 (2 ^ 24)).wellFormed = false := by decide
theorem test_wf_s512Stst_dst : (Instr.s512Stst 65536).wellFormed = false := by decide
theorem test_wf_hmacKey_src : (Instr.hmacKey 65536 0).wellFormed = false := by decide
theorem test_wf_hmacKey_len : (Instr.hmacKey 0 (2 ^ 24)).wellFormed = false := by decide
theorem test_wf_hmacWrite_src : (Instr.hmacWrite 65536 0).wellFormed = false := by decide
theorem test_wf_hmacWrite_len : (Instr.hmacWrite 0 (2 ^ 24)).wellFormed = false := by decide
theorem test_wf_hmacFinal_dst : (Instr.hmacFinal 65536).wellFormed = false := by decide
theorem test_wf_largest : (Instr.s256Write 65535 (2 ^ 24 - 1)).wellFormed = true := by decide

/-! ## Decoding: words written out from 30_encoding.md R86 and R89 (R94 and VE-1 give most of them) -/

theorem test_decode_nop : decode 0x0000000000000000 = .ok .nop := by decide
theorem test_decode_s256Init : decode 0x0100000000000000 = .ok .s256Init := by decide
theorem test_decode_s256Write : decode 0x0210000000000003 = .ok (.s256Write 0x1000 3) := by decide
theorem test_decode_s256Final : decode 0x0300000100000000 = .ok (.s256Final 0x0100) := by decide
theorem test_decode_s256Xform : decode 0x0450000000000001 = .ok (.s256Xform 0x5000 1) := by decide
theorem test_decode_s256Ldst : decode 0x0520000000000001 = .ok (.s256Ldst 0x2000 1) := by decide
theorem test_decode_s256Stst : decode 0x0600005100000000 = .ok (.s256Stst 0x5100) := by decide
theorem test_decode_s512Init : decode 0x1100000000000000 = .ok .s512Init := by decide
theorem test_decode_s512Write : decode 0x1220010000000002 = .ok (.s512Write 0x2001 2) := by decide
theorem test_decode_s512Final : decode 0x1300003040000000 = .ok (.s512Final 0x3040) := by decide
theorem test_decode_s512Xform : decode 0x1402000000000002 = .ok (.s512Xform 0x0200 2) := by decide
theorem test_decode_s512Ldst : decode 0x1520000000000001 = .ok (.s512Ldst 0x2000 1) := by decide
theorem test_decode_s512Stst : decode 0x1600003000000000 = .ok (.s512Stst 0x3000) := by decide
theorem test_decode_hmacKey : decode 0x210000000000000C = .ok (.hmacKey 0 12) := by decide
theorem test_decode_hmacWrite : decode 0x2200200000000010 = .ok (.hmacWrite 0x0020 16) := by decide
theorem test_decode_hmacFinal : decode 0x2300000040000000 = .ok (.hmacFinal 0x0040) := by decide
theorem test_decode_hmacClear : decode 0x2400000000000000 = .ok .hmacClear := by decide

-- VE-1: the extreme operands, the reserved opcodes and the reserved fields.
theorem test_decode_largest : decode 0x02FFFF0000FFFFFF = .ok (.s256Write 0xFFFF 16777215) := by decide
theorem test_decode_illegal_07 : decode 0x0700000000000000 = .error .illegalOpcode := by decide
theorem test_decode_illegal_10 : decode 0x1000000000000000 = .error .illegalOpcode := by decide
theorem test_decode_illegal_25 : decode 0x2500000000000000 = .error .illegalOpcode := by decide
theorem test_decode_illegal_before_reserved : decode 0xFFFFFFFFFFFFFFFF = .error .illegalOpcode := by decide
theorem test_decode_nop_len : decode 0x0000000000000001 = .error .reservedField := by decide
theorem test_decode_init_src : decode 0x0100010000000000 = .error .reservedField := by decide
theorem test_decode_write_dst : decode 0x0210000001000003 = .error .reservedField := by decide
theorem test_decode_final_len : decode 0x0300000100000001 = .error .reservedField := by decide
theorem test_decode_stst_src : decode 0x16FFFF0000000000 = .error .reservedField := by decide
theorem test_decode_clear_dst : decode 0x240000FFFF000000 = .error .reservedField := by decide

-- R94 and R95.
theorem test_encode_write : encode (.s256Write 0x1000 3) = 0x0210000000000003 := by decide
theorem test_assemble_key : assemble "HMAC.KEY" [0, 12] = some 0x210000000000000C := by decide
theorem test_assemble_refuses : assemble "S256.FINAL" [65536] = none := by decide
theorem test_table_word : decodeTableWord 64 0x0500000000000000 = some (.s256Ldst 0 0) := by decide

/-! ## The functions of the transforms (40_sha256.md R107 to R116, 41_sha512.md R142 to R150) -/

theorem test_ch : ch (0x510e527f : BitVec 32) 0x9b05688c 0x1f83d9ab = 0x1f85c98c := by decide
theorem test_maj : maj (0x6a09e667 : BitVec 32) 0xbb67ae85 0x3c6ef372 = 0x3a6fe667 := by decide
-- V256-1, row 6a09e667.
theorem test_sigmas_256 :
    (bigSigma0of256 0x6a09e667, bigSigma1of256 0x6a09e667, smallSigma0of256 0x6a09e667, smallSigma1of256 0x6a09e667)
      = (0xce20b47e, 0x55b65510, 0xba0cf582, 0xcfe5da3c) := by decide
-- V512-1, row 510e527fade682d1.
theorem test_sigmas_512 :
    (bigSigma0of512 0x510e527fade682d1, bigSigma1of512 0x510e527fade682d1,
      smallSigma0of512 0x510e527fade682d1, smallSigma1of512 0x510e527fade682d1)
      = (0xca4a40a4e604afc1, 0x9427e33bb5c9dbca, 0x79743bc956056aef, 0x596c80955bcc793d) := by decide
-- 41_sha512.md R141: the first 32 bits of K512[t] equal K256[t].
theorem test_round_constants : (k512.take 64).map (fun k => k.extractLsb' 32 32) = k256 := by decide
-- R118 and R152: lengths at the padding boundary.
theorem test_pad_lengths :
    ((pad sha256 55).length, (pad sha256 56).length, (pad sha256 0).length,
      (pad sha512 111).length, (pad sha512 112).length, (pad sha512 0).length) = (9, 72, 64, 17, 144, 128) := by decide
-- V256-3: W16, W17, W63 of padded "abc".
theorem test_schedule_256 :
    let W := schedule sha256 (abc ++ pad sha256 3)
    (W.getD 0 0, W.getD 16 0, W.getD 17 0, W.getD 63 0) = (0x61626380, 0x61626380, 0x000f0000, 0x12b1edeb) := by decide
-- R116 and R150: the all-zero block.
theorem test_compress_256 : compress sha256 iv256 (List.replicate 64 0) =
    ⟨0xda5698be, 0x17b9b469, 0x62335799, 0x779fbeca, 0x8ce5d491, 0xc0d26243, 0xbafef9ea, 0x1837a9d8⟩ := by decide
theorem test_compress_512 : compress sha512 iv512 (List.replicate 128 0) =
    ⟨0xcf7881d5774acbe8, 0x533362e0fbc78070, 0x0267639d87460eda, 0x3086cb40e85931b0,
     0x717dc95288a023a3, 0x96bab2c14ce0b5e0, 0x6fc4fe04eae33e0b, 0x91f4d80cbd668bee⟩ := by decide
-- V256-6: the two padding blocks of 56 bytes.
theorem test_hash_two_blocks : hash sha256 (List.replicate 56 0x61) =
    beBytes 32 (0xb35439a4ac6f0948b6d6f9e3c6af0f5f590ce20f1bde7090ef7970686ec6738a : BitVec 256) := by decide

/-! ## One command each -/

theorem test_nop : after (execNop idle) (fun t => State.status t) = some 0x00000002 := by decide

-- R122: INIT leaves the finalized state; P6.
theorem test_s256Init : after (execS256Init { idle with s256 := finalizeInst sha256 absorbed256.s256 })
    (fun t => t.s256) = some (HashInst.initial iv256) := by decide

-- R123's example.
theorem test_s256Write : after (execS256Write 0x1000 3 (withBytesAt 0x1000 abc))
    (fun t => (t.s256.cnt, t.s256.buf, t.s256.h)) = some (3, abc, iv256) := by decide
-- VE-3: USE_AFTER_FINAL before RANGE.
theorem test_s256Write_after_final :
    after (execS256Write 0xFFFF 2 { idle with s256 := { idle.s256 with fin := true } })
      (fun t => (State.status t, t.errCmd)) = some (0x00040024, 0x02FFFF0000000002) := by decide

-- R124's example.
theorem test_s256Final : after (execS256Final 0x0100 absorbed256)
    (fun t => (bytesAt 0x0100 32 t, t.s256.cnt, State.status t)) =
    some (some (beBytes 32 (0xba7816bf8f01cfea414140de5dae2223b00361a396177a9cb410ff61f20015ad : BitVec 256)),
      64, 0x00000022) := by decide
-- VE-3: the first DST past the end.
theorem test_s256Final_range : after (execS256Final 0xFFE1 idle) (fun t => State.status t) = some 0x00030004 := by
  decide

-- P5: H is the "abc" digest, CNT stays 0.
theorem test_s256Xform : after (execS256Xform 0x5000 1 (withBytesAt 0x5000 (abc ++ pad sha256 3)))
    (fun t => (t.s256.h, t.s256.cnt)) =
    some (⟨0xba7816bf, 0x8f01cfea, 0x414140de, 0x5dae2223, 0xb00361a3, 0x96177a9c, 0xb410ff61, 0xf20015ad⟩, 0) := by
  decide
-- VE-3: a block count past the end.
theorem test_s256Xform_range : after (execS256Xform 0 1025 idle) (fun t => State.status t) = some 0x00030004 := by
  decide

-- V256-7: CNT = 64 · LEN, and the words come back.
theorem test_s256Ldst : after (execS256Ldst 0x2000 1 (withBytesAt 0x2000 (chainBytes iv256)))
    (fun t => (t.s256.h, t.s256.cnt, t.s256.buf, t.s256.fin)) = some (iv256, 64, [], false) := by decide
theorem test_s256Ldst_unwritten : faultOf (execS256Ldst 0x2000 1 idle) = some (.readUnwritten 0x2000 32) := by decide

-- R122's example.
theorem test_s256Stst : after (execS256Stst 0 idle) (bytesAt 0 32) =
    some (some (beBytes 32 (0x6a09e667bb67ae853c6ef372a54ff53a510e527f9b05688c1f83d9ab5be0cd19 : BitVec 256))) := by
  decide

theorem test_s512Init : after (execS512Init { idle with s512 := finalizeInst sha512 absorbed512.s512 })
    (fun t => t.s512) = some (HashInst.initial iv512) := by decide

-- R157's example.
theorem test_s512Write : after (execS512Write 0x1000 3 (withBytesAt 0x1000 abc))
    (fun t => (t.s512.cnt, t.s512.buf)) = some (3, abc) := by decide

-- R158's example.
theorem test_s512Final : after (execS512Final 0x0100 absorbed512)
    (fun t => (bytesAt 0x0100 64 t, t.s512.cnt, State.status t)) =
    some (some (beBytes 32 (0xddaf35a193617abacc417349ae20413112e6fa4e89a97ea20a9eeee64b55d39a : BitVec 256)
      ++ beBytes 32 (0x2192992a274fc1a836ba3c23a3feebbd454d4423643ce80e2a9ac94fa54ca49f : BitVec 256)),
      128, 0x00000042) := by decide
theorem test_s512Final_range : after (execS512Final 0xFFC1 idle) (fun t => State.status t) = some 0x00030004 := by
  decide

-- V512-7.
theorem test_s512Xform : after (execS512Xform 0 1 (withBytesAt 0 (abc ++ pad sha512 3)))
    (fun t => (t.s512.h.a, t.s512.h.h, t.s512.cnt)) = some (0xddaf35a193617aba, 0x2a9ac94fa54ca49f, 0) := by decide
theorem test_s512Xform_range : after (execS512Xform 0x80 512 idle) (fun t => State.status t) = some 0x00030004 := by
  decide

-- R160's example.
theorem test_s512Ldst : after (execS512Ldst 0 0 (withBytesAt 0 (chainBytes iv512)))
    (fun t => t.s512) = some (HashInst.initial iv512) := by decide

-- P2.
theorem test_s512Stst : after (execS512Stst 0x3000 absorbed512) (bytesAt 0x3000 64) =
    some (some (beBytes 32 (0x6a09e667f3bcc908bb67ae8584caa73b3c6ef372fe94f82ba54ff53a5f1d36f1 : BitVec 256)
      ++ beBytes 32 (0x510e527fade682d19b05688c2b3e6c1f1f83d9abfb41bd6b5be0cd19137e2179 : BitVec 256))) := by
  decide

-- VH-2.
theorem test_hmacKey : after (execHmacKey 0 12 (withBytesAt 0 masterKeyString))
    (fun t => (t.hi.cnt, t.ho.cnt, t.hi.h.a, t.ho.h.a, State.status t)) =
    some (128, 128, 0x2e2af459060c1873, 0xbbd27bac212e9dbd, 0x00000082) := by decide
-- VE-3.
theorem test_hmacKey_range : after (execHmacKey 0 65537 idle) (fun t => State.status t) = some 0x00030004 := by decide

-- VH-3: NOT_KEYED before RANGE.
theorem test_hmacWrite_not_keyed : after (execHmacWrite 0xFFFF 2 idle) (fun t => State.status t) = some 0x00050004 := by
  decide
theorem test_hmacWrite : after (execHmacWrite 0x20 3 { keyed with mem := Memory.writeBytes [] 0x20 abc })
    (fun t => (t.hi.cnt, t.hi.buf)) = some (131, abc) := by decide

-- VH-5: the master key of BIP32 test vector 1.
theorem test_hmacFinal : after
    (execHmacFinal 0x40 { keyed with hi := absorb sha512 keyed.hi [0, 1, 2, 3, 4, 5, 6, 7, 8, 9, 10, 11, 12, 13, 14, 15] })
    (fun t => (bytesAt 0x40 64 t, State.status t)) =
    some (some (beBytes 32 (0xe8f32e723decf4051aefac8e2c93c9c5b214313817cdb01a1494b917c8436b35 : BitVec 256)
      ++ beBytes 32 (0x873dff81c02f525623fd1fe5167eac3a55a049de3d314bb42ee227ffed37d508 : BitVec 256)),
      0x00000182) := by decide
-- VH-1, case K129: a key longer than the block is hashed first.
theorem test_hmac_long_key :
    hmac512 ((List.range 129).map (BitVec.ofNat 8)) abc =
    beBytes 32 (0x767a0a8da500b0f4b08ac06b7535b29cb7f4449beee8e8094e8cb6e8fa7c5104 : BitVec 256)
      ++ beBytes 32 (0x9f9964e868da0504100c0ffb79a8f6542d8ed75b096472bd667ece4522d8cd3f : BitVec 256) := by
  decide

-- VH-3.
theorem test_hmacClear : after (execHmacClear keyed) (fun t => (t.hkeyed, t.hi, State.status t)) =
    some (false, HashInst.initial (zeroWords 64), 0x00000002) := by decide

/-! ## The host's side -/

-- VR-1 and VR-3: STATUS during the self-test and after it.
theorem test_reset_status : State.status State.reset = 0x00000001 := by decide
theorem test_selftest_fails :
    State.status (selfTestEnd (State.afterReset { Params.default with selfTestPass := false } [] [] 0 1)) = 0x00080014 := by
  decide

-- VR-2: the little-endian window and a one-byte strobe.
theorem test_window_write : after (hostWrite 0x10000 0x44332211 0xF idle) (bytesAt 0 4) =
    some (some [0x11, 0x22, 0x33, 0x44]) := by decide
theorem test_window_strobe :
    after (hostWrite 0x10000 0xAABBCCDD 0x2 (withBytesAt 0 [0x11, 0x22, 0x33, 0x44])) (bytesAt 0 4) =
    some (some [0x11, 0xcc, 0x33, 0x44]) := by decide
theorem test_window_read : after (hostRead 0x10000 (withBytesAt 0 [0x11, 0xcc, 0x33, 0x44])) (fun t => t.reads) =
    some [0x4433CC11] := by decide
theorem test_misaligned : refusalOf (hostRead 0x10001 idle) = some .misalignedAccess := by decide
theorem test_partial_strobe : refusalOf (hostWrite 0x00008 1 0x1 idle) = some .partialStrobe := by decide
theorem test_busy_mem_write : faultOf (hostWrite 0x11000 0 0xF State.reset) = some .memWriteWhileBusy := by decide

-- VE-2: overrun, illegal opcode; VE-3: discard.
theorem test_overrun :
    (let t := issue 0x0100000000000000 { idle with busy := true, inflight := some 0 }
     (State.status t, t.errCmd)) = (0x00070005, 0x0100000000000000) := by decide
theorem test_illegal : State.status (issue 0x0700000000000000 idle) = 0x00010004 := by decide
theorem test_discard :
    (let t := issue 0x0100000000000000 (issue 0x0700000000000000 idle)
     (State.status t, t.errCmd)) = (0x0001000C, 0x0700000000000000) := by decide
theorem test_accept : State.status (issue 0x0000000000000000 idle) = 0x00000001 := by decide

-- VR-3: DONE_CLR and ERR_CLR with the enables kept.
theorem test_ctrl_clear :
    State.status (writeCtrl 0x00000303
      { idle with s256 := { idle.s256 with fin := true }, done := true, ieDone := true, ieErr := true,
                  err := true, errLost := true, errCode := .useAfterFinal, errCmd := 0x0210000000000003 })
      = 0x00000020 := by decide
-- VR-4: soft reset keeps a fatal self-test and clears ERR_LOST.
theorem test_soft_reset_fatal :
    State.status (softReset { idle with fatal := true, err := true, errCode := .selftestFail, errLost := true })
      = 0x00080014 := by decide

-- A host turn reads STATUS.
theorem test_step_reads : after (step { idle with host := [.read 0x04] }) (fun t => (t.reads, t.host)) =
    some ([0x00000000], []) := by decide
-- The next step runs the word placed, and completes it.
theorem test_step_runs_placed : after (step (State.reset.withFetchWord 64 0x0100000000000000))
    (fun t => State.status t) = some 0x00000002 := by decide

-- P1: the POKE of "abc" is one write with three strobes.
theorem test_poke : poke 0x1000 abc = [.write 0x11000 0x00636261 0x7] := by decide
-- R199 with log 21: the aligned words that four bytes at 0xFFE touch.
theorem test_peek : peek 0x0FFE 4 = [.read 0x10FFC, .read 0x11000] := by decide
-- R60 and R72: the first and the last register offset of a block at 0x40000000, and the first address after it.
theorem test_bus_offset :
    let p := { Params.default with blockBase := 0x40000000 }
    (busOffset p 0x40000000, busOffset p 0x4001FFFC, busOffset p 0x40020000, busOffset p 0x3FFFFFFC)
      = (some 0x00000, some 0x1FFFC, none, none) := by decide
-- R97: the two writes of an issue.
theorem test_issue_actions : issueActions 0x0210000000000003 =
    [.write 0x10 0x00000003 0xF, .write 0x14 0x02100000 0xF, .wait] := by decide

/-! ## Witnesses: for each statement with hypotheses, a state and operands that meet them together -/

/-- A block in which `w` is in flight, `n` host turns before its completion. -/
def inFlight (w : Command) (n : Nat) (s : State) : State := { s with busy := true, inflight := some w, wait := n }

/-- A block whose self-test failed. -/
def fatalBlock : State :=
  { State.afterReset { Params.default with selfTestPass := false } [] [] 0 1 with
    busy := false, fatal := true, err := true, errCode := .selftestFail }

/-- An idle block with the smallest MEM. -/
def smallIdle : State := { State.afterReset { Params.default with memSize := 4096 } [] [] 0 1 with busy := false }

/-- A keyed block in which the first 128 bytes of MEM are written. -/
def loaded : State := { keyed with mem := Memory.writeBytes [] 0 (List.replicate 128 0x61) }

/-- One command of every kind, each with a span inside the first 128 bytes of MEM. -/
def oneOfEach : List Instr :=
  [.nop, .s256Init, .s256Write 0 128, .s256Final 96, .s256Xform 0 2, .s256Ldst 96 3, .s256Stst 96,
   .s512Init, .s512Write 1 127, .s512Final 64, .s512Xform 0 1, .s512Ldst 64 0, .s512Stst 64,
   .hmacKey 128 0, .hmacWrite 5 0, .hmacFinal 0, .hmacClear]

/-- An idle block meets the invariant. -/
theorem inv_idle : State.Inv idle where
  params_valid := by decide
  buffers := by decide
  memory := by unfold State.memoryOk; decide
  counters := by unfold State.countersOk; decide
  errorRecord := by unfold State.errorRecordOk; decide
  inflight := by intro w h; cases h
  selfTest := by intro h; cases h
  hmac := by intro _; exact ⟨rfl, rfl, rfl⟩

/-- So does a block with a command in flight. -/
theorem inv_inFlight (n : Nat) : State.Inv (inFlight 0x0100000000000000 n idle) where
  params_valid := inv_idle.params_valid
  buffers := inv_idle.buffers
  memory := inv_idle.memory
  counters := inv_idle.counters
  errorRecord := ⟨inv_idle.errorRecord.1, inv_idle.errorRecord.2.1, fun h => by cases h⟩
  inflight := by intro w h; cases h; exact ⟨rfl, .s256Init, by decide, rfl⟩
  selfTest := by intro h; cases h
  hmac := by intro _; exact ⟨rfl, rfl, rfl⟩

/-- So does a block whose self-test failed. -/
theorem inv_fatal : State.Inv fatalBlock where
  params_valid := by decide
  buffers := by decide
  memory := by unfold State.memoryOk; decide
  counters := by unfold State.countersOk; decide
  errorRecord := by unfold State.errorRecordOk; decide
  inflight := by intro w h; cases h
  selfTest := by intro h; cases h
  hmac := by intro _; exact ⟨rfl, rfl, rfl⟩

/-- The host's queue is no part of the invariant. -/
theorem inv_host (s : State) (host : List HostAction) (h : State.Inv s) : State.Inv { s with host := host } := by
  obtain ⟨h1, h2, h3, h4, h5, h6, h7, h8⟩ := h
  refine ⟨h1, h2, h3, h4, h5, ?_, h7, h8⟩
  intro w hw
  obtain ⟨hb, i, hi, hc⟩ := h6 w hw
  exact ⟨hb, i, hi, by cases i <;> exact hc⟩

theorem witness_DecodeOfEncode :
    (Instr.s512Ldst 65535 (2 ^ 24 - 1)).wellFormed = true ∧ (Instr.hmacFinal 65535).wellFormed = true := by decide
theorem witness_EncodeOfDecode : decode 0x02FFFF0000FFFFFF = .ok (.s256Write 0xFFFF 16777215) := by decide
theorem witness_MaskAndMatchAgreeWithDecode : ∃ r ∈ opcodeTable,
    (0x02FFFF0000FFFFFF : Command) &&& r.mask = r.pattern ∧
    decode 0x02FFFF0000FFFFFF = .ok (.s256Write 0xFFFF 16777215) ∧
    (Instr.s256Write 0xFFFF 16777215).mnemonic = r.mnemonic := by decide
theorem witness_ReservedOpcodesAreIllegal : State.ready idle = true ∧
    ∀ w ∈ [0x07, 0x10, 0x17, 0x20, 0x25, 0xFF], reservedOpcode (pack w 0 0 0) = true := by decide
theorem witness_listed_opcodes_are_not_reserved :
    ∀ w ∈ [0x00, 0x06, 0x11, 0x16, 0x21, 0x24], reservedOpcode (pack w 0 0 0) = false := by decide
theorem witness_ReservedFieldsAreRefused : State.ready idle = true ∧
    reservedOpcode 0x0000010000000000 = false ∧ reservedFieldSet 0x0000010000000000 = true := by decide
theorem witness_ReservedFieldsAreRefused_dst :
    reservedOpcode 0x0210000001000003 = false ∧ reservedFieldSet 0x0210000001000003 = true := by decide
theorem witness_ReservedFieldsAreRefused_len :
    reservedOpcode 0x2300000100000001 = false ∧ reservedFieldSet 0x2300000100000001 = true := by decide
theorem witness_AssemblerRefusesWhatDoesNotFit :
    (parseLine "S256.WRITE" [65535, 16777215] = some (.s256Write 65535 16777215) ∧
      (Instr.s256Write 65535 16777215).wellFormed = true) ∧
    (parseLine "S256.WRITE" [0, 16777216] = some (.s256Write 0 16777216) ∧
      (Instr.s256Write 0 16777216).wellFormed = false) := by decide
-- V256-3: W15 is the last word taken from the block, W16 the first computed one.
theorem witness_MessageSchedules :
    (let W := schedule sha256 (abc ++ pad sha256 3); (W.getD 15 0, W.getD 16 0)) = (0x00000018, 0x61626380) := by decide
-- V512-3: the same of SHA-512.
theorem witness_MessageSchedules_512 :
    (let W := schedule sha512 (abc ++ pad sha512 3); (W.getD 15 0, W.getD 16 0))
      = (0x0000000000000018, 0x6162638000000000) := by decide
theorem witness_CompressRunsEveryRound : (0 < 64 ∧ 63 < 64) ∧ (0 < 80 ∧ 79 < 80) := by decide
theorem witness_MultiBlockIsBlockByBlock :
    ((List.replicate 64 0 : List Byte).length = 64 * 1 ∧ (List.replicate 64 0 : List Byte).length = 64) ∧
    ((List.replicate 128 0 : List Byte).length = 128 * 1 ∧ (List.replicate 128 0 : List Byte).length = 128) := by decide
theorem witness_Paddings : 0 ≤ lengthLimit ∧ 55 ≤ lengthLimit ∧ 56 ≤ lengthLimit ∧ lengthLimit ≤ lengthLimit := by
  decide
theorem witness_DigestBytesAreBigEndian :
    (chainBytes iv256).getD (4 * 7 + 3) 0 = 0x19 ∧ (chainBytes iv512).getD (8 * 7 + 7) 0 = 0x79 := by decide
theorem witness_AbsorbingStreams : abc.length + abc.length ≤ lengthLimit := by decide

theorem witness_PlainWritesAbsorb : (withBytesAt 0xFFFD abc).s256.fin = false ∧
    (withBytesAt 0xFFFD abc).s512.fin = false ∧ inRange (withBytesAt 0xFFFD abc) 0xFFFD 3 ∧
    (withBytesAt 0xFFFD abc).s256.cnt.toNat + 3 ≤ lengthLimit ∧
    (withBytesAt 0xFFFD abc).s512.cnt.toNat + 3 ≤ lengthLimit ∧
    Memory.readBytes (withBytesAt 0xFFFD abc).mem 0xFFFD 3 = some abc := by unfold inRange; decide
theorem witness_PlainWritesAbsorb_nothing : inRange idle 0xFFFF 0 ∧ Memory.readBytes idle.mem 0xFFFF 0 = some [] := by
  unfold inRange; decide
theorem witness_HmacWriteAbsorbs : loaded.hkeyed = true ∧ loaded.hfin = false ∧ inRange loaded 125 3 ∧
    loaded.hi.cnt.toNat + 3 ≤ lengthLimit ∧ Memory.readBytes loaded.mem 125 3 = some [0x61, 0x61, 0x61] := by
  unfold inRange; decide
theorem witness_PlainFinalsStoreTheDigest :
    (absorbed256.s256.fin = false ∧ 0xFFE0 + 32 ≤ absorbed256.params.memSize ∧
      HashInst.bufferOk 64 absorbed256.s256 = true ∧ absorbed256.s256.cnt.toNat ≤ lengthLimit) ∧
    (absorbed512.s512.fin = false ∧ 0xFFC0 + 64 ≤ absorbed512.params.memSize ∧
      HashInst.bufferOk 128 absorbed512.s512 = true ∧ absorbed512.s512.cnt.toNat ≤ lengthLimit) := by decide
theorem witness_HmacFinalStoresTheMac :
    keyed.hkeyed = true ∧ keyed.hfin = false ∧ 0xFFC0 + 64 ≤ keyed.params.memSize := by decide
theorem witness_XformTouchesOnlyH :
    (inRange loaded 64 (64 * 1) ∧ Memory.readBytes loaded.mem 64 (64 * 1) = some (List.replicate 64 0x61)) ∧
    (inRange loaded 0 (128 * 1) ∧ Memory.readBytes loaded.mem 0 (128 * 1) = some (List.replicate 128 0x61)) := by
  unfold inRange; decide
theorem witness_XformTouchesOnlyH_nothing :
    inRange idle 0xFFFF (64 * 0) ∧ Memory.readBytes idle.mem 0xFFFF (64 * 0) = some [] := by unfold inRange; decide
theorem witness_LdstLoadsTheChainingState :
    (0xFFE0 + 32 ≤ (withBytesAt 0xFFE0 (chainBytes iv256)).params.memSize ∧ 2 ^ 24 - 1 < 2 ^ 24 ∧
      Memory.readBytes (withBytesAt 0xFFE0 (chainBytes iv256)).mem 0xFFE0 32 = some (chainBytes iv256)) ∧
    (0xFFC0 + 64 ≤ (withBytesAt 0xFFC0 (chainBytes iv512)).params.memSize ∧ 2 ^ 24 - 1 < 2 ^ 24 ∧
      Memory.readBytes (withBytesAt 0xFFC0 (chainBytes iv512)).mem 0xFFC0 64 = some (chainBytes iv512)) := by decide
theorem witness_StstStoresTheChainingState :
    0xFFE0 + 32 ≤ idle.params.memSize ∧ 0xFFC0 + 64 ≤ idle.params.memSize := by decide
theorem witness_StoredMidstateLoadsBack :
    (0xFFE0 + 32 ≤ idle.params.memSize ∧ 1 < 2 ^ 24 ∧
      (absorb sha256 idle.s256 (List.replicate 64 0x61)).cnt.toNat = 64 * 1 ∧
      (absorb sha256 idle.s256 (List.replicate 64 0x61)).buf = [] ∧
      (absorb sha256 idle.s256 (List.replicate 64 0x61)).fin = false) ∧
    (0xFFC0 + 64 ≤ idle.params.memSize ∧ 0 < 2 ^ 24 ∧ idle.s512.cnt.toNat = 128 * 0 ∧ idle.s512.buf = [] ∧
      idle.s512.fin = false) := by decide
theorem witness_HmacKeyKeysBothInstances : (withBytesAt 0 masterKeyString).params.valid = true ∧
    inRange (withBytesAt 0 masterKeyString) 0 12 ∧
    Memory.readBytes (withBytesAt 0 masterKeyString).mem 0 12 = some masterKeyString := by unfold inRange; decide

theorem witness_StreamingEquivalence :
    let s := { idle with mem := Memory.writeBytes (Memory.writeBytes [] 0 abc) 0x100 abc }
    let u := withBytesAt 0x20 (abc ++ abc)
    s.params.valid = true ∧ u.params.valid = true ∧ inRange s 0 3 ∧ inRange s 0x100 3 ∧
    (0xFFE0 + 32 ≤ s.params.memSize ∧ 0xFFC0 + 64 ≤ s.params.memSize) ∧
    Memory.readBytes s.mem 0 3 = some abc ∧ Memory.readBytes s.mem 0x100 3 = some abc ∧ inRange u 0x20 (3 + 3) ∧
    (0xFFE0 + 32 ≤ u.params.memSize ∧ 0xFFC0 + 64 ≤ u.params.memSize) ∧
    Memory.readBytes u.mem 0x20 (3 + 3) = some (abc ++ abc) := by unfold inRange; decide
theorem witness_HmacStoresTheStandardMac :
    let writes : List (Nat × Nat × List Byte) := [(0, 1, [0x61]), (3, 0, [])]
    loaded.params.valid = true ∧ inRange loaded 1 2 ∧ 0x40 + 64 ≤ loaded.params.memSize ∧
    Memory.readBytes loaded.mem 1 2 = some [0x61, 0x61] ∧
    (∀ x ∈ writes, inRange loaded x.1 x.2.1 ∧ Memory.readBytes loaded.mem x.1 x.2.1 = some x.2.2) ∧
    128 + (writes.flatMap fun x => x.2.2).length ≤ lengthLimit := by unfold inRange; decide
theorem witness_DoubleHashPseudoInstruction : loaded.params.valid = true ∧ 0x20 + 64 ≤ loaded.params.memSize ∧
    0 + 32 ≤ loaded.params.memSize ∧ Memory.readBytes loaded.mem 0x20 64 = some (List.replicate 64 0x61) := by decide

theorem witness_EveryCommandCompletes_checks : ∀ i ∈ oneOfEach, commandError i loaded = none := by decide
theorem loaded_bytes : ∀ x < 128, (Memory.read loaded.mem x).isSome = true := by decide
theorem oneOfEach_spans : ∀ i ∈ oneOfEach, (readSpan i).all (fun p => decide (p.1 + p.2 ≤ 128)) = true := by decide
theorem witness_EveryCommandCompletes (i : Instr) (h : i ∈ oneOfEach) : commandError i loaded = none ∧
    ∀ x, inSpan (readSpan i) x = true → (Memory.read loaded.mem x).isSome = true := by
  refine ⟨witness_EveryCommandCompletes_checks i h, fun x hx => loaded_bytes x ?_⟩
  have := oneOfEach_spans i h
  cases hs : readSpan i with
  | none => simp [hs, inSpan] at hx
  | some p =>
    obtain ⟨a, n⟩ := p
    simp [hs, inSpan] at hx this
    omega
theorem witness_UnwrittenReadsFault : commandError (.s256Write 126 3) loaded = none ∧
    readSpan (.s256Write 126 3) = some (126, 3) ∧ 126 ≤ 128 ∧ 128 < 126 + 3 ∧ Memory.read loaded.mem 128 = none := by
  decide
theorem witness_CommandsDependOnTheirReadSpan :
    (∀ x, inSpan (readSpan .s256Init) x = true → Memory.read idle.mem x = Memory.read loaded.mem x) ∧
    (∃ t, exec .s256Init loaded = .next t) ∧ commandError (.s256Final 0) loaded = none ∧
    inSpan (writeSpan (.s256Final 0)) 31 = true := by
  exact ⟨fun x h => by simp [readSpan, inSpan] at h, ⟨_, rfl⟩, by decide, by decide⟩
theorem witness_HmacIgnoresThePlainInstances :
    (∃ t, exec .hmacClear keyed = .next t) ∧ ∃ r, exec (.hmacKey 0 1) keyed = .fault r := ⟨⟨_, rfl⟩, _, rfl⟩

theorem witness_ErrorsArePrecise :
    commandError (.hmacFinal 0) idle = some .notKeyed ∧
    commandError (.s256Final 0) { idle with s256 := { idle.s256 with fin := true } } = some .useAfterFinal ∧
    commandError (.s512Stst 0xFFC1) idle = some .range ∧
    commandError (.s512Write 0 1) { idle with s512 := { idle.s512 with cnt := BitVec.ofNat 64 lengthLimit } }
      = some .lengthLimit := by decide
theorem witness_IssueFollowsThePriority_stopped :
    fatalBlock.fatal = true ∧ (issue 0x0700000000000000 idle).err = true ∧
    (State.reset.fatal = false ∧ State.reset.err = false ∧ State.reset.busy = true) := by decide
theorem witness_IssueFollowsThePriority_decode : State.ready idle = true ∧ reservedOpcode 0x0700000000000000 = true ∧
    (reservedOpcode 0x0000000000000001 = false ∧ reservedFieldSet 0x0000000000000001 = true) ∧
    (reservedOpcode 0x2200200000000010 = false ∧ reservedFieldSet 0x2200200000000010 = false) := by decide
theorem witness_IssueFollowsThePriority_key : State.ready idle = true ∧ usesMissingKey (.hmacWrite 0x20 16) idle :=
  ⟨rfl, rfl, .inl ⟨_, _, rfl⟩⟩
theorem witness_IssueFollowsThePriority_final :
    let s := { keyed with hfin := true }
    State.ready s = true ∧ ¬ usesMissingKey (.hmacWrite 0xFFFF 2) s ∧ usesFinalized (.hmacWrite 0xFFFF 2) s :=
  ⟨rfl, by simp [usesMissingKey, keyed], .inr (.inr ⟨rfl, .inl ⟨_, _, rfl⟩⟩)⟩
theorem witness_IssueFollowsThePriority_range : State.ready idle = true ∧ ¬ usesMissingKey (.s256Write 0xFFFF 2) idle ∧
    ¬ usesFinalized (.s256Write 0xFFFF 2) idle ∧ passesMemory (.s256Write 0xFFFF 2) idle :=
  ⟨rfl, by simp [usesMissingKey], by simp [usesFinalized, idle, State.afterReset, HashInst.initial],
    0xFFFF, 2, .inl rfl, by decide, by decide⟩
theorem witness_IssueFollowsThePriority_limit :
    let s := { idle with s256 := { idle.s256 with cnt := BitVec.ofNat 64 lengthLimit } }
    State.ready s = true ∧ ¬ usesMissingKey (.s256Write 0xFFFF 1) s ∧ ¬ usesFinalized (.s256Write 0xFFFF 1) s ∧
    ¬ passesMemory (.s256Write 0xFFFF 1) s ∧ passesLimit (.s256Write 0xFFFF 1) s := by
  refine ⟨rfl, by simp [usesMissingKey], by simp [usesFinalized, idle, State.afterReset, HashInst.initial], ?_, .inl ⟨_, _, rfl, by decide⟩⟩
  simp [passesMemory, readSpan, writeSpan, idle, State.afterReset, Params.default]
theorem witness_IssueFollowsThePriority_accepted : State.ready idle = true ∧
    ¬ usesMissingKey (.s256Write 0xFFFF 1) idle ∧ ¬ usesFinalized (.s256Write 0xFFFF 1) idle ∧
    ¬ passesMemory (.s256Write 0xFFFF 1) idle ∧ ¬ passesLimit (.s256Write 0xFFFF 1) idle := by
  refine ⟨rfl, by simp [usesMissingKey], by simp [usesFinalized, idle, State.afterReset, HashInst.initial], ?_, ?_⟩
  · simp [passesMemory, readSpan, writeSpan, idle, State.afterReset, Params.default]
  · simp [passesLimit, idle, State.afterReset, HashInst.initial, lengthLimit]
-- 60_exceptions.md R209: the last span that fits, the first that does not, and an empty one.
theorem witness_RangeIsExact :
    ¬ usesMissingKey (.s256Xform 0xFFC0 1) idle ∧ ¬ usesFinalized (.s256Xform 0xFFC0 1) idle ∧
    commandError (.s256Xform 0xFFC0 1) idle = none ∧ commandError (.s256Xform 0xFFC1 1) idle = some .range ∧
    commandError (.s256Xform 0x1001 0) smallIdle = none := by
  exact ⟨by simp [usesMissingKey], by simp [usesFinalized], by decide, by decide, by decide⟩
theorem witness_CtrlWrite : (0x80000000 : Word32).getLsbD 31 = true ∧
    ((0x00000303 : Word32).getLsbD 31 = false ∧ (0x00000303 : Word32).getLsbD 9 = true ∧ idle.fatal = false) ∧
    ((0x00000103 : Word32).getLsbD 9 = false ∧ fatalBlock.fatal = true) := by decide
theorem witness_AcceptedCommandsCannotFail : State.Inv (inFlight 0x0100000000000000 0 idle) ∧
    (inFlight 0x0100000000000000 0 idle).inflight = some 0x0100000000000000 ∧
    (inFlight 0x0100000000000000 0 idle).wait = 0 := ⟨inv_inFlight 0, rfl, rfl⟩

theorem witness_StatusFields : (10 ≤ 10 ∧ 15 < 16) ∧ 20 ≤ 20 := by decide
theorem witness_ReadsChangeNothing : (0x00 : BitVec 17).toNat % 4 = 0 ∧ (0x1FFFC : BitVec 17).toNat % 4 = 0 := by decide
theorem witness_ReservedAndReadOnlyRegisters : (0x00030 : BitVec 17).toNat % 4 = 0 ∧ 0x30 ≤ (0x00030 : BitVec 17).toNat ∧
    (0x0FFFC : BitVec 17).toNat % 4 = 0 ∧ (0x0FFFC : BitVec 17).toNat < 0x10000 := by decide
theorem witness_ReservedAndReadOnlyRegisters_listed : (0x0002C : BitVec 17).toNat % 4 = 0 ∧
    (0x0002C : BitVec 17).toNat ∈ [0x00, 0x04, 0x0C, 0x18, 0x1C, 0x20, 0x24, 0x28, 0x2C] := by decide
theorem witness_RegisterReads : idle.busy = false ∧ State.reset.busy = true := by decide
theorem witness_WindowReads :
    let s := withBytesAt 0xFFFC [1, 2, 3, 4]
    (4 * 0x3FFF < 0x10000 ∧ 4 * 0x3FFF + 3 < s.params.memSize ∧ (∀ j, j < 4 → State.settled s (4 * 0x3FFF + j)) ∧
      Memory.readBytes s.mem (4 * 0x3FFF) 4 = some [1, 2, 3, 4]) ∧
    (4 * 0x400 < 0x10000 ∧ smallIdle.params.memSize ≤ 4 * 0x400) := by unfold State.settled; decide
-- BUSY = 1 with S256.FINAL 0x0100 in flight: 0x11F is its last byte, 0x120 the first settled one, 0x121 unwritten.
theorem witness_WindowReads_byte :
    let s := inFlight 0x0300000100000000 5 (withBytesAt 0x11F [1, 2])
    s.busy = true ∧ 4 * 0x48 + 3 < s.params.memSize ∧ ¬ State.settled s (4 * 0x47 + 3) ∧
    Memory.read s.mem (4 * 0x48 + 0) = some 2 ∧ State.settled s (4 * 0x48 + 0) ∧
    Memory.read s.mem (4 * 0x48 + 1) = none := by unfold State.settled; decide
theorem witness_WindowWrites :
    (4 * 0x3FFF < 0x10000 ∧ idle.busy = false ∧ 4 * 0x3FFF + 3 < idle.params.memSize) ∧
    (4 * 0x3FF + 3 < smallIdle.params.memSize ∧ smallIdle.busy = false) ∧
    (4 * 0x400 < 0x10000 ∧ smallIdle.params.memSize ≤ 4 * 0x400) ∧
    ((0x1 : BitVec 4).getLsbD 0 = true ∧ (0x1 : BitVec 4).getLsbD 3 = false) := by decide
theorem witness_DrawnReads_counter : State.reset.busy = true ∧ (0x2C : BitVec 17).toNat ∈ [0x20, 0x24, 0x28, 0x2C] := by
  decide
theorem witness_DrawnReads_span : (inFlight 0x0300000100000000 5 idle).busy = true ∧
    4 * 0x47 + 3 < (inFlight 0x0300000100000000 5 idle).params.memSize ∧
    inSpan (inflightWriteSpan (inFlight 0x0300000100000000 5 idle)) (4 * 0x47 + 3) = true ∧
    inSpan (inflightWriteSpan (inFlight 0x0300000100000000 5 idle)) (4 * 0x48) = false := by decide
theorem witness_DrawnReads_unwritten : 4 * 0x3FFF + 3 < 0x10000 ∧ 4 * 0x3FFF + 3 < idle.params.memSize ∧
    Memory.read idle.mem (4 * 0x3FFF + 3) = none := by decide
theorem witness_StoppedAccesses :
    (0x10002 : BitVec 17).toNat % 4 ≠ 0 ∧
    ((0x0FFFC : BitVec 17).toNat % 4 = 0 ∧ (0x0FFFC : BitVec 17).toNat < 0x10000 ∧ (0x7 : BitVec 4) ≠ 0b1111) ∧
    ((0x10000 : BitVec 17).toNat % 4 = 0 ∧ 0x10000 ≤ (0x10000 : BitVec 17).toNat ∧ State.reset.busy = true) := by decide
theorem witness_SelfTestEnds :
    (let s := State.afterReset Params.default [] [] 0 1
     s.busy = true ∧ s.inflight = none ∧ s.wait = 0 ∧ s.params.selfTestPass = true) ∧
    (let s := State.afterReset { Params.default with memSize := 4096, selfTestPass := false } [] [] 0 1
     s.busy = true ∧ s.inflight = none ∧ s.wait = 0 ∧ s.params.selfTestPass = false) := by decide
theorem witness_SoftReset : (0x80000000 : Word32).getLsbD 31 = true ∧ State.selfTestRunning State.reset = true ∧
    State.selfTestRunning (inFlight 0x0300000100000000 5 loaded) = false ∧
    inSpan (inflightWriteSpan (inFlight 0x0300000100000000 5 loaded)) 0x11F = true ∧
    inSpan (inflightWriteSpan (inFlight 0x0300000100000000 5 loaded)) 0x120 = false := by decide
theorem witness_FatalIsForever :
    let s := { fatalBlock with host := [.write 0x08 0x00000200 0xF] }
    State.Inv s ∧ s.fatal = true ∧ s.host.head? ≠ some .hardwareReset ∧ ∃ t, step s = .next t := by
  exact ⟨inv_host _ _ inv_fatal, rfl, by decide, _, rfl⟩
theorem witness_StepRunsTheDecodedInstruction :
    let s := inFlight 0x0300000100000000 0 absorbed256
    s.busy = true ∧ s.inflight = some 0x0300000100000000 ∧ s.wait = 0 ∧
    decode 0x0300000100000000 = .ok (.s256Final 0x0100) ∧ (Instr.s256Final 0x0100).wellFormed = true := by decide
theorem witness_StepRunsTheDecodedInstruction_host :
    let s := inFlight 0x0300000100000000 5 absorbed256
    (idle.busy = false ∧ idle.host = []) ∧ s.wait ≠ 0 ∧
    (∀ act ∈ [HostAction.read 0x04, .write 0x08 0 0xF, .wait, .hardwareReset, .otherWidth 0],
      ({ s with host := [act] } : State).host = act :: []) := by decide
theorem witness_NothingMovesWhileBusy :
    let s := { inFlight 0x0300000100000000 5 absorbed256 with host := [.write 0x14 0x01000000 0xF] }
    s.busy = true ∧ s.wait ≠ 0 ∧ s.host.head?.any resetsBlock = false ∧ ∃ t, step s = .next t :=
  ⟨rfl, by decide, by decide, _, rfl⟩
/-- A block with the smallest MEM and a POKE that ends at its last byte. -/
def poking : State := { smallIdle with host := poke 0xFFB [1, 2, 3, 4, 5] ++ [HostAction.wait] }

theorem witness_PokeStoresItsBytes : poking.params.valid = true ∧ poking.busy = false ∧
    0xFFB + ([1, 2, 3, 4, 5] : List Byte).length ≤ poking.params.memSize ∧
    poking.host = poke 0xFFB [1, 2, 3, 4, 5] ++ [HostAction.wait] := by decide
theorem witness_IssueSequenceRunsTheCommand :
    let s := { idle with host := issueActions (encode .s512Init) ++ [.read 0x04] }
    (Instr.s512Init).wellFormed = true ∧ State.ready s = true ∧
    s.host = issueActions (encode .s512Init) ++ [.read 0x04] ∧ commandError .s512Init s = none ∧
    ∃ u, exec .s512Init s = .next u := ⟨rfl, rfl, rfl, rfl, _, rfl⟩
theorem witness_BuffersMatchCounters : State.buffersOk absorbed256 = true ∧ (∃ t, exec .nop absorbed256 = .next t) ∧
    ∃ t, step absorbed256 = .next t := ⟨by decide, ⟨_, rfl⟩, _, rfl⟩
theorem witness_MemoryStaysCanonical : Memory.wf (withBytesAt 0x1000 abc).mem ∧
    ∃ t, step ({ withBytesAt 0x1000 abc with host := [.write 0x10000 0 0xF] } : State) = .next t :=
  ⟨by decide, _, rfl⟩
theorem witness_ParametersNeverChange :
    (∃ t, step idle = .next t) ∧
    faultOf (step (State.afterReset Params.default [.write 0x10000 0 0xF] [] 1 1)) = some .memWriteWhileBusy ∧
    refusalOf (step { idle with host := [.read 0x00001] }) = some .misalignedAccess := ⟨⟨_, rfl⟩, by decide, by decide⟩
theorem witness_ParametersNeverChange_bus :
    let p := { Params.default with blockBase := 0x40000000 }
    busOffset p 0x4001FFFC = some 0x1FFFC ∧ busAddress p 0x1FFFC = 0x4001FFFC ∧ busOffset p 0x40020000 = none := by
  decide
theorem witness_InvariantKeptByEveryStep : State.Inv (inFlight 0x0100000000000000 0 idle) ∧
    ∃ t, step (inFlight 0x0100000000000000 0 idle) = .next t :=
  ⟨inv_inFlight 0, complete { inFlight 0x0100000000000000 0 idle with s256 := HashInst.initial iv256 }, rfl⟩
theorem witness_Bip32Layouts : (List.replicate 33 0 : List Byte).length = 33 ∧
    (List.replicate 32 0 : List Byte).length = 32 ∧ (List.replicate 64 0 : List Byte).length = 64 ∧
    (0x7FFFFFFF : BitVec 32).getLsbD 31 = false ∧ (0x80000000 : BitVec 32).getLsbD 31 = true := by decide

end Sys2Proof.Tests
end

/-!
PROOFS. The parameters of 00_scope.md R5: no operation changes them, and of BLOCK_BASE and IMPL_VARIANT only the
count-down can tell.
-/
namespace Sys2Proof.Machine

/-! ## No operation changes a parameter (R5) -/

@[simp] theorem passTurn_params (s : State) : (passTurn s).params = s.params := by
  rw [passTurn_shape]

@[simp] theorem selfTestEnd_params (s : State) : (selfTestEnd s).params = s.params := by
  unfold selfTestEnd
  split <;> rfl

@[simp] theorem hardwareReset_params (s : State) : (hardwareReset s).params = s.params := rfl

@[simp] theorem abort_params (s : State) : (abort s).params = s.params := by
  rw [abort_shape]

@[simp] theorem softReset_params (s : State) : (softReset s).params = s.params := by
  unfold softReset
  split
  · rfl
  · exact abort_params s

@[simp] theorem issue_params (w : Command) (s : State) : (issue w s).params = s.params := by
  obtain ⟨-, h⟩ | ⟨-, -, -, h⟩ | ⟨-, -, -, ⟨_, -, h⟩ | ⟨_, _, -, -, h⟩ | ⟨_, -, -, h⟩⟩ := issue_cases w s <;> simp [h]

@[simp] theorem writeCtrl_params (v : Word32) (s : State) : (writeCtrl v s).params = s.params := by
  obtain ⟨-, h⟩ | ⟨-, h⟩ := writeCtrl_cases v s <;> simp [h]

@[simp] theorem writeRegister_params (off : Nat) (v : Word32) (s : State) :
    (writeRegister off v s).params = s.params := by
  obtain ⟨-, h⟩ | ⟨-, h⟩ | ⟨-, h⟩ | h := writeRegister_cases off v s <;> simp [h, writeCmdHi]

@[simp] theorem writeWindow_params (a : Nat) (data : Word32) (wstrb : BitVec 4) (s : State) :
    (writeWindow a data wstrb s).params = s.params := by
  rw [writeWindow_eq]

theorem hostWrite_params {off : BitVec 17} {data : Word32} {wstrb : BitVec 4} {s t : State}
    (h : hostWrite off data wstrb s = .next t) : t.params = s.params := by
  obtain ⟨-, ⟨-, -, rfl⟩ | ⟨-, -, rfl⟩⟩ := hostWrite_cases h <;> simp

theorem hostRead_params {off : BitVec 17} {s t : State} (h : hostRead off s = .next t) : t.params = s.params := by
  rw [hostRead_cases h]

theorem hostAct_params {act : HostAction} {rest : List HostAction} {s t : State}
    (h : hostAct act rest s = .next t) : t.params = s.params := by
  obtain ⟨_, _, _, -, h⟩ | ⟨_, -, h⟩ | ⟨-, -, rfl⟩ | ⟨-, -, rfl⟩ | ⟨-, rfl⟩ := hostAct_cases h
  · rw [hostWrite_params h]
  · rw [hostRead_params h]
  · rfl
  · rfl
  · rfl

theorem exec_params {i : Instr} {s t : State} (h : exec i s = .next t) : t.params = s.params := by
  obtain ⟨_, -, h⟩ | ⟨-, h⟩ := exec_cases h <;> rw [h] <;> simp

theorem step_params {s t : State} (h : step s = .next t) : t.params = s.params := by
  obtain ⟨-, -, -, rfl⟩ | ⟨-, -, _, _, -, -, h⟩ | ⟨-, ⟨-, rfl⟩ | ⟨_, _, -, h⟩⟩ := step_cases h
  · exact selfTestEnd_params s
  · exact exec_params h
  · exact passTurn_params s
  · exact (hostAct_params h).trans (passTurn_params s)

/-! ## BLOCK_BASE and IMPL_VARIANT change no result (R9) -/

/-- The block with another BLOCK_BASE and IMPL_VARIANT and `wait` on the count-down: all that R9 lets differ. -/
def State.rebuiltAt (base : Nat) (variant : ImplVariant) (wait : Nat) (s : State) : State :=
  { State.rebuilt base variant s with wait := wait }

/-- An outcome with its next state rebuilt so. -/
def rebuiltOutcome (base : Nat) (variant : ImplVariant) (wait : Nat) :
    Host.Outcome State Fault Refusal → Host.Outcome State Fault Refusal :=
  mapNext (State.rebuiltAt base variant wait)

/-- Two branches that agree but for a count-down each agree under one condition. -/
theorem exists_wait_ite {α : Type} (f : Nat → α → α) {c : Prop} [Decidable c] {x y x' y' : α}
    (hx : ∃ wait, x' = f wait x) (hy : ∃ wait, y' = f wait y) :
    ∃ wait, (if c then x' else y') = f wait (if c then x else y) := by
  split
  · exact hx
  · exact hy

section
variable (base : Nat) (variant : ImplVariant) (s : State)

theorem rebuiltAt_wait : State.rebuiltAt base variant s.wait s = State.rebuilt base variant s := rfl

@[simp] theorem rebuilt_inflight : (State.rebuilt base variant s).inflight = s.inflight := rfl
@[simp] theorem rebuilt_host : (State.rebuilt base variant s).host = s.host := rfl

/-! What loads no LATENCY gives the same state. -/

theorem passTurn_rebuilt : passTurn (State.rebuilt base variant s) = State.rebuilt base variant (passTurn s) := by
  unfold passTurn
  rw [apply_ite (State.rebuilt base variant)]
  rfl

theorem selfTestEnd_rebuilt :
    selfTestEnd (State.rebuilt base variant s) = State.rebuilt base variant (selfTestEnd s) := by
  unfold selfTestEnd
  rw [apply_ite (State.rebuilt base variant)]
  rfl

theorem inflightWriteSpan_rebuilt : inflightWriteSpan (State.rebuilt base variant s) = inflightWriteSpan s := rfl

theorem abort_rebuilt : abort (State.rebuilt base variant s) = State.rebuilt base variant (abort s) := by
  simp only [abort, inflightWriteSpan_rebuilt]
  split <;> rfl

theorem softReset_rebuilt : softReset (State.rebuilt base variant s) = State.rebuilt base variant (softReset s) := by
  simp only [softReset, abort_rebuilt]
  rw [apply_ite (State.rebuilt base variant)]
  rfl

theorem writeCtrl_rebuilt (v : Word32) :
    writeCtrl v (State.rebuilt base variant s) = State.rebuilt base variant (writeCtrl v s) := by
  obtain ⟨hreset, h⟩ | ⟨hreset, h⟩ := writeCtrl_cases v s <;>
    obtain ⟨hreset', h'⟩ | ⟨hreset', h'⟩ := writeCtrl_cases v (State.rebuilt base variant s)
  · rw [h, h', softReset_rebuilt]
  · exact absurd (hreset.symm.trans hreset') (by decide)
  · exact absurd (hreset.symm.trans hreset') (by decide)
  · rw [h, h']
    rfl

theorem writeWindow_rebuilt (a : Nat) (data : Word32) (wstrb : BitVec 4) :
    writeWindow a data wstrb (State.rebuilt base variant s) =
      State.rebuilt base variant (writeWindow a data wstrb s) := by
  unfold writeWindow
  rw [apply_ite (State.rebuilt base variant)]
  rfl

theorem readCounter_rebuilt (v : Word32) :
    readCounter v (State.rebuilt base variant s) = State.rebuilt base variant (readCounter v s) := by
  unfold readCounter
  rw [apply_ite (State.rebuilt base variant)]
  rfl

theorem readRegister_rebuilt (off : Nat) :
    readRegister off (State.rebuilt base variant s) = State.rebuilt base variant (readRegister off s) := by
  unfold readRegister
  split
  case h_9 | h_10 | h_11 | h_12 => exact readCounter_rebuilt ..
  all_goals rfl

theorem readWindow_rebuilt (a : Nat) :
    readWindow a (State.rebuilt base variant s) = State.rebuilt base variant (readWindow a s) := by
  unfold readWindow
  rw [apply_ite (State.rebuilt base variant)]
  rfl

theorem hostRead_rebuilt (off : BitVec 17) :
    hostRead off (State.rebuilt base variant s) = mapNext (State.rebuilt base variant) (hostRead off s) := by
  simp only [hostRead, readRegister_rebuilt, readWindow_rebuilt]
  split
  · rfl
  · split <;> rfl

theorem engineStep_rebuilt :
    engineStep (State.rebuilt base variant s) = mapNext (State.rebuilt base variant) (engineStep s) := by
  simp only [engineStep, rebuilt_inflight, selfTestEnd_rebuilt, runCommand, exec_rebuilt]
  split
  · rfl
  · split <;> rfl

/-! An accepted command and hardware reset load the LATENCY of the variant, so there the count-down can differ. -/

theorem decodeAndCheck_rebuilt (w : Command) : ∃ wait,
    decodeAndCheck w (State.rebuilt base variant s) = State.rebuiltAt base variant wait (decodeAndCheck w s) := by
  simp only [decodeAndCheck, commandError_rebuilt]
  split
  · exact ⟨_, rfl⟩
  · split <;> exact ⟨_, rfl⟩

theorem issue_rebuilt (w : Command) : ∃ wait,
    issue w (State.rebuilt base variant s) = State.rebuiltAt base variant wait (issue w s) :=
  exists_wait_ite (State.rebuiltAt base variant) ⟨s.wait, rfl⟩
    (exists_wait_ite (State.rebuiltAt base variant) ⟨s.wait, rfl⟩ (decodeAndCheck_rebuilt base variant s w))

theorem writeCmdHi_rebuilt (v : Word32) : ∃ wait,
    writeCmdHi v (State.rebuilt base variant s) = State.rebuiltAt base variant wait (writeCmdHi v s) :=
  issue_rebuilt base variant { s with cmdHi := v } (v ++ s.cmdLo)

theorem writeRegister_rebuilt (off : Nat) (v : Word32) : ∃ wait,
    writeRegister off v (State.rebuilt base variant s) =
      State.rebuiltAt base variant wait (writeRegister off v s) := by
  unfold writeRegister
  split
  · rw [writeCtrl_rebuilt]
    exact ⟨_, (rebuiltAt_wait ..).symm⟩
  · exact ⟨s.wait, rfl⟩
  · exact writeCmdHi_rebuilt base variant s v
  · exact ⟨s.wait, rfl⟩

/-- An outcome that agrees but for BLOCK_BASE and IMPL_VARIANT agrees but for the count-down too. -/
theorem mapNext_rebuilt (x : Host.Outcome State Fault Refusal) : ∃ wait,
    mapNext (State.rebuilt base variant) x = rebuiltOutcome base variant wait x := by
  cases x with
  | next t => exact ⟨t.wait, rfl⟩
  | fault | refused => exact ⟨0, rfl⟩

theorem hostWrite_rebuilt (off : BitVec 17) (data : Word32) (wstrb : BitVec 4) : ∃ wait,
    hostWrite off data wstrb (State.rebuilt base variant s) =
      rebuiltOutcome base variant wait (hostWrite off data wstrb s) := by
  obtain ⟨wait, hreg⟩ := writeRegister_rebuilt base variant s off.toNat data
  unfold hostWrite
  rw [hreg, writeWindow_rebuilt]
  exact exists_wait_ite (rebuiltOutcome base variant) ⟨0, rfl⟩
    (exists_wait_ite (rebuiltOutcome base variant)
      (exists_wait_ite (rebuiltOutcome base variant) ⟨wait, rfl⟩ ⟨0, rfl⟩)
      (exists_wait_ite (rebuiltOutcome base variant) ⟨0, rfl⟩ (mapNext_rebuilt base variant (.next _))))

theorem hostAct_rebuilt (act : HostAction) (rest : List HostAction) : ∃ wait,
    hostAct act rest (State.rebuilt base variant s) =
      rebuiltOutcome base variant wait (hostAct act rest s) := by
  cases act with
  | write off data wstrb => exact hostWrite_rebuilt base variant { s with host := rest } off data wstrb
  | read off =>
    obtain ⟨wait, h⟩ := mapNext_rebuilt base variant (hostRead off { s with host := rest })
    exact ⟨wait, (hostRead_rebuilt base variant { s with host := rest } off).trans h⟩
  | wait => exact exists_wait_ite (rebuiltOutcome base variant) ⟨s.wait, rfl⟩ ⟨s.wait, rfl⟩
  | otherWidth => exact ⟨0, rfl⟩
  | hardwareReset => exact ⟨_, rfl⟩

theorem hostTurn_rebuilt : ∃ wait,
    hostTurn (State.rebuilt base variant s) = rebuiltOutcome base variant wait (hostTurn s) := by
  simp only [hostTurn, rebuilt_host]
  split
  · exact ⟨_, rfl⟩
  · exact hostAct_rebuilt base variant s _ _

theorem engineTurn_rebuilt : engineTurn (State.rebuilt base variant s) = engineTurn s := rfl

/-- A step of the block with another BLOCK_BASE and IMPL_VARIANT has the same outcome but for the count-down. -/
theorem step_rebuilt : ∃ wait,
    step (State.rebuilt base variant s) = rebuiltOutcome base variant wait (step s) := by
  simp only [step, engineTurn_rebuilt, engineStep_rebuilt, passTurn_rebuilt]
  split
  · exact mapNext_rebuilt base variant (engineStep s)
  · exact hostTurn_rebuilt base variant (passTurn s)

end

/-- Settles O57: the parameters by `step_params`, the other BLOCK_BASE and IMPL_VARIANT by `step_rebuilt`, the bus
addresses by `busOffset_eq_some`. -/
theorem parametersNeverChange : Obligations.ParametersNeverChange := by
  refine ⟨fun s t => step_params, fun s base variant => ?_, busOffset_eq_some⟩
  obtain ⟨wait, hstep⟩ := step_rebuilt base variant s
  rw [hstep]
  refine ⟨fun t h => ⟨wait, ?_⟩, fun r h => ?_, fun r h => ?_⟩ <;> rw [h] <;> rfl

end Sys2Proof.Machine

/-!
PROOFS. What a command does, said once for all 17 (43_system.md R190, R192), and what a passed check says.
-/
namespace Sys2Proof.Machine

/-! ## The effects of a command -/

/-- The effects of a command whose checks passed and which read the bytes `m`, without completion (40_sha256.md §5,
41_sha512.md §5, 42_hmac_sha512.md §2). Tied to the model by `exec_of_readSpan_none` and `exec_of_readSpan_some`. -/
def commandEffects (i : Instr) (m : List Byte) (s : State) : State :=
  match i with
  | .nop => s
  | .s256Init => { s with s256 := HashInst.initial iv256 }
  | .s256Write _ _ => { s with s256 := absorb sha256 s.s256 m }
  | .s256Final dst => { s with
      s256 := finalizeInst sha256 s.s256, mem := Memory.writeBytes s.mem dst (finalizeDigest sha256 s.s256) }
  | .s256Xform _ nblk => { s with s256 := transformInst sha256 s.s256 nblk m }
  | .s256Ldst _ nblk => { s with s256 := loadInst sha256 nblk m }
  | .s256Stst dst => { s with mem := Memory.writeBytes s.mem dst (chainBytes s.s256.h) }
  | .s512Init => { s with s512 := HashInst.initial iv512 }
  | .s512Write _ _ => { s with s512 := absorb sha512 s.s512 m }
  | .s512Final dst => { s with
      s512 := finalizeInst sha512 s.s512, mem := Memory.writeBytes s.mem dst (finalizeDigest sha512 s.s512) }
  | .s512Xform _ nblk => { s with s512 := transformInst sha512 s.s512 nblk m }
  | .s512Ldst _ nblk => { s with s512 := loadInst sha512 nblk m }
  | .s512Stst dst => { s with mem := Memory.writeBytes s.mem dst (chainBytes s.s512.h) }
  | .hmacKey _ _ => { s with hi := keyedInst m 0x36, ho := keyedInst m 0x5c, hkeyed := true, hfin := false }
  | .hmacWrite _ _ => { s with hi := absorb sha512 s.hi m }
  | .hmacFinal dst => { s with
      hi := finalizeInst sha512 s.hi, ho := outerFinal s.hi s.ho, hfin := true,
      mem := Memory.writeBytes s.mem dst (chainBytes (outerFinal s.hi s.ho).h) }
  | .hmacClear => { s with
      hi := HashInst.initial (zeroWords 64), ho := HashInst.initial (zeroWords 64), hkeyed := false, hfin := false }

/-- A command that reads no MEM runs its checks, then its effects and completion. -/
theorem exec_of_readSpan_none {i : Instr} (h : readSpan i = none) (s : State) :
    exec i s = guarded (commandError i s) (encode i) s (.next (complete (commandEffects i [] s))) := by
  cases i with
  | nop | s256Init | s256Final | s256Stst | s512Init | s512Final | s512Stst | hmacFinal | hmacClear => rfl
  | s256Write | s256Xform | s256Ldst | s512Write | s512Xform | s512Ldst | hmacKey | hmacWrite => cases h

/-- A command that reads MEM runs its checks, then its effects on the bytes read and completion. -/
theorem exec_of_readSpan_some {i : Instr} {a n : Nat} (h : readSpan i = some (a, n)) (s : State) :
    exec i s = guarded (commandError i s) (encode i) s
      (withBytes s a n fun m => .next (complete (commandEffects i m s))) := by
  cases i with
  | nop | s256Init | s256Final | s256Stst | s512Init | s512Final | s512Stst | hmacFinal | hmacClear => cases h
  | s256Write | s256Xform | s256Ldst | s512Write | s512Xform | s512Ldst | hmacKey | hmacWrite => cases h; rfl

/-- A command records the error its checks find, or has its effects on the bytes it reads and completes. -/
theorem exec_effects {i : Instr} {s t : State} (h : exec i s = .next t) :
    (∃ code, commandError i s = some code ∧ t = raiseError code (encode i) s) ∨
    (commandError i s = none ∧ ∃ m, (∀ a n, readSpan i = some (a, n) → Memory.readBytes s.mem a n = some m) ∧
      t = complete (commandEffects i m s)) := by
  cases hr : readSpan i with
  | none =>
    rw [exec_of_readSpan_none hr] at h
    obtain h | ⟨hc, rfl⟩ := guarded_complete h
    · exact .inl h
    · exact .inr ⟨hc, [], fun _ _ h => (nomatch h), rfl⟩
  | some span =>
    rw [exec_of_readSpan_some hr] at h
    obtain h | ⟨hc, m, hm, rfl⟩ := guarded_withBytes h
    · exact .inl h
    · exact .inr ⟨hc, m, fun _ _ h => by cases h; exact hm, rfl⟩

/-! ## What a passed check says -/

/-- A command whose checks pass stays within LIMIT (60_exceptions.md R211). -/
theorem not_passesLimit_of_commandError_none {i : Instr} {s : State} (hc : commandError i s = none) :
    ¬ passesLimit i s := by
  rintro (⟨_, _, rfl, hlt⟩ | ⟨_, _, rfl, hlt⟩ | ⟨_, _, rfl, hlt⟩) <;>
    simp [commandError, checkS256Write, checkS512Write, checkHmacWrite, firstError_eq_none, overLimit] at hc <;>
    omega

/-- A command whose checks pass has the key it needs (60_exceptions.md R208). -/
theorem not_usesMissingKey_of_commandError_none {i : Instr} {s : State} (hc : commandError i s = none) :
    ¬ usesMissingKey i s := by
  rintro ⟨hkey, ⟨_, _, rfl⟩ | ⟨_, rfl⟩⟩ <;>
    simp [commandError, checkHmacWrite, checkHmacFinal, firstError_eq_none, hkey] at hc

/-! ## The operands of a decoded word -/

theorem decodeBare_eq_ok {w : Command} {i j : Instr} (h : decodeBare w i = .ok j) : j = i := by
  unfold decodeBare at h
  split at h <;> cases h
  rfl

theorem decodeSrcLen_eq_ok {w : Command} {f : Nat → Nat → Instr} {j : Instr} (h : decodeSrcLen w f = .ok j) :
    j = f (srcField w).toNat (lenField w).toNat := by
  unfold decodeSrcLen at h
  split at h <;> cases h
  rfl

theorem decodeDst_eq_ok {w : Command} {f : Nat → Instr} {j : Instr} (h : decodeDst w f = .ok j) :
    j = f (dstField w).toNat := by
  unfold decodeDst at h
  split at h <;> cases h
  rfl

@[simp] theorem addrFits_toNat (x : BitVec 16) : addrFits x.toNat = true := decide_eq_true x.isLt

@[simp] theorem lenFits_toNat (x : BitVec 24) : lenFits x.toNat = true := decide_eq_true x.isLt

/-- The operands of a decoded word fit their fields (30_encoding.md R86, R87). -/
theorem decode_wellFormed {w : Command} {i : Instr} (h : decode w = .ok i) : i.wellFormed = true := by
  unfold decode at h
  split at h
  case h_1 | h_2 | h_8 | h_17 => rw [decodeBare_eq_ok h]; rfl
  case h_3 | h_5 | h_6 | h_9 | h_11 | h_12 | h_14 | h_15 => rw [decodeSrcLen_eq_ok h]; simp [Instr.wellFormed]
  case h_4 | h_7 | h_10 | h_13 | h_16 => rw [decodeDst_eq_ok h]; simp [Instr.wellFormed]
  case h_18 => cases h

end Sys2Proof.Machine

/-!
PROOFS. The hash instances and the HMAC flags (10_state.md §2): which steps change them, and what every step keeps of
them.
-/
namespace Sys2Proof.Machine

/-! ## Instances that stay or are reset -/

/-- The four instances and the HMAC flags are as before. -/
def sameInstances (s t : State) : Prop := t.s256 = s.s256 ∧ t.s512 = s.s512 ∧ sameHmac s t

/-- The four instances and the HMAC flags have their reset values (10_state.md R41). -/
def State.instancesReset (s : State) : Prop :=
  s.s256 = HashInst.initial iv256 ∧ s.s512 = HashInst.initial iv512 ∧
  s.hi = HashInst.initial (zeroWords 64) ∧ s.ho = HashInst.initial (zeroWords 64) ∧ s.hkeyed = false ∧ s.hfin = false

theorem sameInstances.refl (s : State) : sameInstances s s := ⟨rfl, rfl, rfl, rfl, rfl, rfl⟩

theorem sameInstances_raiseError (c : ErrCode) (w : Command) (s : State) : sameInstances s (raiseError c w s) :=
  ⟨rfl, rfl, rfl, rfl, rfl, rfl⟩

theorem sameInstances_selfTestEnd (s : State) : sameInstances s (selfTestEnd s) := by
  unfold selfTestEnd
  split <;> exact ⟨rfl, rfl, rfl, rfl, rfl, rfl⟩

theorem instancesReset_hardwareReset (s : State) : State.instancesReset (hardwareReset s) :=
  ⟨rfl, rfl, rfl, rfl, rfl, rfl⟩

/-- A soft reset is ignored during the self-test, and resets the instances otherwise (70_reset_and_hazards.md R239). -/
theorem softReset_instances (s : State) : softReset s = s ∨ State.instancesReset (softReset s) := by
  unfold softReset
  split
  · exact .inl rfl
  · exact .inr ⟨rfl, rfl, rfl, rfl, rfl, rfl⟩

/-! ## Buffers in step with their counters (R27) -/

theorem buffersOk_iff (s : State) : State.buffersOk s = true ↔
    HashInst.bufferOk 64 s.s256 = true ∧ HashInst.bufferOk 128 s.s512 = true ∧
    HashInst.bufferOk 128 s.hi = true ∧ HashInst.bufferOk 128 s.ho = true := by
  simp [State.buffersOk, and_assoc]

theorem buffersOk_of_sameInstances {s t : State} (h : sameInstances s t) (hs : State.buffersOk s = true) :
    State.buffersOk t = true := by
  obtain ⟨h256, h512, hhi, hho, -, -⟩ := h
  rwa [buffersOk_iff, h256, h512, hhi, hho, ← buffersOk_iff]

theorem buffersOk_of_instancesReset {s : State} (h : State.instancesReset s) : State.buffersOk s = true := by
  obtain ⟨h256, h512, hhi, hho, -, -⟩ := h
  rw [buffersOk_iff, h256, h512, hhi, hho]
  exact ⟨initial_bufferOk _ _, initial_bufferOk _ _, initial_bufferOk _ _, initial_bufferOk _ _⟩

theorem absorb_bufferOk_256 {I : HashInst 32} (m : List Byte) (h : HashInst.bufferOk 64 I = true) :
    HashInst.bufferOk 64 (absorb sha256 I m) = true := absorb_bufferOk sha256 I m sha256_block_dvd h

theorem absorb_bufferOk_512 {I : HashInst 64} (m : List Byte) (h : HashInst.bufferOk 128 I = true) :
    HashInst.bufferOk 128 (absorb sha512 I m) = true := absorb_bufferOk sha512 I m sha512_block_dvd h

theorem finalizeInst_bufferOk_256 {I : HashInst 32} (h : HashInst.bufferOk 64 I = true) :
    HashInst.bufferOk 64 (finalizeInst sha256 I) = true := finalizeInst_bufferOk sha256 I sha256_block_dvd h

theorem finalizeInst_bufferOk_512 {I : HashInst 64} (h : HashInst.bufferOk 128 I = true) :
    HashInst.bufferOk 128 (finalizeInst sha512 I) = true := finalizeInst_bufferOk sha512 I sha512_block_dvd h

theorem outerFinal_bufferOk (hi : HashInst 64) {ho : HashInst 64} (h : HashInst.bufferOk 128 ho = true) :
    HashInst.bufferOk 128 (outerFinal hi ho) = true :=
  finalizeInst_bufferOk_512 (absorb_bufferOk_512 _ h)

theorem commandEffects_buffersOk (i : Instr) (m : List Byte) {s : State} (hs : State.buffersOk s = true) :
    State.buffersOk (commandEffects i m s) = true := by
  obtain ⟨h256, h512, hhi, hho⟩ := (buffersOk_iff s).1 hs
  rw [buffersOk_iff]
  cases i <;> dsimp only [commandEffects]
  case nop | s256Stst | s512Stst => exact ⟨h256, h512, hhi, hho⟩
  case s256Init => exact ⟨initial_bufferOk _ _, h512, hhi, hho⟩
  case s256Write => exact ⟨absorb_bufferOk_256 m h256, h512, hhi, hho⟩
  case s256Final => exact ⟨finalizeInst_bufferOk_256 h256, h512, hhi, hho⟩
  case s256Xform => exact ⟨h256, h512, hhi, hho⟩
  case s256Ldst => exact ⟨loadInst_bufferOk_256 _ m, h512, hhi, hho⟩
  case s512Init => exact ⟨h256, initial_bufferOk _ _, hhi, hho⟩
  case s512Write => exact ⟨h256, absorb_bufferOk_512 m h512, hhi, hho⟩
  case s512Final => exact ⟨h256, finalizeInst_bufferOk_512 h512, hhi, hho⟩
  case s512Xform => exact ⟨h256, h512, hhi, hho⟩
  case s512Ldst => exact ⟨h256, loadInst_bufferOk_512 _ m, hhi, hho⟩
  case hmacKey => exact ⟨h256, h512, keyedInst_bufferOk m _, keyedInst_bufferOk m _⟩
  case hmacWrite => exact ⟨h256, h512, absorb_bufferOk_512 m hhi, hho⟩
  case hmacFinal => exact ⟨h256, h512, finalizeInst_bufferOk_512 hhi, outerFinal_bufferOk s.hi hho⟩
  case hmacClear => exact ⟨h256, h512, initial_bufferOk _ _, initial_bufferOk _ _⟩

theorem exec_buffersOk {i : Instr} {s t : State} (hs : State.buffersOk s = true) (h : exec i s = .next t) :
    State.buffersOk t = true := by
  obtain ⟨code, -, rfl⟩ | ⟨-, m, -, rfl⟩ := exec_effects h
  · exact hs
  · exact commandEffects_buffersOk i m hs

/-! ## Counters within LIMIT (00_scope.md R7) -/

theorem countersOk_of_sameInstances {s t : State} (h : sameInstances s t) (hs : State.countersOk s) :
    State.countersOk t := by
  obtain ⟨h256, h512, hhi, -, hkeyed, hfin⟩ := h
  unfold State.countersOk
  rwa [h256, h512, hhi, hkeyed, hfin]

theorem countersOk_of_instancesReset {s : State} (h : State.instancesReset s) : State.countersOk s := by
  obtain ⟨h256, h512, -, -, hkeyed, -⟩ := h
  unfold State.countersOk
  simp [h256, h512, hkeyed]

theorem absorb_cnt_le {w : Nat} (A : Algo w) {I : HashInst w} {m : List Byte}
    (h : I.cnt.toNat + m.length ≤ lengthLimit) : (absorb A I m).cnt.toNat ≤ lengthLimit := by
  have hwrap : lengthLimit < 2 ^ 64 := by decide
  rwa [absorb_cnt_toNat A I m (by omega)]

/-- The counter LDST loads is within LIMIT, for a LEN that fits its field. -/
theorem loadInst_cnt_le {w : Nat} (A : Algo w) {n : Nat} (m : List Byte) (hbs : A.blockBytes ≤ 128)
    (hn : lenFits n = true) : (loadInst A n m).cnt.toNat ≤ lengthLimit := by
  have hn : n < 2 ^ 24 := of_decide_eq_true hn
  have hbytes : A.blockBytes * n ≤ 128 * 2 ^ 24 := Nat.mul_le_mul hbs hn.le
  have hlimit : 128 * 2 ^ 24 ≤ lengthLimit := by decide
  rw [loadInst_cnt, BitVec.toNat_ofNat]
  exact (Nat.mod_le ..).trans (hbytes.trans hlimit)

/-- HI and HO have absorbed at most one block after HMAC.KEY (42_hmac_sha512.md R173). -/
theorem keyedInst_cnt_le (key : List Byte) (p : Byte) : (keyedInst key p).cnt.toNat ≤ lengthLimit := by
  have hlimit : 128 ≤ lengthLimit := by decide
  refine absorb_cnt_le sha512 ?_
  simp only [xorBytes, padBytes, List.length_zipWith, List.length_replicate, initial_cnt]
  change 0 + _ ≤ _
  omega

/-- A command that passed its checks keeps the counters within LIMIT (60_exceptions.md R211). -/
theorem commandEffects_countersOk {i : Instr} {m : List Byte} {s : State} (hwf : i.wellFormed = true)
    (hc : commandError i s = none)
    (hm : ∀ a n, readSpan i = some (a, n) → Memory.readBytes s.mem a n = some m) (hs : State.countersOk s) :
    State.countersOk (commandEffects i m s) := by
  have hlimit := not_passesLimit_of_commandError_none hc
  have hread := fun a n h => Memory.readBytes_length _ _ _ _ (hm a n h)
  obtain ⟨h256, h512, hhmac⟩ := hs
  cases i <;> dsimp only [commandEffects, State.countersOk]
  case nop | s256Stst | s512Stst | s256Xform | s512Xform => exact ⟨h256, h512, hhmac⟩
  case s256Init => exact ⟨fun _ => Nat.zero_le _, h512, hhmac⟩
  case s256Write src len =>
    refine ⟨fun _ => absorb_cnt_le sha256 ?_, h512, hhmac⟩
    rw [hread src len rfl]
    exact not_lt.1 fun hlt => hlimit (.inl ⟨src, len, rfl, hlt⟩)
  case s256Final => exact ⟨fun hfin => (nomatch hfin), h512, hhmac⟩
  case s256Ldst => exact ⟨fun _ => loadInst_cnt_le sha256 m (by decide) (Bool.and_eq_true_iff.1 hwf).2, h512, hhmac⟩
  case s512Init => exact ⟨h256, fun _ => Nat.zero_le _, hhmac⟩
  case s512Write src len =>
    refine ⟨h256, fun _ => absorb_cnt_le sha512 ?_, hhmac⟩
    rw [hread src len rfl]
    exact not_lt.1 fun hlt => hlimit (.inr (.inl ⟨src, len, rfl, hlt⟩))
  case s512Final => exact ⟨h256, fun hfin => (nomatch hfin), hhmac⟩
  case s512Ldst => exact ⟨h256, fun _ => loadInst_cnt_le sha512 m (by decide) (Bool.and_eq_true_iff.1 hwf).2, hhmac⟩
  case hmacKey => exact ⟨h256, h512, fun _ _ => keyedInst_cnt_le m _⟩
  case hmacWrite src len =>
    refine ⟨h256, h512, fun _ _ => absorb_cnt_le sha512 ?_⟩
    rw [hread src len rfl]
    exact not_lt.1 fun hlt => hlimit (.inr (.inr ⟨src, len, rfl, hlt⟩))
  case hmacFinal => exact ⟨h256, h512, fun _ hfin => (nomatch hfin)⟩
  case hmacClear => exact ⟨h256, h512, fun hkeyed => (nomatch hkeyed)⟩

theorem exec_countersOk {i : Instr} {s t : State} (hwf : i.wellFormed = true) (hs : State.countersOk s)
    (h : exec i s = .next t) : State.countersOk t := by
  obtain ⟨code, -, rfl⟩ | ⟨hc, m, hm, rfl⟩ := exec_effects h
  · exact hs
  · exact commandEffects_countersOk hwf hc hm hs

/-! ## An unkeyed HMAC processor is zero (42_hmac_sha512.md R176) -/

theorem hmacOk_of_sameInstances {s t : State} (h : sameInstances s t) (hs : State.hmacOk s) : State.hmacOk t := by
  obtain ⟨-, -, hhi, hho, hkeyed, hfin⟩ := h
  unfold State.hmacOk
  rwa [hhi, hho, hkeyed, hfin]

theorem hmacOk_of_instancesReset {s : State} (h : State.instancesReset s) : State.hmacOk s := by
  obtain ⟨-, -, hhi, hho, -, hfin⟩ := h
  exact fun _ => ⟨hfin, hhi, hho⟩

/-- HMAC.WRITE and HMAC.FINAL run only with a key, and HMAC.CLEAR zeroes everything. -/
theorem commandEffects_hmacOk {i : Instr} (m : List Byte) {s : State} (hc : commandError i s = none)
    (hs : State.hmacOk s) : State.hmacOk (commandEffects i m s) := by
  have hkey := not_usesMissingKey_of_commandError_none hc
  cases i <;> dsimp only [commandEffects, State.hmacOk]
  case nop | s256Init | s256Write | s256Final | s256Xform | s256Ldst | s256Stst => exact hs
  case s512Init | s512Write | s512Final | s512Xform | s512Ldst | s512Stst => exact hs
  case hmacKey => exact fun hkeyed => (nomatch hkeyed)
  case hmacWrite src len => exact fun hkeyed => (hkey ⟨hkeyed, .inl ⟨src, len, rfl⟩⟩).elim
  case hmacFinal dst => exact fun hkeyed => (hkey ⟨hkeyed, .inr ⟨dst, rfl⟩⟩).elim
  case hmacClear => exact fun _ => ⟨rfl, rfl, rfl⟩

theorem exec_hmacOk {i : Instr} {s t : State} (hs : State.hmacOk s) (h : exec i s = .next t) : State.hmacOk t := by
  obtain ⟨code, -, rfl⟩ | ⟨hc, m, -, rfl⟩ := exec_effects h
  · exact hs
  · exact commandEffects_hmacOk m hc hs

end Sys2Proof.Machine

/-!
PROOFS. What one host action can do to the block, said once (43_system.md R194 to R197, 70_reset_and_hazards.md R235,
R239): nothing of it moves, a window write, an accepted command, or a reset.
-/
namespace Sys2Proof.Machine

/-- The part of the block that R194 lets no host action but a reset change while a command runs is as before. DONE can
only be cleared, and a coherent error record stays coherent. -/
structure Unmoved (s t : State) : Prop where
  params : t.params = s.params
  instances : sameInstances s t
  mem : t.mem = s.mem
  busy : t.busy = s.busy
  inflight : t.inflight = s.inflight
  fatal : t.fatal = s.fatal
  done : t.done = true → s.done = true
  errorRecord : State.errorRecordOk s → State.errorRecordOk t

/-- What a host action does to the block, the host's own queue and record apart. -/
inductive HostEffect (s : State) : State → Prop
  | unmoved {t : State} (h : Unmoved s t) : HostEffect s t
  | windowWrite (a : Nat) (data : Word32) (wstrb : BitVec 4) (hbusy : s.busy = false) :
      HostEffect s (writeWindow a data wstrb s)
  | accepted {w : Command} {i : Instr} (cmdHi : Word32) (hfatal : s.fatal = false) (hdecode : decode w = .ok i)
      (hcheck : commandError i s = none) : HostEffect s (accept w { s with cmdHi := cmdHi })
  | softReset : HostEffect s (softReset s)
  | hardwareReset : HostEffect s (hardwareReset s)

/-! ## Error records -/

theorem errorRecordOk_raiseError {c : ErrCode} (w : Command) {s : State} (hc : c ≠ .noError)
    (hfatal : s.fatal = false) : State.errorRecordOk (raiseError c w s) := by
  simp [State.errorRecordOk, hc, hfatal]

theorem errorRecordOk_discard {s : State} (hlost : s.fatal = true ∨ s.err = true) (h : State.errorRecordOk s) :
    State.errorRecordOk (discard s) := by
  obtain ⟨-, hcode, hfatal⟩ := h
  have herr : s.err = true := hlost.elim (fun hf => (hfatal hf).1) id
  exact ⟨fun hne => absurd (herr.symm.trans hne) (by decide), hcode, hfatal⟩

/-- A CTRL write leaves the error record alone, or clears it while FATAL = 0 (43_system.md R196). -/
theorem errorRecordOk_clear (clr : Bool) {s : State} (h : State.errorRecordOk s) : State.errorRecordOk { s with
    err := s.err && !(clr && !s.fatal), errLost := s.errLost && !(clr && !s.fatal),
    errCode := if clr && !s.fatal then .noError else s.errCode,
    errCmd := if clr && !s.fatal then 0 else s.errCmd } := by
  cases hclear : clr && !s.fatal
  · simpa [State.errorRecordOk] using h
  · have hfatal : s.fatal = false := by simpa using (Bool.and_eq_true_iff.1 hclear).2
    simp [State.errorRecordOk, hfatal]

/-- The end of the self-test changes BUSY, FATAL and the error record alone (70_reset_and_hazards.md R236). -/
theorem selfTestEnd_shape (s : State) : selfTestEnd s = { s with
    busy := false, fatal := (selfTestEnd s).fatal, err := (selfTestEnd s).err, errCode := (selfTestEnd s).errCode,
    errCmd := (selfTestEnd s).errCmd } := by
  unfold selfTestEnd
  split <;> rfl

theorem errorRecordOk_selfTestEnd {s : State} (hfatal : s.fatal = false) (h : State.errorRecordOk s) :
    State.errorRecordOk (selfTestEnd s) := by
  obtain ⟨hclear, hcode, -⟩ := h
  cases hpass : s.params.selfTestPass
  · rw [selfTestEnd_of_fail s hpass]
    simp [State.errorRecordOk, hpass]
  · rw [selfTestEnd_of_pass s hpass]
    exact ⟨hclear, hcode, fun hf => absurd (hfatal.symm.trans hf) (by decide)⟩

theorem DecodeError.errCode_ne_noError (e : DecodeError) : DecodeError.errCode e ≠ .noError := by
  cases e <;> decide

/-! ## What leaves the block unmoved -/

theorem Unmoved.trans {s t u : State} (h : Unmoved s t) (h' : Unmoved t u) : Unmoved s u where
  params := h'.params.trans h.params
  instances := by
    obtain ⟨h1, h2, h3, h4, h5, h6⟩ := h.instances
    obtain ⟨k1, k2, k3, k4, k5, k6⟩ := h'.instances
    exact ⟨k1.trans h1, k2.trans h2, k3.trans h3, k4.trans h4, k5.trans h5, k6.trans h6⟩
  mem := h'.mem.trans h.mem
  busy := h'.busy.trans h.busy
  inflight := h'.inflight.trans h.inflight
  fatal := h'.fatal.trans h.fatal
  done := h.done ∘ h'.done
  errorRecord := h'.errorRecord ∘ h.errorRecord

theorem Unmoved.commandError {s t : State} (h : Unmoved s t) (i : Instr) : commandError i t = commandError i s := by
  obtain ⟨h256, h512, hhi, -, hkeyed, hfin⟩ := h.instances
  exact commandError_congr i h.params h256 h512 hhi hkeyed hfin

/-- The model's own fields, the enables and the command registers are no part of what is unmoved. -/
theorem unmoved_fields (s : State) (ieDone ieErr : Bool) (cmdLo cmdHi : Word32) (host : List HostAction)
    (reads : List Word32) (wait draws : Nat) :
    Unmoved s { s with
      ieDone := ieDone, ieErr := ieErr, cmdLo := cmdLo, cmdHi := cmdHi, host := host, reads := reads, wait := wait
      draws := draws } :=
  ⟨rfl, .refl s, rfl, rfl, rfl, rfl, id, id⟩

theorem Unmoved.refl (s : State) : Unmoved s s := unmoved_fields s ..

theorem unmoved_passTurn (s : State) : Unmoved s (passTurn s) := by
  rw [passTurn_shape]
  exact unmoved_fields s ..

theorem unmoved_discard {s : State} (h : s.fatal = true ∨ s.err = true) : Unmoved s (discard s) :=
  ⟨rfl, .refl s, rfl, rfl, rfl, rfl, id, errorRecordOk_discard h⟩

theorem unmoved_raiseError {c : ErrCode} (w : Command) {s : State} (hc : c ≠ .noError) (hfatal : s.fatal = false) :
    Unmoved s (raiseError c w s) :=
  ⟨rfl, sameInstances_raiseError c w s, rfl, rfl, rfl, rfl, id, fun _ => errorRecordOk_raiseError w hc hfatal⟩

theorem unmoved_of_hostRead {off : BitVec 17} {s t : State} (h : hostRead off s = .next t) : Unmoved s t := by
  rw [hostRead_cases h]
  exact unmoved_fields s ..

/-! ## The effect of each host action -/

theorem writeCmdHi_effect (v : Word32) (s : State) : HostEffect s (writeCmdHi v s) := by
  have hstore : Unmoved s { s with cmdHi := v } := unmoved_fields s ..
  unfold writeCmdHi
  obtain ⟨hlost, h⟩ | ⟨hfatal, -, -, h⟩ |
    ⟨hfatal, -, -, ⟨e, -, h⟩ | ⟨i, code, -, hcheck, h⟩ | ⟨i, hdecode, hcheck, h⟩⟩ :=
    issue_cases (v ++ s.cmdLo) { s with cmdHi := v } <;> rw [h]
  · exact .unmoved (hstore.trans (unmoved_discard hlost))
  · exact .unmoved (hstore.trans (unmoved_raiseError _ (by decide) hfatal))
  · exact .unmoved (hstore.trans (unmoved_raiseError _ (DecodeError.errCode_ne_noError e) hfatal))
  · have hcode : code ≠ .noError := fun hne => commandError_ne_noError i _ (hne ▸ hcheck)
    exact .unmoved (hstore.trans (unmoved_raiseError _ hcode hfatal))
  · exact .accepted v hfatal hdecode ((hstore.commandError i).symm.trans hcheck)

theorem writeCtrl_effect (v : Word32) (s : State) : HostEffect s (writeCtrl v s) := by
  obtain ⟨-, h⟩ | ⟨-, h⟩ := writeCtrl_cases v s <;> rw [h]
  · exact .softReset
  · exact .unmoved ⟨rfl, .refl s, rfl, rfl, rfl, rfl, fun hdone => (Bool.and_eq_true_iff.1 hdone).1,
      errorRecordOk_clear (v.getLsbD 9)⟩

theorem writeRegister_effect (off : Nat) (v : Word32) (s : State) : HostEffect s (writeRegister off v s) := by
  obtain ⟨-, h⟩ | ⟨-, h⟩ | ⟨-, h⟩ | h := writeRegister_cases off v s <;> rw [h]
  · exact writeCtrl_effect v s
  · exact .unmoved (unmoved_fields s ..)
  · exact writeCmdHi_effect v s
  · exact .unmoved (.refl s)

theorem hostWrite_effect {off : BitVec 17} {data : Word32} {wstrb : BitVec 4} {s t : State}
    (h : hostWrite off data wstrb s = .next t) : HostEffect s t := by
  obtain ⟨-, ⟨-, -, rfl⟩ | ⟨-, hbusy, rfl⟩⟩ := hostWrite_cases h
  · exact writeRegister_effect _ data s
  · exact .windowWrite _ data wstrb hbusy

theorem hostAct_effect {act : HostAction} {rest : List HostAction} {s t : State} (h : hostAct act rest s = .next t) :
    HostEffect { s with host := rest } t := by
  obtain ⟨_, _, _, -, h⟩ | ⟨_, -, h⟩ | ⟨-, -, rfl⟩ | ⟨-, -, rfl⟩ | ⟨-, rfl⟩ := hostAct_cases h
  · exact hostWrite_effect h
  · exact .unmoved (unmoved_of_hostRead h)
  · exact .unmoved ⟨rfl, .refl _, rfl, rfl, rfl, rfl, id, id⟩
  · exact .unmoved (.refl _)
  · exact .hardwareReset

/-- A step is the end of the self-test, the meaning of the command in flight, a turn without a host action, or a host
action's effect. -/
theorem step_effect {s t : State} (h : step s = .next t) :
    (s.busy = true ∧ s.inflight = none ∧ t = selfTestEnd s) ∨
    (∃ w i, s.inflight = some w ∧ decode w = .ok i ∧ exec i s = .next t) ∨
    ∃ u, Unmoved s u ∧ HostEffect u t := by
  obtain ⟨hbusy, -, hnone, rfl⟩ | ⟨-, -, w, i, hw, hd, h⟩ | ⟨-, ⟨-, rfl⟩ | ⟨act, rest, -, h⟩⟩ := step_cases h
  · exact .inl ⟨hbusy, hnone, rfl⟩
  · exact .inr (.inl ⟨w, i, hw, hd, h⟩)
  · exact .inr (.inr ⟨s, .refl s, .unmoved (unmoved_passTurn s)⟩)
  · have hpop : Unmoved (passTurn s) { passTurn s with host := rest } := unmoved_fields (passTurn s) ..
    exact .inr (.inr ⟨_, (unmoved_passTurn s).trans hpop, hostAct_effect h⟩)

/-! ## R27 along every step -/

/-- A host action leaves the instances alone or resets them. -/
theorem HostEffect.instances {s t : State} (h : HostEffect s t) : sameInstances s t ∨ State.instancesReset t := by
  cases h with
  | unmoved h => exact .inl h.instances
  | windowWrite a data wstrb =>
    rw [writeWindow_eq]
    exact .inl (.refl s)
  | accepted => exact .inl (.refl s)
  | softReset =>
    obtain h | h := softReset_instances s
    · rw [h]; exact .inl (.refl s)
    · exact .inr h
  | hardwareReset => exact .inr (instancesReset_hardwareReset s)

theorem HostEffect.buffersOk {s t : State} (h : HostEffect s t) (hs : State.buffersOk s = true) :
    State.buffersOk t = true :=
  h.instances.elim (buffersOk_of_sameInstances · hs) buffersOk_of_instancesReset

theorem step_buffersOk {s t : State} (hs : State.buffersOk s = true) (h : step s = .next t) :
    State.buffersOk t = true := by
  obtain ⟨-, -, rfl⟩ | ⟨_, i, -, -, h⟩ | ⟨u, hu, h⟩ := step_effect h
  · exact buffersOk_of_sameInstances (sameInstances_selfTestEnd s) hs
  · exact exec_buffersOk hs h
  · exact h.buffersOk (buffersOk_of_sameInstances hu.instances hs)

/-- Settles O55: commands by `exec_buffersOk`, from their effects on the four instances; steps by `step_buffersOk`,
since a host action leaves the instances alone or resets them. -/
theorem buffersMatchCounters : Obligations.BuffersMatchCounters :=
  ⟨fun _ _ _ hs h => exec_buffersOk hs h, fun _ _ hs h => step_buffersOk hs h⟩

end Sys2Proof.Machine

/-!
PROOFS. The invariant of the block (`State.Inv`): it holds after hardware reset and every step keeps it.
-/
namespace Sys2Proof.Machine

/-! ## MEM canonical and within MEM_SIZE (10_state.md R29) -/

/-- A memory in canonical form whose addresses lie below `n`. -/
def Memory.okWithin (n : Nat) (m : Memory) : Prop := Memory.wf m ∧ ∀ cell ∈ m, cell.1 < n

theorem memoryOk_iff (s : State) : State.memoryOk s ↔ Memory.okWithin s.params.memSize s.mem := Iff.rfl

theorem Memory.okWithin_nil (n : Nat) : Memory.okWithin n [] := ⟨List.Pairwise.nil, fun _ h => (nomatch h)⟩

theorem Memory.okWithin_writeBytes {n a : Nat} {m : Memory} {bytes : List Byte}
    (hspan : bytes.length = 0 ∨ a + bytes.length ≤ n) (h : Memory.okWithin n m) :
    Memory.okWithin n (Memory.writeBytes m a bytes) := by
  refine ⟨Memory.wf_writeBytes bytes m a h.1, fun cell hcell => ?_⟩
  obtain hnew | hold := Memory.mem_writeBytes bytes m a cell hcell
  · omega
  · exact h.2 cell hold

theorem Memory.okWithin_writeLane {n a j : Nat} {m : Memory} (data : Word32) (wstrb : BitVec 4) (haddr : a + j < n)
    (h : Memory.okWithin n m) : Memory.okWithin n (writeLane data wstrb a j m) := by
  refine ⟨Memory.wf_writeLane data wstrb a j m h.1, fun cell hcell => ?_⟩
  unfold writeLane at hcell
  split at hcell
  · obtain rfl | hold := Memory.mem_write m _ _ cell hcell
    · exact haddr
    · exact h.2 cell hold
  · exact h.2 cell hcell

theorem Memory.okWithin_scramble {n : Nat} {m : Memory} (a len draws : Nat) (h : Memory.okWithin n m) :
    Memory.okWithin n (Memory.scramble m a len draws) := by
  refine ⟨Memory.wf_scramble m a len draws h.1, fun cell hcell => ?_⟩
  obtain ⟨old, hold, haddr⟩ := Memory.mem_scramble m a len draws cell hcell
  exact haddr ▸ h.2 old hold

theorem writeWindow_memoryOk (a : Nat) (data : Word32) (wstrb : BitVec 4) {s : State} (h : State.memoryOk s) :
    State.memoryOk (writeWindow a data wstrb s) := by
  unfold writeWindow
  split
  · next ha =>
    have hlane (j : Nat) (hj : j < 4) (m : Memory) (hm : Memory.okWithin s.params.memSize m) :
        Memory.okWithin s.params.memSize (writeLane data wstrb a j m) :=
      Memory.okWithin_writeLane data wstrb (by omega) hm
    exact hlane 3 (by decide) _ (hlane 2 (by decide) _ (hlane 1 (by decide) _ (hlane 0 (by decide) _ h)))
  · exact h

theorem abort_memoryOk {s : State} (h : State.memoryOk s) : Memory.okWithin s.params.memSize (abort s).mem := by
  unfold abort
  split
  · exact h
  · exact Memory.okWithin_scramble _ _ s.draws h

/-- A command that passed its checks writes inside MEM (60_exceptions.md R209). -/
theorem exec_memoryOk {i : Instr} {s t : State} (hs : State.memoryOk s) (h : exec i s = .next t) :
    State.memoryOk t := by
  rw [memoryOk_iff, exec_params h]
  obtain hmem | ⟨dst, bytes, hc, hw, hmem⟩ := exec_mem h <;> rw [hmem]
  · exact hs
  · exact Memory.okWithin_writeBytes (writeSpan_inRange hc hw) hs

/-! ## Reset -/

/-- Right after hardware reset the invariant holds, whatever the model's own fields are. -/
theorem inv_afterReset {p : Params} (hp : p.valid = true) (host : List HostAction) (reads : List Word32)
    (wait draws : Nat) : State.Inv (State.afterReset p host reads wait draws) := by
  have hreset : State.instancesReset (State.afterReset p host reads wait draws) := ⟨rfl, rfl, rfl, rfl, rfl, rfl⟩
  exact {
    params_valid := hp
    buffers := buffersOk_of_instancesReset hreset
    memory := Memory.okWithin_nil _
    counters := countersOk_of_instancesReset hreset
    errorRecord := ⟨fun _ => ⟨rfl, rfl, rfl⟩, fun h => (nomatch h), fun h => (nomatch h)⟩
    inflight := fun _ h => (nomatch h)
    selfTest := fun _ => ⟨rfl, rfl, rfl, rfl, rfl, rfl, rfl, rfl, rfl⟩
    hmac := hmacOk_of_instancesReset hreset }

/-- Settles O58: the reset state is `State.afterReset` with the default parameters. -/
theorem invariantHoldsAfterReset : Obligations.InvariantHoldsAfterReset := inv_afterReset (by decide) _ _ _ _

theorem softReset_of_selfTestRunning {s : State} (h : State.selfTestRunning s = true) : softReset s = s := if_pos h

/-- Outside the self-test a soft reset leaves everything at its reset value but MEM, and FATAL with its error
(70_reset_and_hazards.md R239; log 18). -/
theorem softReset_of_not_selfTestRunning {s : State} (h : State.selfTestRunning s = false) :
    softReset s = { State.afterReset s.params s.host s.reads s.wait (abort s).draws with
      mem := (abort s).mem, busy := false, fatal := s.fatal, err := s.fatal,
      errCode := if s.fatal then .selftestFail else .noError } := by
  obtain ⟨m, d, habort⟩ := abort_eq s
  have hidle : ¬ (s.busy && s.inflight.isNone) = true := Bool.eq_false_iff.1 h
  simp only [softReset, if_neg hidle, habort]

/-! ## Each step keeps the invariant -/

theorem Unmoved.inv {s t : State} (h : Unmoved s t) (hs : State.Inv s) : State.Inv t where
  params_valid := h.params ▸ hs.params_valid
  buffers := buffersOk_of_sameInstances h.instances hs.buffers
  memory := by
    rw [memoryOk_iff, h.params, h.mem]
    exact hs.memory
  counters := countersOk_of_sameInstances h.instances hs.counters
  errorRecord := h.errorRecord hs.errorRecord
  inflight := by
    intro w hw
    obtain ⟨hbusy, i, hdecode, hcheck⟩ := hs.inflight w (h.inflight ▸ hw)
    exact ⟨h.busy ▸ hbusy, i, hdecode, (h.commandError i).trans hcheck⟩
  selfTest := by
    obtain ⟨h256, h512, hhi, hho, hkeyed, hfin⟩ := h.instances
    intro hrunning
    rw [State.selfTestRunning, h.busy, h.inflight] at hrunning
    obtain ⟨r256, r512, rhi, rho, rkeyed, rfin, rmem, rdone, rfatal⟩ := hs.selfTest hrunning
    have hdone : t.done = false := Bool.eq_false_iff.2 fun hdone => Bool.eq_false_iff.1 rdone (h.done hdone)
    exact ⟨h256.trans r256, h512.trans r512, hhi.trans rhi, hho.trans rho, hkeyed.trans rkeyed, hfin.trans rfin,
      h.mem.trans rmem, hdone, h.fatal.trans rfatal⟩
  hmac := hmacOk_of_sameInstances h.instances hs.hmac

theorem commandError_accept (i : Instr) (w : Command) (s : State) : commandError i (accept w s) = commandError i s :=
  commandError_congr i rfl rfl rfl rfl rfl rfl

/-- A command enters flight only past its checks (43_system.md R190). -/
theorem inv_accept {w : Command} {i : Instr} {s : State} (hfatal : s.fatal = false) (hdecode : decode w = .ok i)
    (hcheck : commandError i s = none) (hs : State.Inv s) : State.Inv (accept w s) where
  params_valid := hs.params_valid
  buffers := hs.buffers
  memory := hs.memory
  counters := hs.counters
  errorRecord := by
    obtain ⟨hclear, hcode, -⟩ := hs.errorRecord
    exact ⟨hclear, hcode, fun hf => absurd (hfatal.symm.trans hf) (by decide)⟩
  inflight := by
    intro w' hw
    cases hw
    exact ⟨rfl, i, hdecode, (commandError_accept i w s).trans hcheck⟩
  selfTest := fun hrunning => (nomatch hrunning)
  hmac := hs.hmac

/-- The window takes a write only while nothing is in flight and no self-test runs (70_reset_and_hazards.md R244). -/
theorem inv_writeWindow (a : Nat) (data : Word32) (wstrb : BitVec 4) {s : State} (hbusy : s.busy = false)
    (hs : State.Inv s) : State.Inv (writeWindow a data wstrb s) := by
  have hmemory := writeWindow_memoryOk a data wstrb hs.memory
  rw [writeWindow_eq] at hmemory ⊢
  exact { hs with
    memory := hmemory
    inflight := fun w hw => absurd ((hs.inflight w hw).1.symm.trans hbusy) (by decide)
    selfTest := fun hrunning => absurd ((Bool.and_eq_true_iff.1 hrunning).1.symm.trans hbusy) (by decide) }

theorem inv_softReset {s : State} (hs : State.Inv s) : State.Inv (softReset s) := by
  cases hrunning : State.selfTestRunning s
  · rw [softReset_of_not_selfTestRunning hrunning]
    have hreset := inv_afterReset hs.params_valid s.host s.reads s.wait (abort s).draws
    exact {
      params_valid := hs.params_valid
      buffers := hreset.buffers
      memory := abort_memoryOk hs.memory
      counters := hreset.counters
      errorRecord := by
        obtain ⟨-, -, hfatal⟩ := hs.errorRecord
        cases hf : s.fatal
        · exact ⟨fun _ => ⟨rfl, rfl, rfl⟩, fun h => (nomatch h), fun h => (nomatch h)⟩
        · obtain ⟨-, -, -, -, hpass⟩ := hfatal hf
          exact ⟨fun h => (nomatch h), fun _ h => (nomatch h), fun _ => ⟨rfl, rfl, rfl, rfl, hpass⟩⟩
      inflight := fun _ h => (nomatch h)
      selfTest := fun h => (nomatch h)
      hmac := hreset.hmac }
  · rw [softReset_of_selfTestRunning hrunning]
    exact hs

theorem HostEffect.inv {s t : State} (h : HostEffect s t) (hs : State.Inv s) : State.Inv t := by
  cases h with
  | unmoved h => exact h.inv hs
  | windowWrite a data wstrb hbusy => exact inv_writeWindow a data wstrb hbusy hs
  | accepted cmdHi hfatal hdecode hcheck =>
    have hstore : Unmoved s { s with cmdHi := cmdHi } := unmoved_fields s ..
    exact inv_accept hfatal hdecode ((hstore.commandError _).trans hcheck) (hstore.inv hs)
  | softReset => exact inv_softReset hs
  | hardwareReset => exact inv_afterReset hs.params_valid _ _ _ _

/-- A failed self-test leaves the block idle for good (70_reset_and_hazards.md R237). -/
theorem fatal_eq_false_of_busy {s : State} (h : State.errorRecordOk s) (hbusy : s.busy = true) : s.fatal = false := by
  obtain ⟨-, -, hfatal⟩ := h
  cases hf : s.fatal
  · rfl
  · obtain ⟨-, -, -, hidle, -⟩ := hfatal hf
    exact absurd (hbusy.symm.trans hidle) (by decide)

/-- The end of the self-test (70_reset_and_hazards.md R236, 60_exceptions.md R213). -/
theorem inv_selfTestEnd {s : State} (hbusy : s.busy = true) (hnone : s.inflight = none) (hs : State.Inv s) :
    State.Inv (selfTestEnd s) := by
  have herror := errorRecordOk_selfTestEnd (fatal_eq_false_of_busy hs.errorRecord hbusy) hs.errorRecord
  rw [selfTestEnd_shape] at herror ⊢
  exact { hs with
    errorRecord := herror
    inflight := fun w hw => (nomatch hnone.symm.trans hw)
    selfTest := fun h => (nomatch h) }

/-- The completion of a command that is in flight by the invariant (43_system.md R191, R192). -/
theorem inv_exec {w : Command} {i : Instr} {s t : State} (hw : s.inflight = some w) (hdecode : decode w = .ok i)
    (hs : State.Inv s) (h : exec i s = .next t) : State.Inv t := by
  obtain ⟨hbusy, i', hdecode', hcheck⟩ := hs.inflight w hw
  obtain rfl : i' = i := Decoded.ok.inj (hdecode'.symm.trans hdecode)
  obtain ⟨code, hcode, -⟩ | ⟨-, hframe⟩ := exec_cases h
  · exact absurd (hcheck.symm.trans hcode) (by simp)
  exact {
    params_valid := exec_params h ▸ hs.params_valid
    buffers := exec_buffersOk hs.buffers h
    memory := exec_memoryOk hs.memory h
    counters := exec_countersOk (decode_wellFormed hdecode) hs.counters h
    errorRecord := by
      have hfatal := fatal_eq_false_of_busy hs.errorRecord hbusy
      obtain ⟨hclear, hcode, -⟩ := hs.errorRecord
      rw [hframe]
      exact ⟨hclear, hcode, fun hf => absurd (hfatal.symm.trans hf) (by decide)⟩
    inflight := by rw [hframe]; exact fun _ h => (nomatch h)
    selfTest := by rw [hframe]; exact fun h => (nomatch h)
    hmac := exec_hmacOk hs.hmac h }

theorem step_inv {s t : State} (hs : State.Inv s) (h : step s = .next t) : State.Inv t := by
  obtain ⟨hbusy, hnone, rfl⟩ | ⟨w, i, hw, hdecode, h⟩ | ⟨u, hu, h⟩ := step_effect h
  · exact inv_selfTestEnd hbusy hnone hs
  · exact inv_exec hw hdecode hs h
  · exact h.inv (hu.inv hs)

/-- Settles O59, by what a step can do: `inv_selfTestEnd`, `inv_exec` and, for a host action, `HostEffect.inv`. -/
theorem invariantKeptByEveryStep : Obligations.InvariantKeptByEveryStep := fun _ _ => step_inv

end Sys2Proof.Machine

/-!
PROOFS. The registers (10_state.md §3, §5): what a host reads and writes there, and their values after hardware reset.
-/
namespace Sys2Proof.Machine

/-! ## Aligned accesses -/

section
variable {off : BitVec 17} (halign : off.toNat % 4 = 0)
include halign

theorem hostRead_register (hreg : off.toNat < 0x10000) (s : State) :
    hostRead off s = .next (readRegister off.toNat s) := by
  simp [hostRead, alignedOffset, windowBase, halign, hreg]

theorem hostWrite_register (hreg : off.toNat < 0x10000) (v : Word32) (s : State) :
    hostWrite off v 0xF s = .next (writeRegister off.toNat v s) := by
  simp [hostWrite, alignedOffset, windowBase, halign, hreg]

end

/-- A window read of the aligned word `k` (20_memory.md R63). -/
theorem hostRead_window {k : Nat} (hk : 4 * k < 0x10000) (s : State) :
    hostRead (BitVec.ofNat 17 (0x10000 + 4 * k)) s = .next (readWindow (4 * k) s) := by
  have hoff : (BitVec.ofNat 17 (0x10000 + 4 * k)).toNat = 0x10000 + 4 * k := by
    rw [BitVec.toNat_ofNat]; omega
  have halign : (0x10000 + 4 * k) % 4 = 0 := by omega
  simp [hostRead, alignedOffset, windowBase, hoff, halign]

/-! ## Reserved and read-only offsets (R30, R39, R197) -/

theorem readRegister_of_reserved {off : Nat} (h : 0x30 ≤ off) (s : State) : readRegister off s = returnRead 0 s := by
  unfold readRegister
  split
  case h_13 => rfl
  all_goals exact absurd h (by decide)

/-- Only CTRL, CMD_LO and CMD_HI take a write (43_system.md R197). -/
theorem writeRegister_of_ignored {off : Nat} (h : off ∉ [0x08, 0x10, 0x14]) (v : Word32) (s : State) :
    writeRegister off v s = s := by
  obtain ⟨rfl, -⟩ | ⟨rfl, -⟩ | ⟨rfl, -⟩ | hs := writeRegister_cases off v s
  · exact absurd h (by decide)
  · exact absurd h (by decide)
  · exact absurd h (by decide)
  · exact hs

theorem hostWrite_of_ignored {off : BitVec 17} (halign : off.toNat % 4 = 0) (hreg : off.toNat < 0x10000)
    (h : off.toNat ∉ [0x08, 0x10, 0x14]) (v : Word32) (s : State) : hostWrite off v 0xF s = .next s := by
  rw [hostWrite_register halign hreg, writeRegister_of_ignored h]

/-- The listed read-only offsets are registers, and none of them takes a write. -/
theorem readOnly_offsets : ∀ off ∈ [0x00, 0x04, 0x0C, 0x18, 0x1C, 0x20, 0x24, 0x28, 0x2C],
    off < 0x10000 ∧ off ∉ [0x08, 0x10, 0x14] := by
  decide

/-- Settles O40: `readRegister_of_reserved` and `hostWrite_of_ignored`. -/
theorem reservedAndReadOnlyRegisters : Obligations.ReservedAndReadOnlyRegisters := by
  refine fun off s halign => ⟨fun hlow hreg => ⟨?_, fun v => ?_⟩, fun hlisted v => ?_⟩
  · rw [hostRead_register halign hreg, readRegister_of_reserved hlow]
    rfl
  · exact hostWrite_of_ignored halign hreg (by simp; omega) v s
  · obtain ⟨hreg, hignored⟩ := readOnly_offsets _ hlisted
    exact hostWrite_of_ignored halign hreg hignored v s

/-! ## STATUS and CTRL, bit by bit (R32, R34) -/

theorem getLsbD_append_ofBool {n : Nat} (x : BitVec n) (b : Bool) (k : Nat) :
    (x ++ BitVec.ofBool b).getLsbD k = if k = 0 then b else x.getLsbD (k - 1) := by
  rw [BitVec.getLsbD_append]
  cases k <;> simp

/-- The bits of STATUS: the ten flags, and the error code from bit 16. -/
theorem status_getLsbD (s : State) (k : Nat) : (State.status s).getLsbD k =
    if k < 10 then
      [s.busy, s.done, s.err, s.errLost, s.fatal, s.s256.fin, s.s512.fin, s.hkeyed, s.hfin, s.irq].getD k false
    else decide (16 ≤ k) && (ErrCode.bits s.errCode).getLsbD (k - 16) := by
  have hbits : (State.status s).getLsbD k = BitVec.getLsbD (w := 12 + 4 + 6 + 1 + 1 + 1 + 1 + 1 + 1 + 1 + 1 + 1 + 1)
      ((0 : BitVec 12) ++ ErrCode.bits s.errCode ++ (0 : BitVec 6)
        ++ BitVec.ofBool s.irq ++ BitVec.ofBool s.hfin ++ BitVec.ofBool s.hkeyed ++ BitVec.ofBool s.s512.fin
        ++ BitVec.ofBool s.s256.fin ++ BitVec.ofBool s.fatal ++ BitVec.ofBool s.errLost ++ BitVec.ofBool s.err
        ++ BitVec.ofBool s.done ++ BitVec.ofBool s.busy) k := rfl
  rw [hbits]
  simp only [getLsbD_append_ofBool]
  by_cases hk : k < 10
  · interval_cases k <;> rfl
  · obtain ⟨j, rfl⟩ : ∃ j, k = j + 10 := ⟨k - 10, by omega⟩
    simp only [hk, if_false, Nat.add_one_sub_one, Nat.add_eq_zero_iff]
    rw [BitVec.getLsbD_append, BitVec.getLsbD_append]
    by_cases hreserved : j < 6
    · simp [hreserved]
    · simpa [hreserved, not_lt.1 hreserved] using BitVec.lt_of_getLsbD

theorem status_getLsbD_of_reserved (s : State) {k : Nat} (h : 10 ≤ k ∧ k < 16 ∨ 20 ≤ k) :
    (State.status s).getLsbD k = false := by
  rw [status_getLsbD, if_neg (by omega)]
  obtain ⟨-, hlow⟩ | hhigh := h
  · simp [hlow]
  · rw [BitVec.getLsbD_of_ge _ _ (by omega), Bool.and_false]

theorem status_errCode (s : State) : (State.status s).extractLsb' 16 4 = ErrCode.bits s.errCode := by
  apply BitVec.eq_of_getLsbD_eq
  intro i hi
  rw [BitVec.getLsbD_extractLsb', status_getLsbD, if_neg (by omega), Nat.add_sub_cancel_left]
  simp [hi]

/-- Settles O38, from the bits of STATUS (`status_getLsbD`). -/
theorem statusFields : Obligations.StatusFields := by
  refine ⟨⟨rfl, rfl, rfl, rfl, rfl, rfl, rfl, rfl, rfl⟩, fun s => ?_⟩
  have hbit := status_getLsbD s
  exact ⟨hbit 0, hbit 1, hbit 2, hbit 3, hbit 4, hbit 5, hbit 6, hbit 7, hbit 8, hbit 9,
    fun k hlo hhi => status_getLsbD_of_reserved s (.inl ⟨hlo, hhi⟩), status_errCode s,
    fun k hlo => status_getLsbD_of_reserved s (.inr hlo),
    fun v => hostWrite_of_ignored (by decide) (by decide) (by decide) v s⟩

theorem ctrl_getLsbD (s : State) (k : Nat) :
    (State.ctrl s).getLsbD k = if k = 0 then s.ieDone else if k = 1 then s.ieErr else false := by
  have hbits : (State.ctrl s).getLsbD k = BitVec.getLsbD (w := 30 + 1 + 1)
      ((0 : BitVec 30) ++ BitVec.ofBool s.ieErr ++ BitVec.ofBool s.ieDone) k := rfl
  rw [hbits, getLsbD_append_ofBool, getLsbD_append_ofBool]
  match k with
  | 0 | 1 => rfl
  | k + 2 => simp

/-! ## Register reads and writes -/

/-- The halves of a 64-bit register put together are its value. -/
theorem highHalf_append_lowHalf (x : BitVec 64) : highHalf x ++ lowHalf x = x := by
  apply BitVec.eq_of_getLsbD_eq
  intro i hi
  rw [BitVec.getLsbD_append, highHalf, lowHalf, BitVec.getLsbD_extractLsb', BitVec.getLsbD_extractLsb']
  split
  · simp [*]
  · simp [show i - 32 < 32 by omega, show 32 + (i - 32) = i by omega]

theorem readCounter_of_idle {s : State} (h : s.busy = false) (v : Word32) : readCounter v s = returnRead v s := by
  simp [readCounter, h]

theorem readCounter_of_busy {s : State} (h : s.busy = true) (v : Word32) :
    readCounter v s = returnRead (Config.freeWord s.draws) { s with draws := s.draws + 1 } := by
  simp [readCounter, h]

/-- Settles O41: CTRL by `ctrl_getLsbD`, the counters by `readCounter_of_idle`, the 64-bit values by
`highHalf_append_lowHalf`. -/
theorem registerReads : Obligations.RegisterReads := by
  intro s
  refine ⟨rfl, rfl, ⟨State.ctrl s, rfl, ctrl_getLsbD s 0, ctrl_getLsbD s 1, fun k hk => ?_⟩, rfl, rfl, rfl,
    ⟨lowHalf s.errCmd, highHalf s.errCmd, rfl, rfl, highHalf_append_lowHalf _⟩, fun hidle =>
      ⟨⟨lowHalf s.s256.cnt, highHalf s.s256.cnt, ?_, ?_, highHalf_append_lowHalf _⟩,
        ⟨lowHalf s.s512.cnt, highHalf s.s512.cnt, ?_, ?_, highHalf_append_lowHalf _⟩⟩⟩
  · rw [ctrl_getLsbD, if_neg (by omega), if_neg (by omega)]
  all_goals exact congrArg Host.Outcome.next (readCounter_of_idle hidle _)

theorem highHalf_append (x y : Word32) : highHalf (x ++ y) = x := by
  apply BitVec.eq_of_getLsbD_eq
  intro i hi
  rw [highHalf, BitVec.getLsbD_extractLsb', BitVec.getLsbD_append]
  simp [hi]

theorem lowHalf_append (x y : Word32) : lowHalf (x ++ y) = y := by
  apply BitVec.eq_of_getLsbD_eq
  intro i hi
  rw [lowHalf, BitVec.getLsbD_extractLsb', BitVec.getLsbD_append]
  simp [hi]

/-- Settles O44: the issued word is CMD_HI above CMD_LO. -/
theorem commandRegisterWrites : Obligations.CommandRegisterWrites :=
  fun v s => ⟨rfl, v ++ s.cmdLo, highHalf_append v s.cmdLo, lowHalf_append v s.cmdLo, rfl⟩

/-! ## What a read draws (R38, 20_memory.md R80, 70_reset_and_hazards.md R244, R245) -/

theorem hostRead_counter_of_busy {off : BitVec 17} (hoff : off.toNat ∈ [0x20, 0x24, 0x28, 0x2C]) {s : State}
    (hbusy : s.busy = true) : hostRead off s =
      .next { s with reads := Config.freeWord s.draws :: s.reads, draws := s.draws + 1 } := by
  simp only [List.mem_cons, List.not_mem_nil, or_false] at hoff
  have halign : off.toNat % 4 = 0 := by omega
  rw [hostRead_register halign (by omega)]
  obtain h | h | h | h := hoff <;> rw [h] <;> exact congrArg Host.Outcome.next (readCounter_of_busy hbusy _)

/-- Byte `j` of a word, above its lowest byte and at it. -/
theorem extractLsb'_append_byte {n : Nat} (x : BitVec n) (y : Byte) (j : Nat) :
    (x ++ y).extractLsb' (8 * j) 8 = if j = 0 then y else x.extractLsb' (8 * (j - 1)) 8 := by
  apply BitVec.eq_of_getLsbD_eq
  intro i hi
  rw [BitVec.getLsbD_extractLsb', BitVec.getLsbD_append]
  cases j with
  | zero => simp [hi]
  | succ j => simp [hi, show ¬ 8 * (j + 1) + i < 8 by omega, show 8 * (j + 1) + i - 8 = 8 * j + i by omega]

/-- The word a window read of MEM address `a` returns, little-endian (20_memory.md R63). -/
def windowWord (s : State) (a : Nat) : Word32 :=
  windowByte s (a + 3) (s.draws + 3) ++ windowByte s (a + 2) (s.draws + 2)
    ++ windowByte s (a + 1) (s.draws + 1) ++ windowByte s a s.draws

theorem readWindow_of_lt {a : Nat} {s : State} (h : a + 3 < s.params.memSize) :
    readWindow a s = { s with reads := windowWord s a :: s.reads, draws := s.draws + 4 } := if_pos h

/-- Byte `j` of a little-endian word is the byte at lane `j`. -/
theorem windowWord_byte (s : State) (a : Nat) {j : Nat} (hj : j < 4) :
    (windowWord s a).extractLsb' (8 * j) 8 = windowByte s (a + j) (s.draws + j) := by
  rw [windowWord, extractLsb'_append_byte, extractLsb'_append_byte, extractLsb'_append_byte]
  interval_cases j <;> simp

/-- A byte of the write span in flight, or one never written, is drawn. -/
theorem windowByte_of_drawn {s : State} {a : Nat}
    (h : (s.busy = true ∧ inSpan (inflightWriteSpan s) a = true) ∨ Memory.read s.mem a = none) (draw : Nat) :
    windowByte s a draw = Config.freeByte draw := by
  unfold windowByte
  obtain ⟨hbusy, hspan⟩ | hnone := h
  · rw [if_pos (by rw [hbusy, hspan]; rfl)]
  · rw [hnone, ite_self]

/-- Settles O45: counters by `hostRead_counter_of_busy`, the window byte by byte (`windowWord_byte`,
`windowByte_of_drawn`). -/
theorem drawnReads : Obligations.DrawnReads := by
  refine ⟨fun off s hbusy hoff => hostRead_counter_of_busy hoff hbusy, fun k j s hk hmem hj hdrawn => ?_⟩
  refine ⟨windowWord s (4 * k), ?_, ?_⟩
  · rw [hostRead_window (by omega), readWindow_of_lt hmem]
  · rw [windowWord_byte s _ hj, windowByte_of_drawn hdrawn]

/-! ## Right after hardware reset (R41, R235, R236) -/

section
variable (p : Params) (host : List HostAction) (reads : List Word32) (wait draws : Nat)

theorem atReset_afterReset : State.atReset (State.afterReset p host reads wait draws) := by
  simp [State.atReset, State.afterReset, State.irq, zeroWords, Words8.toList, Memory.read]

theorem status_afterReset : State.status (State.afterReset p host reads wait draws) = 0x00000001 := by
  simp only [State.status, State.irq, State.afterReset, initial_fin]
  decide

end

/-- Settles O47: hardware reset and the model's reset state are both `State.afterReset`. -/
theorem hardwareResetValues : Obligations.HardwareResetValues :=
  ⟨fun _ => ⟨rfl, atReset_afterReset _ _ _ _ _, status_afterReset _ _ _ _ _⟩,
    atReset_afterReset _ _ _ _ _, status_afterReset _ _ _ _ _⟩

end Sys2Proof.Machine

/-!
PROOFS. What a command reads of MEM and what it writes there (20_memory.md R69, R80).
-/
namespace Sys2Proof.Machine

/-! ## Spans -/

theorem inSpan_some (a n x : Nat) : inSpan (some (a, n)) x = true ↔ a ≤ x ∧ x < a + n := decide_eq_true_iff

/-- A span with a byte that was never written has no contents (R80). -/
theorem Memory.readBytes_eq_none {m : Memory} {a n x : Nat} (hlow : a ≤ x) (hhigh : x < a + n)
    (hx : Memory.read m x = none) : Memory.readBytes m a n = none := by
  cases hbytes : Memory.readBytes m a n with
  | none => rfl
  | some bytes =>
    obtain ⟨-, hread⟩ := (Memory.readBytes_eq_some m n a bytes).1 hbytes
    have hsome := hread (x - a) (by omega)
    rw [Nat.add_sub_cancel' hlow, hx] at hsome
    cases hsome

/-- Inside a span just written, the memory before does not matter. -/
theorem Memory.read_writeBytes_inside {m m' : Memory} {a x : Nat} {bytes : List Byte} (hlow : a ≤ x)
    (hhigh : x < a + bytes.length) :
    Memory.read (Memory.writeBytes m a bytes) x = Memory.read (Memory.writeBytes m' a bytes) x := by
  have hread (m : Memory) : Memory.read (Memory.writeBytes m a bytes) x = some (bytes.getD (x - a) 0) := by
    obtain ⟨-, hread⟩ := (Memory.readBytes_eq_some _ _ _ _).1 (Memory.readBytes_writeBytes bytes m a)
    simpa [Nat.add_sub_cancel' hlow] using hread (x - a) (by omega)
  rw [hread, hread]

/-- No command both reads and writes MEM (R69). -/
theorem readSpan_or_writeSpan_eq_none (i : Instr) : readSpan i = none ∨ writeSpan i = none := by
  cases i with
  | nop | s256Init | s256Final | s256Stst | s512Init | s512Final | s512Stst | hmacFinal | hmacClear => exact .inl rfl
  | s256Write | s256Xform | s256Ldst | s512Write | s512Xform | s512Ldst | hmacKey | hmacWrite => exact .inr rfl

/-! ## A never-written byte in the read span (R80) -/

/-- Settles O30: no bytes are read (`Memory.readBytes_eq_none`), so a command that passed its checks faults. -/
theorem unwrittenReadsFault : Obligations.UnwrittenReadsFault := by
  intro i s a n x hcheck hspan hlow hhigh hx
  rw [exec_of_readSpan_some hspan, hcheck, guarded_none, withBytes_none _ (Memory.readBytes_eq_none hlow hhigh hx)]

/-! ## A command with another MEM -/

/-- A command whose checks find an error records it. -/
theorem exec_of_commandError_some {i : Instr} {s : State} {code : ErrCode} (hcheck : commandError i s = some code) :
    exec i s = .next (raiseError code (encode i) s) := by
  cases hspan : readSpan i with
  | none => rw [exec_of_readSpan_none hspan, hcheck, guarded_some]
  | some span => rw [exec_of_readSpan_some hspan, hcheck, guarded_some]

theorem commandEffects_of_readSpan_none {i : Instr} (hspan : readSpan i = none) (bytes : List Byte) (s : State) :
    commandEffects i bytes s = commandEffects i [] s := by
  cases i with
  | nop | s256Init | s256Final | s256Stst | s512Init | s512Final | s512Stst | hmacFinal | hmacClear => rfl
  | s256Write | s256Xform | s256Ldst | s512Write | s512Xform | s512Ldst | hmacKey | hmacWrite => cases hspan

/-- The converse of `exec_effects`: a command that passed its checks and whose read span holds `bytes` has its effects
on them and completes. -/
theorem exec_of_commandError_none {i : Instr} {s : State} {bytes : List Byte} (hcheck : commandError i s = none)
    (hbytes : ∀ a n, readSpan i = some (a, n) → Memory.readBytes s.mem a n = some bytes) :
    exec i s = .next (complete (commandEffects i bytes s)) := by
  cases hspan : readSpan i with
  | none => rw [exec_of_readSpan_none hspan, hcheck, guarded_none, commandEffects_of_readSpan_none hspan bytes]
  | some span => rw [exec_of_readSpan_some hspan, hcheck, guarded_none, withBytes_some _ (hbytes _ _ hspan)]

section
variable (i : Instr) (s : State) (m : Memory)

theorem commandError_withMem : commandError i { s with mem := m } = commandError i s :=
  commandError_congr i rfl rfl rfl rfl rfl rfl

/-- Beside the bytes read, MEM shows in the effects of a command only as MEM. -/
theorem commandEffects_withMem (bytes : List Byte) : commandEffects i bytes { s with mem := m } =
    { commandEffects i bytes s with mem := (commandEffects i bytes { s with mem := m }).mem } := by
  cases i <;> simp only [commandEffects]

/-- What a command writes does not depend on MEM (40_sha256.md R129). -/
theorem read_commandEffects_withMem (bytes : List Byte) {x : Nat} (hx : inSpan (writeSpan i) x = true) :
    Memory.read (commandEffects i bytes { s with mem := m }).mem x =
      Memory.read (commandEffects i bytes s).mem x := by
  cases i with
  | s256Final | s256Stst | s512Final | s512Stst | hmacFinal =>
    obtain ⟨hlow, hhigh⟩ := (inSpan_some _ _ _).1 hx
    simp only [commandEffects]
    exact Memory.read_writeBytes_inside hlow (by simpa [finalizeDigest] using hhigh)
  | nop | s256Init | s256Write | s256Xform | s256Ldst | s512Init | s512Write | s512Xform | s512Ldst | hmacKey
  | hmacWrite | hmacClear => cases hx

end

/-- Settles O31: a command that found an error finds it again (`exec_of_commandError_some`), and one that completed
reads the same bytes and has the same effects on them (`commandEffects_withMem`, `read_commandEffects_withMem`). -/
theorem commandsDependOnTheirReadSpan : Obligations.CommandsDependOnTheirReadSpan := by
  refine fun i => ⟨readSpan_or_writeSpan_eq_none i, fun s t m hagree h => ?_⟩
  have hsame := commandError_withMem i s m
  obtain ⟨code, hcheck, rfl⟩ | ⟨hcheck, bytes, hbytes, rfl⟩ := exec_effects h
  · refine ⟨_, exec_of_commandError_some (hsame.trans hcheck), rfl, fun _ _ hnone => ?_⟩
    cases hcheck.symm.trans hnone
  · have hbytes' (a n : Nat) (hspan : readSpan i = some (a, n)) : Memory.readBytes m a n = some bytes := by
      rw [← hbytes a n hspan]
      refine Memory.readBytes_congr m s.mem n a fun x hlow hhigh => hagree x ?_
      rw [hspan]
      exact (inSpan_some a n x).2 ⟨hlow, hhigh⟩
    refine ⟨_, exec_of_commandError_none (hsame.trans hcheck) hbytes', ?_, fun x hx _ => ?_⟩
    · rw [commandEffects_withMem]
      rfl
    · simpa using read_commandEffects_withMem i s m bytes hx

end Sys2Proof.Machine

/-!
PROOFS. The MEM window and the accesses of the host's bus (20_memory.md §1), and that MEM keeps its canonical form.
-/
namespace Sys2Proof.Machine

/-! ## Window reads (R63, R64) -/

/-- A written byte outside the write span in flight reads as itself (70_reset_and_hazards.md R244). -/
theorem windowByte_of_settled {s : State} {a : Nat} {b : Byte} (hread : Memory.read s.mem a = some b)
    (hsettled : State.settled s a) (draw : Nat) : windowByte s a draw = b := by
  have hnone : ¬ (s.busy && inSpan (inflightWriteSpan s) a) = true := by
    intro h
    obtain ⟨hbusy, hspan⟩ := Bool.and_eq_true_iff.1 h
    exact absurd ((hsettled hbusy).symm.trans hspan) (by decide)
  rw [windowByte, if_neg hnone, hread]

theorem readWindow_of_not_lt {a : Nat} {s : State} (h : ¬ a + 3 < s.params.memSize) :
    readWindow a s = { s with reads := 0 :: s.reads } := if_neg h

theorem toNat_append_byte {n : Nat} (x : BitVec n) (y : Byte) : (x ++ y).toNat = x.toNat * 2 ^ 8 + y.toNat := by
  rw [BitVec.toNat_append, ← Nat.shiftLeft_add_eq_or_of_lt y.isLt, Nat.shiftLeft_eq]

/-- The word read is the little-endian number of its four bytes. -/
theorem windowWord_toNat (s : State) (a : Nat) : (windowWord s a).toNat =
    (windowByte s a s.draws).toNat + (windowByte s (a + 1) (s.draws + 1)).toNat * 2 ^ 8
      + (windowByte s (a + 2) (s.draws + 2)).toNat * 2 ^ 16 + (windowByte s (a + 3) (s.draws + 3)).toNat * 2 ^ 24 := by
  simp only [windowWord, toNat_append_byte]
  omega

/-- Settles O42: the word read is `windowWord`, byte by byte (`windowWord_byte`) and as a number
(`windowWord_toNat`), and each settled byte is MEM's (`windowByte_of_settled`). -/
theorem windowReads : Obligations.WindowReads := by
  refine fun k s hk => ⟨fun hmem => ⟨windowWord s (4 * k), s.draws + 4, ?_, ?_, ?_⟩, fun hmem => ?_⟩
  · rw [hostRead_window hk, readWindow_of_lt hmem]
  · intro j b hj hread hsettled
    rw [windowWord_byte s _ hj, windowByte_of_settled hread hsettled]
  · intro b0 b1 b2 b3 hsettled hbytes
    obtain ⟨-, hread⟩ := (Memory.readBytes_eq_some _ _ _ _).1 hbytes
    have hbyte (j : Nat) (hj : j < 4) (draw : Nat) : windowByte s (4 * k + j) draw = [b0, b1, b2, b3].getD j 0 :=
      windowByte_of_settled (hread j hj) (hsettled j hj) draw
    have hbyte0 : windowByte s (4 * k) s.draws = b0 := hbyte 0 (by decide) _
    rw [windowWord_toNat, hbyte0, hbyte 1 (by decide), hbyte 2 (by decide), hbyte 3 (by decide)]
    rfl
  · rw [hostRead_window hk, readWindow_of_not_lt (by omega)]

/-! ## Window writes (R61, R63, R64) -/

/-- A window write of the aligned word `k`, while BUSY = 0. -/
theorem hostWrite_window {k : Nat} (hk : 4 * k < 0x10000) (data : Word32) (wstrb : BitVec 4) {s : State}
    (hbusy : s.busy = false) :
    hostWrite (BitVec.ofNat 17 (0x10000 + 4 * k)) data wstrb s = .next (writeWindow (4 * k) data wstrb s) := by
  have hoff : (BitVec.ofNat 17 (0x10000 + 4 * k)).toNat = 0x10000 + 4 * k := by
    rw [BitVec.toNat_ofNat]; omega
  have halign : (0x10000 + 4 * k) % 4 = 0 := by omega
  simp [hostWrite, alignedOffset, windowBase, hoff, halign, hbusy]

theorem writeWindow_of_not_lt {a : Nat} {s : State} (h : ¬ a + 3 < s.params.memSize) (data : Word32)
    (wstrb : BitVec 4) : writeWindow a data wstrb s = s := if_neg h

/-- What MEM reads after a window write inside MEM: the byte of the last lane that is strobed and at this address, or as
before. -/
theorem read_writeWindow {a : Nat} {s : State} (h : a + 3 < s.params.memSize) (data : Word32) (wstrb : BitVec 4)
    (x : Nat) : Memory.read (writeWindow a data wstrb s).mem x =
      if x = a + 3 ∧ wstrb.getLsbD 3 = true then some (data.extractLsb' 24 8)
      else if x = a + 2 ∧ wstrb.getLsbD 2 = true then some (data.extractLsb' 16 8)
      else if x = a + 1 ∧ wstrb.getLsbD 1 = true then some (data.extractLsb' 8 8)
      else if x = a ∧ wstrb.getLsbD 0 = true then some (data.extractLsb' 0 8)
      else Memory.read s.mem x := by
  simp only [writeWindow, if_pos h, Memory.read_writeLane, Nat.add_zero, Nat.reduceMul]

/-- The byte of lane `j` after a window write: stored if strobed, as before if not. -/
theorem read_writeWindow_lane {a : Nat} {s : State} (h : a + 3 < s.params.memSize) (data : Word32) (wstrb : BitVec 4)
    {j : Nat} (hj : j < 4) : Memory.read (writeWindow a data wstrb s).mem (a + j) =
      if wstrb.getLsbD j = true then some (data.extractLsb' (8 * j) 8) else Memory.read s.mem (a + j) := by
  rw [read_writeWindow h]
  interval_cases j <;> simp

theorem read_writeWindow_outside {a : Nat} {s : State} (h : a + 3 < s.params.memSize) (data : Word32)
    (wstrb : BitVec 4) {x : Nat} (hx : x < a ∨ a + 4 ≤ x) :
    Memory.read (writeWindow a data wstrb s).mem x = Memory.read s.mem x := by
  rw [read_writeWindow h, if_neg (by omega), if_neg (by omega), if_neg (by omega), if_neg (by omega)]

/-- Settles O43: `read_writeWindow_lane` and `read_writeWindow_outside`. -/
theorem windowWrites : Obligations.WindowWrites := by
  intro k data wstrb s hk hbusy
  rw [hostWrite_window hk data wstrb hbusy]
  refine ⟨fun hmem => ⟨(writeWindow (4 * k) data wstrb s).mem, ?_, ?_, ?_, ?_⟩, fun hmem => ?_⟩
  · rw [← writeWindow_eq]
  · intro j hj hstrobe
    rw [read_writeWindow_lane hmem data wstrb hj, if_pos hstrobe]
  · intro j hj hstrobe
    rw [read_writeWindow_lane hmem data wstrb hj, if_neg (Bool.eq_false_iff.1 hstrobe)]
  · exact fun x hx => read_writeWindow_outside hmem data wstrb hx
  · rw [writeWindow_of_not_lt (by omega)]

/-! ## MEM stays canonical (R80; log 4) -/

theorem exec_mem_wf {i : Instr} {s t : State} (hs : Memory.wf s.mem) (h : exec i s = .next t) : Memory.wf t.mem := by
  obtain hmem | ⟨dst, bytes, -, -, hmem⟩ := exec_mem h <;> rw [hmem]
  · exact hs
  · exact Memory.wf_writeBytes bytes s.mem dst hs

theorem writeWindow_mem_wf (a : Nat) (data : Word32) (wstrb : BitVec 4) {s : State} (hs : Memory.wf s.mem) :
    Memory.wf (writeWindow a data wstrb s).mem := by
  by_cases h : a + 3 < s.params.memSize
  · simp only [writeWindow, if_pos h]
    iterate 4 apply Memory.wf_writeLane
    exact hs
  · rwa [writeWindow_of_not_lt h]

theorem softReset_mem_wf {s : State} (hs : Memory.wf s.mem) : Memory.wf (softReset s).mem := by
  cases hrunning : State.selfTestRunning s
  · rw [softReset_of_not_selfTestRunning hrunning]
    show Memory.wf (abort s).mem
    unfold abort
    split
    · exact hs
    · exact Memory.wf_scramble s.mem _ _ s.draws hs
  · rwa [softReset_of_selfTestRunning hrunning]

theorem HostEffect.mem_wf {s t : State} (h : HostEffect s t) (hs : Memory.wf s.mem) : Memory.wf t.mem := by
  cases h with
  | unmoved h => rwa [h.mem]
  | windowWrite a data wstrb => exact writeWindow_mem_wf a data wstrb hs
  | accepted => exact hs
  | softReset => exact softReset_mem_wf hs
  | hardwareReset => exact List.Pairwise.nil

/-- Settles O56, by what a step can do: the self-test's end keeps MEM, a command by `exec_mem_wf`, a host action by
`HostEffect.mem_wf`. -/
theorem memoryStaysCanonical : Obligations.MemoryStaysCanonical := by
  intro s t hs h
  obtain ⟨-, -, rfl⟩ | ⟨_, _, -, -, h⟩ | ⟨u, hu, h⟩ := step_effect h
  · rwa [selfTestEnd_shape]
  · exact exec_mem_wf hs h
  · exact h.mem_wf (hu.mem ▸ hs)

/-! ## Host reads (R71, 43_system.md R195) -/

/-- `t` is `s` with one more value in the model's record of reads, and any count of drawn values (logs 3, 10). -/
def ReadRecorded (s t : State) : Prop := ∃ v draws, t = { s with reads := v :: s.reads, draws := draws }

theorem returnRead_recorded (v : Word32) (s : State) (draws : Nat) :
    ReadRecorded s (returnRead v { s with draws := draws }) := ⟨v, draws, rfl⟩

theorem readCounter_recorded (v : Word32) (s : State) : ReadRecorded s (readCounter v s) := by
  cases hbusy : s.busy
  · rw [readCounter_of_idle hbusy]
    exact returnRead_recorded v s s.draws
  · rw [readCounter_of_busy hbusy]
    exact returnRead_recorded _ s (s.draws + 1)

theorem readRegister_recorded (off : Nat) (s : State) : ReadRecorded s (readRegister off s) := by
  unfold readRegister
  split
  case h_9 | h_10 | h_11 | h_12 => exact readCounter_recorded _ s
  all_goals exact returnRead_recorded _ s s.draws

theorem readWindow_recorded (a : Nat) (s : State) : ReadRecorded s (readWindow a s) := by
  by_cases h : a + 3 < s.params.memSize
  · exact ⟨_, _, readWindow_of_lt h⟩
  · exact ⟨_, _, readWindow_of_not_lt h⟩

theorem hostRead_of_window {off : BitVec 17} (halign : off.toNat % 4 = 0) (hwindow : 0x10000 ≤ off.toNat)
    (s : State) : hostRead off s = .next (readWindow (off.toNat - 0x10000) s) := by
  simp [hostRead, alignedOffset, windowBase, halign, Nat.not_lt.2 hwindow]

/-- Settles O39: `readRegister_recorded` below the window, `readWindow_recorded` in it. -/
theorem readsChangeNothing : Obligations.ReadsChangeNothing := by
  intro off s halign
  by_cases hreg : off.toNat < 0x10000
  · rw [hostRead_register halign hreg]
    obtain ⟨v, draws, h⟩ := readRegister_recorded off.toNat s
    exact ⟨v, draws, congrArg Host.Outcome.next h⟩
  · rw [hostRead_of_window halign (Nat.not_lt.1 hreg)]
    obtain ⟨v, draws, h⟩ := readWindow_recorded (off.toNat - 0x10000) s
    exact ⟨v, draws, congrArg Host.Outcome.next h⟩

/-! ## Accesses that stop (R62, R65, 70_reset_and_hazards.md R244) -/

/-- Settles O46, check by check in the order `hostWrite` makes them (log 11). -/
theorem stoppedAccesses : Obligations.StoppedAccesses := by
  intro off data wstrb rest s
  refine ⟨fun hmisaligned => ?_, rfl, fun halign hreg hstrobe => ?_, fun halign hwindow hbusy => ?_⟩
  · simp [hostRead, hostWrite, alignedOffset, hmisaligned]
  · simpa [hostWrite, alignedOffset, windowBase, halign, hreg] using hstrobe
  · simp [hostWrite, alignedOffset, windowBase, halign, Nat.not_lt.2 hwindow, hbusy]

end Sys2Proof.Machine

/-!
PROOFS. The command word (30_encoding.md §1, §2): what the decoder of each opcode answers, that decoding and encoding
undo each other, and R93's table.
-/
namespace Sys2Proof
open Machine

/-! ## The three operand formats (R88) -/

theorem addrFits_iff (a : Nat) : addrFits a = true ↔ a < 65536 := decide_eq_true_iff

theorem lenFits_iff (n : Nat) : lenFits n = true ↔ n < 16777216 := decide_eq_true_iff

theorem decodeBare_pack (o : BitVec 8) (i : Instr) : decodeBare (pack o 0 0 0) i = .ok i := by simp [decodeBare]

theorem decodeSrcLen_packSrcLen (o : BitVec 8) (f : Nat → Nat → Instr) {src len : Nat}
    (h : (addrFits src && lenFits len) = true) : decodeSrcLen (packSrcLen o src len) f = .ok (f src len) := by
  obtain ⟨hsrc, hlen⟩ := Bool.and_eq_true_iff.1 h
  simp [decodeSrcLen, packSrcLen, Nat.mod_eq_of_lt ((addrFits_iff src).1 hsrc),
    Nat.mod_eq_of_lt ((lenFits_iff len).1 hlen)]

theorem decodeDst_packDst (o : BitVec 8) (f : Nat → Instr) {dst : Nat} (h : addrFits dst = true) :
    decodeDst (packDst o dst) f = .ok (f dst) := by
  simp [decodeDst, packDst, Nat.mod_eq_of_lt ((addrFits_iff dst).1 h)]

theorem pack_of_fields {w : Command} {o : BitVec 8} {s d : BitVec 16} {l : BitVec 24} (ho : opcField w = o)
    (hs : srcField w = s) (hd : dstField w = d) (hl : lenField w = l) : pack o s d l = w := by
  subst ho hs hd hl
  exact pack_fields w

section
variable {w : Command} {o : BitVec 8} (hop : (opcField w).toNat = o.toNat)
include hop

theorem pack_of_decodeBare {i j : Instr} (h : decodeBare w i = .ok j) : pack o 0 0 0 = w := by
  unfold decodeBare at h
  split at h
  · next hz => exact pack_of_fields (BitVec.eq_of_toNat_eq hop) hz.1 hz.2.1 hz.2.2
  · cases h

theorem packSrcLen_of_decodeSrcLen {f : Nat → Nat → Instr} {j : Instr} (h : decodeSrcLen w f = .ok j) :
    packSrcLen o (srcField w).toNat (lenField w).toNat = w := by
  unfold decodeSrcLen at h
  split at h
  · next hdst =>
    exact pack_of_fields (BitVec.eq_of_toNat_eq hop) (by simp) hdst (by simp)
  · cases h

theorem packDst_of_decodeDst {f : Nat → Instr} {j : Instr} (h : decodeDst w f = .ok j) :
    packDst o (dstField w).toNat = w := by
  unfold decodeDst at h
  split at h
  · next hz => exact pack_of_fields (BitVec.eq_of_toNat_eq hop) hz.1 (by simp) hz.2
  · cases h

end

/-! ## Decoding and encoding undo each other (R92, R95) -/

/-- The decoder of the command's opcode (R89). Tied to the model by `decode_of_opcode`. -/
def decodeLike (i : Instr) (w : Command) : Decoded :=
  match i with
  | .nop => decodeBare w .nop
  | .s256Init => decodeBare w .s256Init
  | .s256Write _ _ => decodeSrcLen w .s256Write
  | .s256Final _ => decodeDst w .s256Final
  | .s256Xform _ _ => decodeSrcLen w .s256Xform
  | .s256Ldst _ _ => decodeSrcLen w .s256Ldst
  | .s256Stst _ => decodeDst w .s256Stst
  | .s512Init => decodeBare w .s512Init
  | .s512Write _ _ => decodeSrcLen w .s512Write
  | .s512Final _ => decodeDst w .s512Final
  | .s512Xform _ _ => decodeSrcLen w .s512Xform
  | .s512Ldst _ _ => decodeSrcLen w .s512Ldst
  | .s512Stst _ => decodeDst w .s512Stst
  | .hmacKey _ _ => decodeSrcLen w .hmacKey
  | .hmacWrite _ _ => decodeSrcLen w .hmacWrite
  | .hmacFinal _ => decodeDst w .hmacFinal
  | .hmacClear => decodeBare w .hmacClear

theorem decode_of_opcode {w : Command} {i : Instr} (h : opcField w = i.opcode) : decode w = decodeLike i w := by
  unfold decode
  rw [h]
  cases i <;> rfl

theorem opcField_encode (i : Instr) : opcField (encode i) = i.opcode := by
  cases i <;> exact opcField_pack _ _ _ _

theorem decode_encode {i : Instr} (h : i.wellFormed = true) : decode (encode i) = .ok i := by
  rw [decode_of_opcode (opcField_encode i)]
  cases i with
  | nop | s256Init | s512Init | hmacClear => exact decodeBare_pack _ _
  | s256Write | s256Xform | s256Ldst | s512Write | s512Xform | s512Ldst | hmacKey | hmacWrite =>
    exact decodeSrcLen_packSrcLen _ _ h
  | s256Final | s256Stst | s512Final | s512Stst | hmacFinal => exact decodeDst_packDst _ _ h

theorem decodeTableWord_toNat (w : Command) : decodeTableWord 64 w.toNat = (decode w).toOption := by
  simp [decodeTableWord, Nat.mod_eq_of_lt w.isLt]

/-- Settles O1: format by format (`decode_encode`), and the table form is the decoder on the word's 64 bits. -/
theorem decodeOfEncode : Obligations.DecodeOfEncode := by
  intro i hwf
  have hdecode := decode_encode hwf
  exact ⟨hdecode, by rw [decodeTableWord_toNat, hdecode]; rfl⟩

theorem encode_of_decode {w : Command} {i : Instr} (h : decode w = .ok i) : encode i = w := by
  unfold decode at h
  split at h
  case h_1 hop | h_2 hop | h_8 hop | h_17 hop => rw [decodeBare_eq_ok h]; exact pack_of_decodeBare hop h
  case h_3 hop | h_5 hop | h_6 hop | h_9 hop | h_11 hop | h_12 hop | h_14 hop | h_15 hop =>
    rw [decodeSrcLen_eq_ok h]
    exact packSrcLen_of_decodeSrcLen hop h
  case h_4 hop | h_7 hop | h_10 hop | h_13 hop | h_16 hop =>
    rw [decodeDst_eq_ok h]
    exact packDst_of_decodeDst hop h
  case h_18 => cases h

/-- Settles O2: `decode_wellFormed` and `encode_of_decode`. -/
theorem encodeOfDecode : Obligations.EncodeOfDecode := fun _ _ h => ⟨decode_wellFormed h, encode_of_decode h⟩

/-! ## The mask and match table (R93) -/

/-- The three operand formats of R88, by the operands a command uses. -/
inductive Layout where
  | bare
  | srcLen
  | dst

/-- The format of each command (R88). Tied to the model by `decode_of_unusedZero` and `unusedZero_encode`. -/
def Instr.layout : Instr → Layout
  | .nop | .s256Init | .s512Init | .hmacClear => .bare
  | .s256Write _ _ | .s256Xform _ _ | .s256Ldst _ _ | .s512Write _ _ | .s512Xform _ _ | .s512Ldst _ _
  | .hmacKey _ _ | .hmacWrite _ _ => .srcLen
  | .s256Final _ | .s256Stst _ | .s512Final _ | .s512Stst _ | .hmacFinal _ => .dst

/-- The bits R93 compares: OPC and every field the format does not use. Tied to the table by `opcodeTable_eq`. -/
def Layout.mask : Layout → Command
  | .bare => pack (.allOnes 8) (.allOnes 16) (.allOnes 16) (.allOnes 24)
  | .srcLen => pack (.allOnes 8) 0 (.allOnes 16) 0
  | .dst => pack (.allOnes 8) (.allOnes 16) 0 (.allOnes 24)

/-- The fields the format does not use are zero. -/
def Layout.unusedZero (L : Layout) (w : Command) : Prop :=
  match L with
  | .bare => srcField w = 0 ∧ dstField w = 0 ∧ lenField w = 0
  | .srcLen => dstField w = 0
  | .dst => srcField w = 0 ∧ lenField w = 0

/-- The command's row of R93's table. Tied to the model by `exists_row` and `row_mem_opcodeTable`. -/
def Instr.row (i : Instr) : TableRow := ⟨i.mnemonic, i.layout.mask, pack i.opcode 0 0 0⟩

theorem pack_and_pack (o o' : BitVec 8) (s s' d d' : BitVec 16) (l l' : BitVec 24) :
    pack o s d l &&& pack o' s' d' l' = pack (o &&& o') (s &&& s') (d &&& d') (l &&& l') := by
  have h : (o ++ s ++ d ++ l) &&& (o' ++ s' ++ d' ++ l') = (o &&& o') ++ (s &&& s') ++ (d &&& d') ++ (l &&& l') := by
    simp only [BitVec.and_append]
  exact h

theorem pack_inj {o o' : BitVec 8} {s s' d d' : BitVec 16} {l l' : BitVec 24} :
    pack o s d l = pack o' s' d' l' ↔ o = o' ∧ s = s' ∧ d = d' ∧ l = l' := by
  refine ⟨fun h => ?_, fun ⟨ho, hs, hd, hl⟩ => by rw [ho, hs, hd, hl]⟩
  have hop := congrArg opcField h
  have hsrc := congrArg srcField h
  have hdst := congrArg dstField h
  have hlen := congrArg lenField h
  simp only [opcField_pack, srcField_pack, dstField_pack, lenField_pack] at hop hsrc hdst hlen
  exact ⟨hop, hsrc, hdst, hlen⟩

/-- A word meets a mask and match when its OPC is the match's and the fields its format does not use are zero. -/
theorem and_mask_eq_iff (L : Layout) (w : Command) (o : BitVec 8) :
    w &&& L.mask = pack o 0 0 0 ↔ opcField w = o ∧ L.unusedZero w := by
  conv_lhs => rw [← pack_fields w]
  cases L <;> simp [-BitVec.reduceAllOnes, Layout.mask, Layout.unusedZero, pack_and_pack, pack_inj]

theorem unusedZero_encode (i : Instr) : i.layout.unusedZero (encode i) := by
  cases i <;> simp [Instr.layout, Layout.unusedZero, encode, packSrcLen, packDst]

/-- A word with a command's opcode and zeros in the fields its format does not use decodes to that command. -/
theorem decode_of_unusedZero {w : Command} {i : Instr} (hop : opcField w = i.opcode)
    (hz : i.layout.unusedZero w) : ∃ j, decode w = .ok j ∧ j.mnemonic = i.mnemonic := by
  rw [decode_of_opcode hop]
  cases i <;> exact ⟨_, if_pos hz, rfl⟩

/-- One command of every kind, in the order of R93. -/
def representatives : List Instr :=
  [.nop, .s256Init, .s256Write 0 0, .s256Final 0, .s256Xform 0 0, .s256Ldst 0 0, .s256Stst 0,
   .s512Init, .s512Write 0 0, .s512Final 0, .s512Xform 0 0, .s512Ldst 0 0, .s512Stst 0,
   .hmacKey 0 0, .hmacWrite 0 0, .hmacFinal 0, .hmacClear]

theorem opcodeTable_eq : opcodeTable = representatives.map Instr.row := by decide

theorem exists_row {r : TableRow} (h : r ∈ opcodeTable) : ∃ i : Instr, r = i.row := by
  rw [opcodeTable_eq] at h
  obtain ⟨i, -, rfl⟩ := List.mem_map.1 h
  exact ⟨i, rfl⟩

theorem row_mem_opcodeTable (i : Instr) : i.row ∈ opcodeTable := by
  rw [opcodeTable_eq]
  cases i <;> simp [representatives, Instr.row, Instr.layout, Instr.mnemonic, Instr.opcode]

theorem row_eq_of_mnemonic_eq : ∀ r ∈ opcodeTable, ∀ r' ∈ opcodeTable, r.mnemonic = r'.mnemonic → r = r' := by
  decide

/-- Settles O3: a word that meets the mask and match has the opcode and the zeros of the row (`and_mask_eq_iff`), so it
decodes; a word that decodes is its command's word (`encode_of_decode`), which meets the row. -/
theorem maskAndMatchAgreeWithDecode : Obligations.MaskAndMatchAgreeWithDecode := by
  intro w r hr
  obtain ⟨i, rfl⟩ := exists_row hr
  constructor
  · intro hmatch
    obtain ⟨hop, hz⟩ := (and_mask_eq_iff _ _ _).1 hmatch
    exact decode_of_unusedZero hop hz
  · rintro ⟨j, hdecode, hname⟩
    rw [← row_eq_of_mnemonic_eq _ (row_mem_opcodeTable j) _ hr hname, ← encode_of_decode hdecode]
    exact (and_mask_eq_iff _ _ _).2 ⟨opcField_encode j, unusedZero_encode j⟩

/-! ## Words that are no command (R90, R91) -/

theorem decode_of_reservedOpcode {w : Command} (h : reservedOpcode w = true) : decode w = .error .illegalOpcode := by
  simp only [reservedOpcode, decide_eq_true_eq] at h
  unfold decode
  split
  case h_18 => rfl
  all_goals omega

theorem decodeBare_ne_illegalOpcode (w : Command) (i : Instr) : decodeBare w i ≠ .error .illegalOpcode := by
  unfold decodeBare
  split <;> simp

theorem decodeSrcLen_ne_illegalOpcode (w : Command) (f : Nat → Nat → Instr) :
    decodeSrcLen w f ≠ .error .illegalOpcode := by
  unfold decodeSrcLen
  split <;> simp

theorem decodeDst_ne_illegalOpcode (w : Command) (f : Nat → Instr) : decodeDst w f ≠ .error .illegalOpcode := by
  unfold decodeDst
  split <;> simp

theorem reservedOpcode_of_decode {w : Command} (h : decode w = .error .illegalOpcode) : reservedOpcode w = true := by
  unfold decode at h
  split at h
  case h_1 | h_2 | h_8 | h_17 => exact absurd h (decodeBare_ne_illegalOpcode w _)
  case h_3 | h_5 | h_6 | h_9 | h_11 | h_12 | h_14 | h_15 => exact absurd h (decodeSrcLen_ne_illegalOpcode w _)
  case h_4 | h_7 | h_10 | h_13 | h_16 => exact absurd h (decodeDst_ne_illegalOpcode w _)
  case h_18 =>
    simp only [imp_false, reservedOpcode, decide_eq_true_eq] at *
    omega

theorem reservedFieldSet_encode (i : Instr) : reservedFieldSet (encode i) = false := by
  cases i <;>
    simp [reservedFieldSet, encode, packSrcLen, packDst, srcMustBeZero, dstMustBeZero, lenMustBeZero]

/-- A word with a listed opcode is a command or has a reserved field set. -/
theorem decode_of_reservedFieldSet {w : Command} (hlisted : reservedOpcode w = false)
    (hset : reservedFieldSet w = true) : decode w = .error .reservedField := by
  cases hdecode : decode w with
  | ok i =>
    rw [← encode_of_decode hdecode, reservedFieldSet_encode] at hset
    cases hset
  | error e =>
    cases e with
    | illegalOpcode => cases hlisted.symm.trans (reservedOpcode_of_decode hdecode)
    | reservedField => rfl

theorem reservedOpcodes_length :
    ((List.range 256).filter fun n => reservedOpcode (pack (BitVec.ofNat 8 n) 0 0 0)).length = 239 := by
  simp only [reservedOpcode, opcField_pack]
  rfl

/-! ## The assembler (R94, R95) -/

/-- The operands of a command in the order of its assembler line (R95). Tied to the model by `parseLine_eq_some`. -/
def Instr.operands : Instr → List Nat
  | .nop | .s256Init | .s512Init | .hmacClear => []
  | .s256Write src n | .s256Xform src n | .s256Ldst src n | .s512Write src n | .s512Xform src n | .s512Ldst src n
  | .hmacKey src n | .hmacWrite src n => [src, n]
  | .s256Final dst | .s256Stst dst | .s512Final dst | .s512Stst dst | .hmacFinal dst => [dst]

/-- The line of a command is its mnemonic and its operands. -/
theorem parseLine_eq_some {mnemonic : String} {operands : List Nat} {i : Instr}
    (h : parseLine mnemonic operands = some i) : mnemonic = i.mnemonic ∧ operands = i.operands := by
  unfold parseLine at h
  split at h <;> cases h <;> exact ⟨rfl, rfl⟩

theorem exists_operand_of_not_wellFormed {i : Instr} (h : i.wellFormed = false) :
    ∃ n ∈ i.operands, 65536 ≤ n := by
  cases i with
  | nop | s256Init | s512Init | hmacClear => cases h
  | s256Write src n | s256Xform src n | s256Ldst src n | s512Write src n | s512Xform src n | s512Ldst src n
  | hmacKey src n | hmacWrite src n =>
    obtain hsrc | hlen := Bool.and_eq_false_iff.1 h
    · exact ⟨src, by simp [Instr.operands], not_lt.1 (of_decide_eq_false hsrc)⟩
    · have hbig : ¬ n < 16777216 := of_decide_eq_false hlen
      exact ⟨n, by simp [Instr.operands], by omega⟩
  | s256Final dst | s256Stst dst | s512Final dst | s512Stst dst | hmacFinal dst =>
    exact ⟨dst, by simp [Instr.operands], not_lt.1 (of_decide_eq_false h)⟩

theorem assemble_of_parseLine {mnemonic : String} {operands : List Nat} {i : Instr}
    (h : parseLine mnemonic operands = some i) :
    assemble mnemonic operands = if i.wellFormed then some (encode i) else none := by
  rw [assemble, h]

/-- Settles O7: a line determines mnemonic and operands (`parseLine_eq_some`), and an operand that does not fit is at
least 65536 (`exists_operand_of_not_wellFormed`). -/
theorem assemblerRefusesWhatDoesNotFit : Obligations.AssemblerRefusesWhatDoesNotFit := by
  intro mnemonic operands i h
  obtain ⟨hname, hoperands⟩ := parseLine_eq_some h
  have hassemble := assemble_of_parseLine h
  refine ⟨hname, fun hwf => ⟨?_, decode_encode hwf⟩, fun hwf => ⟨?_, ?_⟩⟩
  · rw [hassemble, if_pos hwf]
  · rw [hassemble, hwf]
    rfl
  · rw [hoperands]
    exact exists_operand_of_not_wellFormed hwf

/-- Settles O6: by `encodeOfDecode`, each word need only be decoded. -/
theorem encodingExamples : Obligations.EncodingExamples := by
  have hword {w : Command} {i : Instr} (h : decode w = .ok i) : encode i = w ∧ decode w = .ok i :=
    ⟨encode_of_decode h, h⟩
  exact ⟨hword (by decide), hword (by decide), hword (by decide), hword (by decide), hword (by decide)⟩

end Sys2Proof

/-!
PROOFS. Issuing a word to a block that accepts commands (43_system.md R190), and the ISSUE sequence of a host program
(43_system.md R199).
-/
namespace Sys2Proof.Machine

/-! ## Issue on a block that accepts commands (43_system.md R190) -/

theorem ready_iff (s : State) : State.ready s = true ↔ s.fatal = false ∧ s.err = false ∧ s.busy = false := by
  simp [State.ready, and_assoc]

theorem issue_of_ready {s : State} (hready : State.ready s = true) (w : Command) : issue w s = decodeAndCheck w s := by
  obtain ⟨hfatal, herr, hbusy⟩ := (ready_iff s).1 hready
  simp [issue, hfatal, herr, hbusy]

theorem issue_of_decode_error {w : Command} {e : DecodeError} {s : State} (hready : State.ready s = true)
    (h : decode w = .error e) : issue w s = raiseError (DecodeError.errCode e) w s := by
  rw [issue_of_ready hready, decodeAndCheck, h]

/-- Settles O4: 239 opcodes are reserved, and a word with one does not decode (`decode_of_reservedOpcode`). -/
theorem reservedOpcodesAreIllegal : Obligations.ReservedOpcodesAreIllegal :=
  ⟨reservedOpcodes_length, fun _ _ hready h => issue_of_decode_error hready (decode_of_reservedOpcode h)⟩

/-- Settles O5: such a word does not decode, as it is no command's word (`decode_of_reservedFieldSet`). -/
theorem reservedFieldsAreRefused : Obligations.ReservedFieldsAreRefused :=
  fun _ _ hready hlisted hset => issue_of_decode_error hready (decode_of_reservedFieldSet hlisted hset)


theorem issue_of_check_passed {w : Command} {i : Instr} {s : State} (hready : State.ready s = true)
    (hdecode : decode w = .ok i) (hcheck : commandError i s = none) : issue w s = accept w s := by
  rw [issue_of_ready hready, decodeAndCheck, hdecode]
  simp only [hcheck]

/-! ## Steps and runs of the ISSUE sequence (43_system.md R192, R199) -/

theorem run_succ_of_step {s t : State} (hstep : step s = .next t) (k : Nat) :
    Host.Core.run core (k + 1) s = Host.Core.run core k t := by
  have hrun (M : Host.Core) (x y : M.State) (hxy : M.step x = .next y) : M.run (k + 1) x = M.run k y := by
    rw [Host.Core.run, hxy]
  exact hrun core s t hstep

/-- While BUSY = 0 a step is the next host action. -/
theorem step_of_idle {s : State} {act : HostAction} {rest : List HostAction} (hbusy : s.busy = false)
    (hhost : s.host = act :: rest) : step s = hostAct act rest s := by
  simp [step, engineTurn, hbusy, passTurn_of_idle s hbusy, hostTurn, hhost]

/-- The block with these values in CMD_LO and CMD_HI and these host actions left. Tied to the model by
`run_commandWrites`. -/
def State.commandWritten (lo hi : Word32) (host : List HostAction) (s : State) : State :=
  { s with cmdLo := lo, cmdHi := hi, host := host }

theorem ready_commandWritten (lo hi : Word32) (host : List HostAction) (s : State) :
    State.ready (State.commandWritten lo hi host s) = State.ready s := rfl

theorem commandError_commandWritten (i : Instr) (lo hi : Word32) (host : List HostAction) (s : State) :
    commandError i (State.commandWritten lo hi host s) = commandError i s :=
  commandError_congr i rfl rfl rfl rfl rfl rfl

/-- A write of CMD_LO, then one of CMD_HI, issues the word they make (10_state.md R36). -/
theorem run_commandWrites {s : State} {lo hi : Word32} {rest : List HostAction} (hbusy : s.busy = false)
    (hhost : s.host = .write 0x10 lo 0xF :: .write 0x14 hi 0xF :: rest) (n : Nat) :
    Host.Core.run core (n + 2) s = Host.Core.run core n (issue (hi ++ lo) (State.commandWritten lo hi rest s)) := by
  have hlo : step s = .next (State.commandWritten lo s.cmdHi (.write 0x14 hi 0xF :: rest) s) :=
    (step_of_idle hbusy hhost).trans rfl
  have hhi : step (State.commandWritten lo s.cmdHi (.write 0x14 hi 0xF :: rest) s) =
      .next (issue (hi ++ lo) (State.commandWritten lo hi rest s)) :=
    (step_of_idle (s := State.commandWritten lo s.cmdHi _ s) hbusy rfl).trans rfl
  rw [run_succ_of_step hlo, run_succ_of_step hhi]

/-- A WAIT while BUSY = 0 ends. -/
theorem step_wait_of_idle {s : State} {rest : List HostAction} (hbusy : s.busy = false)
    (hhost : s.host = .wait :: rest) : step s = .next { s with host := rest } := by
  rw [step_of_idle hbusy hhost]
  simp [hostAct, hbusy]

/-- The block once ISSUE's two writes have put a command in flight: the host is in WAIT, and `wait` turns pass before
the engine's. Tied to the model by `run_issueWrites`. -/
def State.issued (w : Command) (rest : List HostAction) (wait : Nat) (s : State) : State :=
  { s with
    busy := true, inflight := some w, cmdLo := w.extractLsb' 0 32, cmdHi := w.extractLsb' 32 32,
    host := .wait :: rest, wait := wait, draws := s.draws + 1 }

section
variable (w : Command) (rest : List HostAction) (s : State)

/-- While the command runs, a WAIT only lets a turn pass. -/
theorem step_issued_succ (wait : Nat) :
    step (State.issued w rest (wait + 1) s) = .next (State.issued w rest wait s) := rfl

theorem step_issued_zero {i : Instr} (hdecode : decode w = .ok i) :
    step (State.issued w rest 0 s) = exec i (State.issued w rest 0 s) := by
  simp [step, engineTurn, State.issued, engineStep, runCommand, hdecode]

/-- The WAIT lasts until it is the engine's turn. -/
theorem run_issued (n wait : Nat) : Host.Core.run core (n + wait) (State.issued w rest wait s) =
    Host.Core.run core n (State.issued w rest 0 s) := by
  induction wait with
  | zero => rfl
  | succ wait ih => rw [← Nat.add_assoc, run_succ_of_step (step_issued_succ w rest s wait), ih]

/-- The effects of a command do not depend on the control state, and leave it alone but for what completion writes
(43_system.md R192). -/
theorem complete_commandEffects_issued (i : Instr) (bytes : List Byte) (wait : Nat) :
    complete (commandEffects i bytes (State.issued w rest wait s)) =
      { complete (commandEffects i bytes s) with
        cmdLo := w.extractLsb' 0 32, cmdHi := w.extractLsb' 32 32, host := .wait :: rest, wait := wait
        draws := s.draws + 1 } := by
  cases i <;> simp only [commandEffects, complete, State.issued]

end

/-- From a ready block, ISSUE's two writes put the command in flight. -/
theorem run_issueWrites {i : Instr} {s : State} {rest : List HostAction} (hwf : i.wellFormed = true)
    (hready : State.ready s = true) (hhost : s.host = issueActions (encode i) ++ rest)
    (hcheck : commandError i s = none) : ∃ wait, ∀ n,
    Host.Core.run core (n + 2) s = Host.Core.run core n (State.issued (encode i) rest wait s) := by
  obtain ⟨-, -, hidle⟩ := (ready_iff s).1 hready
  have hword : (encode i).extractLsb' 32 32 ++ (encode i).extractLsb' 0 32 = encode i :=
    highHalf_append_lowHalf (encode i)
  refine ⟨Config.latency s.params.implVariant s.draws, fun n => ?_⟩
  rw [run_commandWrites hidle hhost, hword, issue_of_check_passed ((ready_commandWritten _ _ _ s).trans hready)
    (decode_encode hwf) ((commandError_commandWritten i _ _ _ s).trans hcheck)]
  rfl

/-- A command that completes in `s` completes in flight with the same effects. -/
theorem exec_issued {i : Instr} {s u : State} (hcheck : commandError i s = none) (hexec : exec i s = .next u)
    (w : Command) (rest : List HostAction) (wait : Nat) :
    ∃ v, exec i (State.issued w rest wait s) = .next v ∧ v.busy = false ∧ v = { u with
        cmdLo := w.extractLsb' 0 32, cmdHi := w.extractLsb' 32 32, host := .wait :: rest, wait := wait
        draws := s.draws + 1 } := by
  obtain ⟨code, hfound, -⟩ | ⟨-, bytes, hbytes, rfl⟩ := exec_effects hexec
  · cases hcheck.symm.trans hfound
  · have hcheck' : commandError i (State.issued w rest wait s) = commandError i s :=
      commandError_congr i rfl rfl rfl rfl rfl rfl
    exact ⟨_, exec_of_commandError_none (hcheck'.trans hcheck) hbytes, complete_busy _,
      complete_commandEffects_issued w rest s i bytes wait⟩

/-- Settles O54: the two writes put the command in flight (`run_issueWrites`), the host waits for the engine's turn
(`run_issued`), the engine runs the command (`exec_issued`), and the last step ends the WAIT. -/
theorem issueSequenceRunsTheCommand : Obligations.IssueSequenceRunsTheCommand := by
  intro i s u rest hwf hready hhost hcheck hexec
  obtain ⟨wait, hissue⟩ := run_issueWrites hwf hready hhost hcheck
  obtain ⟨v, hrun, hidle, hv⟩ := exec_issued hcheck hexec (encode i) rest 0
  have hengine : step (State.issued (encode i) rest 0 s) = .next v :=
    (step_issued_zero (encode i) rest s (decode_encode hwf)).trans hrun
  have hdone : step v = .next { v with host := rest } := step_wait_of_idle hidle (by rw [hv])
  refine ⟨2 + wait + 2, 0, s.draws + 1, ?_⟩
  rw [hissue, run_issued, run_succ_of_step hengine, run_succ_of_step hdone, hv]
  rfl

end Sys2Proof.Machine

/-!
PROOFS. Absorbing in parts and whole hashes (40_sha256.md R119, R120, R128, 41_sha512.md R162), and the
pseudo-instruction S256.D64 (30_encoding.md R96).
-/
namespace Sys2Proof.Machine

/-! ## Absorbing in parts -/

/-- Absorbing in two parts is absorbing at once, from any state of H, CNT and BUF. -/
theorem absorb_absorb {w : Nat} (A : Algo w) (hbs : 0 < A.blockBytes) (I : HashInst w) (x y : List Byte) :
    absorb A (absorb A I x) y = absorb A I (x ++ y) := by
  have hfull := Nat.mul_div_le (I.buf ++ x).length A.blockBytes
  have hfirst := compressBlocks_append A y _ I.h (I.buf ++ x) hfull
  have hrest := List.drop_append_of_le_length (l₂ := y) hfull
  have hlength : (I.buf ++ (x ++ y)).length = A.blockBytes * ((I.buf ++ x).length / A.blockBytes) +
      ((I.buf ++ (x ++ y)).drop (A.blockBytes * ((I.buf ++ x).length / A.blockBytes))).length := by
    rw [List.length_drop]
    simp only [List.length_append] at hfull ⊢
    omega
  have hblocks := congrArg (· / A.blockBytes) hlength
  simp only [Nat.mul_add_div hbs] at hblocks
  rw [List.append_assoc] at hfirst hrest
  simp only [absorb, HashInst.mk.injEq, and_true, ← hrest, ← hfirst]
  rw [hblocks, compressBlocks_add, Nat.mul_add, List.drop_drop]
  refine ⟨rfl, ?_, rfl⟩
  rw [List.length_append, BitVec.ofNat_add, BitVec.add_assoc]

/-- Finalizing the Initialize state after it absorbed a message gives the standard's hash of it. -/
theorem finalizeDigest_absorb_initial {w : Nat} (A : Algo w) (hbs : 0 < A.blockBytes) {m : List Byte}
    (hm : m.length < 2 ^ 64) : finalizeDigest A (absorb A (HashInst.initial A.iv) m) = hash A m := by
  have hcnt : (absorb A (HashInst.initial A.iv) m).cnt.toNat = m.length := by
    rw [absorb_cnt_toNat _ _ _ (by simpa using hm)]
    simp
  rw [finalizeDigest, finalizeInst_h, hcnt, absorb_absorb A hbs]
  rfl

theorem hash_sha256_length (m : List Byte) : (hash sha256 m).length = 32 := chainBytes_length _

/-! ## Commands one after another -/

theorem execAll_append_of_next {l l' : List Instr} {s t : State} (h : execAll l s = .next t) :
    execAll (l ++ l') s = execAll l' t := by
  induction l generalizing s with
  | nil => cases h; rfl
  | cons i l ih =>
    simp only [List.cons_append, execAll] at h ⊢
    split at h
    · next hstep => exact ih h
    · cases h
    · cases h

theorem execAll_cons_of_next {i : Instr} {l : List Instr} {s t : State} (h : exec i s = .next t) :
    execAll (i :: l) s = execAll l t := by rw [execAll, h]

theorem exists_exec_s256Write {src len : Nat} {s : State} {m : List Byte} (hfin : s.s256.fin = false)
    (hrange : inRange s src len) (hlimit : s.s256.cnt.toNat + len ≤ lengthLimit)
    (hm : Memory.readBytes s.mem src len = some m) : ∃ t, exec (.s256Write src len) s = .next t ∧
      t.params = s.params ∧ t.mem = s.mem ∧ t.s256 = absorb sha256 s.s256 m := by
  have hcheck : checkS256Write src len s = none := by
    simp [checkS256Write, firstError_eq_none, hfin, (outOfRange_eq_false s src len).2 hrange, overLimit, hlimit]
  exact ⟨_, exec_s256Write src len s m hcheck hm, by simp, by simp, by simp⟩

theorem exists_exec_s256Final {dst : Nat} {s : State} (hfin : s.s256.fin = false) (hrange : inRange s dst 32) :
    ∃ t, exec (.s256Final dst) s = .next t ∧ t.params = s.params ∧
      t.mem = Memory.writeBytes s.mem dst (finalizeDigest sha256 s.s256) := by
  have hcheck : checkS256Final dst s = none := by
    simp [checkS256Final, firstError_eq_none, hfin, (outOfRange_eq_false s dst 32).2 hrange]
  exact ⟨_, exec_s256Final dst s hcheck, by simp, by simp⟩

/-- S256.HASH (R96): INIT, WRITE and FINAL store the hash of the message at `dst`, and change no other byte. -/
theorem execAll_s256Hash {s : State} {dst src len : Nat} {m : List Byte} (hsrc : inRange s src len)
    (hdst : inRange s dst 32) (hlen : len ≤ lengthLimit) (hm : Memory.readBytes s.mem src len = some m) :
    ∃ t, execAll (expandPseudo (.s256Hash dst src len)) s = .next t ∧ t.params = s.params ∧
      Memory.readBytes t.mem dst 32 = some (hash sha256 m) ∧ sameMemoryOutside dst 32 s t := by
  obtain ⟨a, hinit, hparams, hmem, hs256⟩ : ∃ a, exec .s256Init s = .next a ∧ a.params = s.params ∧ a.mem = s.mem ∧
      a.s256 = HashInst.initial iv256 := ⟨_, exec_s256Init s, by simp, by simp, by simp⟩
  obtain ⟨b, hwrite, hparams', hmem', hs256'⟩ := exists_exec_s256Write (src := src) (len := len) (s := a)
    (by rw [hs256, initial_fin]) (by rwa [inRange, hparams]) (by rw [hs256, initial_cnt]; simpa using hlen)
    (by rwa [hmem])
  rw [hparams] at hparams'
  rw [hmem] at hmem'
  rw [hs256] at hs256'
  obtain ⟨t, hfinal, hparams'', hmem''⟩ := exists_exec_s256Final (s := b)
    (by rw [hs256', absorb_fin, initial_fin]) (by rwa [inRange, hparams'])
  have hlength := Memory.readBytes_length _ _ _ _ hm
  have hdigest : finalizeDigest sha256 (absorb sha256 (HashInst.initial iv256) m) = hash sha256 m :=
    finalizeDigest_absorb_initial sha256 (by decide) (by unfold lengthLimit at hlen; omega)
  rw [hmem', hs256', hdigest] at hmem''
  refine ⟨t, ?_, hparams''.trans hparams', ?_, fun x hx => ?_⟩
  · rw [expandPseudo, execAll_cons_of_next hinit, execAll_cons_of_next hwrite, execAll_cons_of_next hfinal, execAll]
  · rw [hmem'']
    exact Memory.readBytes_writeBytes (hash sha256 m) s.mem dst
  · rw [hmem'']
    exact Memory.read_writeBytes_outside (hash sha256 m) s.mem dst x (by rwa [hash_sha256_length])

/-- Settles O28: S256.D64 is S256.HASH of the block to `dst`, then S256.HASH of the digest there. -/
theorem doubleHashPseudoInstruction : Obligations.DoubleHashPseudoInstruction := by
  intro s src dst block _ hsrc hdst hblock
  obtain ⟨t, hfirst, hparams, hdigest, houtside⟩ :=
    execAll_s256Hash (s := s) (.inr hsrc) (.inr hdst) (by decide) hblock
  have hdst' : inRange t dst 32 := .inr (by rwa [hparams])
  obtain ⟨u, hsecond, -, hdouble, houtside'⟩ := execAll_s256Hash hdst' hdst' (by decide) hdigest
  exact ⟨u, (execAll_append_of_next hfirst).trans hsecond, hdouble,
    fun x hx => (houtside' x hx).trans (houtside x hx)⟩

end Sys2Proof.Machine

/-!
PROOFS. The big-endian encodings (00_scope.md R12): a byte string and its value, a word and its bytes, eight words and
theirs.
-/
namespace Sys2Proof.Machine

/-! ## The value of a byte string -/

theorem beVal_eq_ofDigits (s : List Byte) : beVal s = Nat.ofDigits 256 (s.map BitVec.toNat).reverse := by
  simp [beVal, Nat.ofDigits_eq_foldr, List.foldl_map, Nat.mul_comm, Nat.add_comm]

theorem mem_reverse_map_toNat_lt {s : List Byte} : ∀ d ∈ (s.map BitVec.toNat).reverse, d < 256 := by
  simp only [List.mem_reverse, List.mem_map]
  rintro _ ⟨b, -, rfl⟩
  exact b.isLt

theorem beVal_lt (s : List Byte) : beVal s < 256 ^ s.length := by
  simpa [beVal_eq_ofDigits] using Nat.ofDigits_lt_base_pow_length (by decide) (mem_reverse_map_toNat_lt (s := s))

theorem beVal_inj {s t : List Byte} (hlength : s.length = t.length) (h : beVal s = beVal t) : s = t := by
  rw [beVal_eq_ofDigits, beVal_eq_ofDigits] at h
  have hdigits := Nat.ofDigits_inj_of_len_eq (by decide) (by simpa using hlength) mem_reverse_map_toNat_lt
    mem_reverse_map_toNat_lt h
  exact List.map_injective_iff.2 BitVec.toNat_injective (List.reverse_injective hdigits)

theorem beVal_cons (b : Byte) (s : List Byte) : beVal (b :: s) = 256 ^ s.length * b.toNat + beVal s := by
  simp [beVal_eq_ofDigits, Nat.ofDigits_append, Nat.add_comm]

theorem beVal_replicate_zero_append (n : Nat) (s : List Byte) : beVal (List.replicate n 0 ++ s) = beVal s := by
  induction n with
  | zero => rfl
  | succ n ih => rw [List.replicate_succ, List.cons_append, beVal_cons, ih]; simp

/-! ## The bytes of a word -/

theorem beBytes_succ {w : Nat} (n : Nat) (x : BitVec w) :
    beBytes (n + 1) x = x.extractLsb' (8 * n) 8 :: beBytes n x := by
  simp [beBytes, List.range_succ_eq_map, Function.comp_def, Nat.sub_sub, Nat.add_comm]

/-- Reading back the bytes of a word gives the word, as far as they go. -/
theorem beVal_beBytes {w : Nat} (n : Nat) (x : BitVec w) : beVal (beBytes n x) = x.toNat % 256 ^ n := by
  induction n with
  | zero => simp [beBytes, beVal, Nat.mod_one]
  | succ n ih =>
    have hbyte : (x.extractLsb' (8 * n) 8).toNat = x.toNat / 256 ^ n % 256 := by
      rw [BitVec.extractLsb'_toNat, Nat.shiftRight_eq_div_pow, Nat.pow_mul]
    rw [beBytes_succ, beVal_cons, beBytes_length, ih, hbyte, Nat.mod_pow_succ, Nat.add_comm]

theorem beBytes_getD {w : Nat} {n j : Nat} (hj : j < n) (x : BitVec w) :
    (beBytes n x).getD j 0 = x.extractLsb' (8 * (n - 1 - j)) 8 := by
  rw [List.getD_eq_getElem _ _ (by simpa using hj)]
  simp [beBytes]

/-- A word is the number its bytes spell. -/
theorem ofNat_beVal_beBytes {w n : Nat} (hn : w = 8 * n) (x : BitVec w) :
    BitVec.ofNat w (beVal (beBytes n x)) = x := by
  have hwidth : 256 ^ n = 2 ^ w := by rw [hn, Nat.pow_mul]
  rw [beVal_beBytes, hwidth, Nat.mod_eq_of_lt x.isLt, BitVec.ofNat_toNat, BitVec.setWidth_eq]

/-- The bytes of the word that a byte string spells are that byte string. -/
theorem beBytes_ofNat_beVal {w n : Nat} (hn : w = 8 * n) {s : List Byte} (hs : s.length = n) :
    beBytes n (BitVec.ofNat w (beVal s)) = s := by
  have hwidth : 256 ^ n = 2 ^ w := by rw [hn, Nat.pow_mul]
  refine beVal_inj (by rw [beBytes_length, hs]) ?_
  rw [beVal_beBytes, BitVec.toNat_ofNat, ← hwidth, Nat.mod_mod, Nat.mod_eq_of_lt (hs ▸ beVal_lt s)]

/-! ## Pieces of equal length -/

theorem take_drop_flatMap {α β : Type} {f : α → List β} {n : Nat} (hf : ∀ x, (f x).length = n) (l : List α) :
    ∀ i (hi : i < l.length), ((l.flatMap f).drop (n * i)).take n = f l[i] := by
  induction l with
  | nil => exact fun i hi => absurd hi (Nat.not_lt_zero i)
  | cons x l ih =>
    rintro (_ | i) hi
    · simpa using List.take_left' (hf x)
    · rw [List.flatMap_cons, Nat.mul_succ, Nat.add_comm, ← List.drop_drop, List.drop_left' (hf x)]
      exact ih i (Nat.lt_of_succ_lt_succ hi)

theorem flatMap_take_drop {β : Type} (n : Nat) (s : List β) (k : Nat) :
    ((List.range k).flatMap fun t => (s.drop (n * t)).take n) = s.take (n * k) := by
  induction k with
  | zero => simp
  | succ k ih => rw [List.range_succ, List.flatMap_append, ih, List.flatMap_singleton, Nat.mul_succ, List.take_add]

/-! ## The bytes of eight words (40_sha256.md R121, R126, R127) -/

theorem Words8.toList_inj {w : Nat} {x y : Words8 w} (h : x.toList = y.toList) : x = y := by
  cases x; cases y
  simpa [Words8.toList] using h

theorem toList_chainOfBytes (w : Nat) (s : List Byte) : (chainOfBytes w s).toList = beWords w 8 s := rfl

section
variable {w n : Nat} (hw : w = 8 * n)
include hw

theorem div_eight : w / 8 = n := by omega

theorem chainBytes_piece (H : Words8 w) {i : Nat} (hi : i < 8) :
    ((chainBytes H).drop (n * i)).take n = beBytes n (H.toList.getD i 0) := by
  rw [chainBytes, div_eight hw, take_drop_flatMap (beBytes_length n) H.toList i hi,
    List.getD_eq_getElem H.toList 0 hi]

theorem chainBytes_getD (H : Words8 w) {i j : Nat} (hi : i < 8) (hj : j < n) :
    (chainBytes H).getD (n * i + j) 0 = (H.toList.getD i 0).extractLsb' (8 * (n - 1 - j)) 8 := by
  rw [← beBytes_getD hj, ← chainBytes_piece hw H hi]
  simp [List.getD_eq_getElem?_getD, hj]

/-- A stored chaining state loads back. -/
theorem chainOfBytes_chainBytes (H : Words8 w) : chainOfBytes w (chainBytes H) = H := by
  have hword : ∀ i ∈ List.range 8,
      BitVec.ofNat w (beVal (((chainBytes H).drop (n * i)).take n)) = H.toList.getD i 0 := by
    intro i hi
    rw [chainBytes_piece hw H (List.mem_range.1 hi), ofNat_beVal_beBytes hw]
  apply Words8.toList_inj
  rw [toList_chainOfBytes, beWords, div_eight hw, List.map_congr_left hword]
  rfl

/-- A loaded chaining state stores back. -/
theorem chainBytes_chainOfBytes {s : List Byte} (hs : s.length = 8 * n) : chainBytes (chainOfBytes w s) = s := by
  have hpiece : ∀ t ∈ List.range 8, beBytes n (BitVec.ofNat w (beVal ((s.drop (n * t)).take n))) =
      (s.drop (n * t)).take n := by
    intro t ht
    refine beBytes_ofNat_beVal hw ?_
    have ht := List.mem_range.1 ht
    have hfit : n * t + n ≤ 8 * n := by
      calc n * t + n = (t + 1) * n := by ring
        _ ≤ 8 * n := Nat.mul_le_mul_right n ht
    rw [List.length_take, List.length_drop, hs]
    omega
  rw [chainBytes, toList_chainOfBytes, beWords, div_eight hw, List.flatMap_map, List.flatMap_congr hpiece,
    flatMap_take_drop, List.take_of_length_le (by omega)]

end

/-- Settles O12: the digest cut into words (`chainBytes_getD`), and read back (`chainOfBytes_chainBytes`). -/
theorem digestBytesAreBigEndian : Obligations.DigestBytesAreBigEndian :=
  ⟨fun H => ⟨chainBytes_length H, chainOfBytes_chainBytes (n := 4) rfl H, fun i j hi hj => by
      rw [chainBytes_getD (n := 4) rfl H hi hj, show 8 * (4 - 1 - j) = 24 - 8 * j by omega]⟩,
    fun H => ⟨chainBytes_length H, chainOfBytes_chainBytes (n := 8) rfl H, fun i j hi hj => by
      rw [chainBytes_getD (n := 8) rfl H hi hj, show 8 * (8 - 1 - j) = 56 - 8 * j by omega]⟩⟩

end Sys2Proof.Machine

/-!
PROOFS. The two transforms (40_sha256.md R113 to R118, 41_sha512.md R147 to R152), each fact said once for any
algorithm: the message schedule, the rounds, Compress* over several blocks, the padding.
-/
namespace Sys2Proof.Machine

/-! ## The message schedule (R113, R114, R147, R148) -/

section
variable {w : Nat} (A : Algo w)

theorem scheduleExtend_length : ∀ (n : Nat) (newest : List (BitVec w)),
    (scheduleExtend A n newest).length = newest.length + n
  | 0, _ => rfl
  | n + 1, newest => by
    rw [scheduleExtend, scheduleExtend_length n, List.length_cons]
    omega

/-- The words before the extension stay. -/
theorem suffix_scheduleExtend : ∀ (n : Nat) (newest : List (BitVec w)), newest <:+ scheduleExtend A n newest
  | 0, newest => List.suffix_refl newest
  | n + 1, newest => (List.suffix_cons _ newest).trans (suffix_scheduleExtend n _)

/-- Each word of the extension comes from all the words before it. -/
theorem scheduleExtend_getD : ∀ (n : Nat) (newest : List (BitVec w)) (t : Nat),
    newest.length ≤ t → t < newest.length + n →
    (scheduleExtend A n newest).reverse.getD t 0 =
      scheduleNext A ((scheduleExtend A n newest).reverse.take t).reverse := by
  intro n
  induction n with
  | zero => exact fun _ _ hlow hhigh => absurd hhigh (Nat.not_lt.2 hlow)
  | succ n ih =>
    intro newest t hlow hhigh
    obtain rfl | hlt := Nat.eq_or_lt_of_le hlow
    · obtain ⟨later, hlater⟩ := suffix_scheduleExtend A n (scheduleNext A newest :: newest)
      rw [scheduleExtend, ← hlater]
      simp
    · exact ih _ t hlt (by rw [List.length_cons]; omega)

variable (block : List Byte)

theorem schedule_length (hk : 16 ≤ A.k.length) : (schedule A block).length = A.k.length := by
  simp [schedule, scheduleExtend_length, beWords, hk]

/-- The first sixteen words are the block's. -/
theorem schedule_getD_of_lt {t : Nat} (ht : t < 16) :
    (schedule A block).getD t 0 = BitVec.ofNat w (beVal ((block.drop (w / 8 * t)).take (w / 8))) := by
  obtain ⟨later, hlater⟩ := suffix_scheduleExtend A (A.k.length - 16) (beWords w 16 block).reverse
  rw [schedule, ← hlater, List.reverse_append, List.reverse_reverse, List.getD_append _ _ _ _ (by simpa [beWords])]
  simp [beWords, ht]

/-- Each later word comes from the words 2, 7, 15 and 16 before it. -/
theorem schedule_getD_of_le (hk : 16 ≤ A.k.length) {t : Nat} (hlow : 16 ≤ t) (hhigh : t < A.k.length) :
    (schedule A block).getD t 0 =
      A.smallSigma1 ((schedule A block).getD (t - 2) 0) + (schedule A block).getD (t - 7) 0
        + A.smallSigma0 ((schedule A block).getD (t - 15) 0) + (schedule A block).getD (t - 16) 0 := by
  have hnewest : ∀ j < 16, ((schedule A block).take t).reverse.getD j 0 = (schedule A block).getD (t - (j + 1)) 0 := by
    intro j hj
    have hlength : ((schedule A block).take t).length = t := by
      rw [List.length_take, schedule_length A block hk]
      omega
    rw [List.getD_reverse _ (by omega), hlength, Nat.sub_sub, Nat.add_comm 1]
    simp [List.getD_eq_getElem?_getD, show t - (j + 1) < t by omega]
  have hnext : (schedule A block).getD t 0 = scheduleNext A ((schedule A block).take t).reverse :=
    scheduleExtend_getD A _ _ t (by simpa [beWords] using hlow) (by simp [beWords]; omega)
  rw [hnext, scheduleNext, hnewest 1 (by decide), hnewest 6 (by decide), hnewest 14 (by decide), hnewest 15 (by decide)]

end

/-- Settles O8, by `schedule_getD_of_lt` and `schedule_getD_of_le`. -/
theorem messageSchedules : Obligations.MessageSchedules :=
  ⟨fun block => ⟨schedule_length sha256 block (by decide),
      fun _ => schedule_getD_of_lt sha256 block, fun _ => schedule_getD_of_le sha256 block (by decide)⟩,
    fun block => ⟨schedule_length sha512 block (by decide),
      fun _ => schedule_getD_of_lt sha512 block, fun _ => schedule_getD_of_le sha512 block (by decide)⟩⟩

/-! ## The rounds (R115, R116, R149, R150) -/

/-- The working variables before round `t` of Compress. Tied to the model by `compress_eq`. -/
def workingVars {w : Nat} (A : Algo w) (H : Words8 w) (block : List Byte) (t : Nat) : Words8 w :=
  ((A.k.zip (schedule A block)).take t).foldl (round A) H

section
variable {w : Nat} (A : Algo w) (hk : 16 ≤ A.k.length) (H : Words8 w) (block : List Byte)
include hk

theorem workingVars_succ {t : Nat} (ht : t < A.k.length) : workingVars A H block (t + 1) =
    round A (workingVars A H block t) (A.k.getD t 0, (schedule A block).getD t 0) := by
  have hschedule : t < (schedule A block).length := by rwa [schedule_length A block hk]
  have hzip : t < (A.k.zip (schedule A block)).length := by simp [ht, hschedule]
  rw [workingVars, ← List.take_append_getElem hzip, List.foldl_append, List.getElem_zip, workingVars,
    List.getD_eq_getElem _ _ ht, List.getD_eq_getElem _ _ hschedule]
  rfl

theorem compress_eq : compress A H block = feedForward H (workingVars A H block A.k.length) := by
  have hzip : (A.k.zip (schedule A block)).length = A.k.length := by simp [schedule_length A block hk]
  rw [workingVars, ← hzip, List.take_length, compress]

end

/-- Settles O9: the sequence is `workingVars`, round by round (`workingVars_succ`). -/
theorem compressRunsEveryRound : Obligations.CompressRunsEveryRound :=
  ⟨fun H block => ⟨workingVars sha256 H block, rfl,
      fun _ => workingVars_succ sha256 (by decide) H block, compress_eq sha256 (by decide) H block⟩,
    fun H block => ⟨workingVars sha512 H block, rfl,
      fun _ => workingVars_succ sha512 (by decide) H block, compress_eq sha512 (by decide) H block⟩⟩

/-! ## Compress* (R117, R151) -/

section
variable {w : Nat} (A : Algo w) (H : Words8 w)

theorem compressBlocks_add_append (a b : Nat) {x : List Byte} (y : List Byte) (hx : x.length = A.blockBytes * a) :
    compressBlocks A (a + b) H (x ++ y) = compressBlocks A b (compressBlocks A a H x) y := by
  rw [compressBlocks_add, compressBlocks_append A y a H x hx.ge, List.drop_left' hx]

theorem compressBlocks_one {y : List Byte} (hy : y.length = A.blockBytes) :
    compressBlocks A 1 H y = compress A H y := by
  rw [compressBlocks, compressBlocks, List.take_of_length_le hy.le]

/-- Compress* over `n` blocks looks at those blocks alone. -/
theorem compressBlocks_take {n : Nat} {x : List Byte} (hn : A.blockBytes * n ≤ x.length) :
    compressBlocks A n H (x.take (A.blockBytes * n)) = compressBlocks A n H x := by
  have happend := compressBlocks_append A (x.drop (A.blockBytes * n)) n H (x.take (A.blockBytes * n))
    (by rw [List.length_take, Nat.min_eq_left hn])
  rwa [List.take_append_drop, eq_comm] at happend

end

/-- Settles O10, by `compressBlocks_add_append` and `compressBlocks_one`. -/
theorem multiBlockIsBlockByBlock : Obligations.MultiBlockIsBlockByBlock :=
  ⟨fun H a b _ y hx => ⟨rfl, compressBlocks_add_append sha256 H a b y hx, compressBlocks_one sha256 H⟩,
    fun H a b _ y hx => ⟨rfl, compressBlocks_add_append sha512 H a b y hx, compressBlocks_one sha512 H⟩⟩

/-! ## The padding (R118, R152) -/

theorem pad_sha256 (c : Nat) : pad sha256 c =
    [0x80] ++ List.replicate ((119 - c % 64) % 64) 0 ++ beBytes 8 (BitVec.ofNat 64 (8 * c)) := by
  simp [pad]

theorem pad_sha512 (c : Nat) : pad sha512 c =
    [0x80] ++ List.replicate ((239 - c % 128) % 128) 0 ++ List.replicate 8 0
      ++ beBytes 8 (BitVec.ofNat 64 (8 * c)) := by
  simp [pad]

theorem pad_sha256_length (c : Nat) : (pad sha256 c).length = 1 + (119 - c % 64) % 64 + 8 := by
  simp [pad_sha256]; omega

theorem pad_sha512_length (c : Nat) : (pad sha512 c).length = 17 + (239 - c % 128) % 128 := by
  simp [pad_sha512]; omega

/-- The length field holds the exact bit length: LIMIT keeps it below 2^64. -/
theorem beVal_bitLength {c : Nat} (hc : c ≤ lengthLimit) : beVal (beBytes 8 (BitVec.ofNat 64 (8 * c))) = 8 * c := by
  have hbits : 8 * c < 2 ^ 64 := by unfold lengthLimit at hc; omega
  rw [beVal_beBytes, BitVec.toNat_ofNat, Nat.mod_eq_of_lt hbits]
  exact Nat.mod_eq_of_lt hbits

/-- Settles O11: the bytes and lengths of the two paddings, whose z is written with a natural subtraction. -/
theorem paddings : Obligations.Paddings := by
  constructor
  · intro c hc
    have hlength := pad_sha256_length c
    exact ⟨(119 - c % 64) % 64, by omega, pad_sha256 c, beVal_bitLength hc, hlength, by omega, by omega,
      pad_length_256 c⟩
  · intro c hc
    have hlength := pad_sha512_length c
    refine ⟨(239 - c % 128) % 128, by omega, pad_sha512 c, ?_, hlength, by omega, by omega, pad_length_512 c⟩
    rw [pad_sha512, List.append_assoc, List.drop_left' (by simp; omega), beVal_replicate_zero_append,
      beVal_bitLength hc]

/-! ## Absorb and Finalize (R119, R120, R153, R154) -/

/-- Settles O13, by `absorb_absorb` and `finalizeDigest_absorb_initial`. -/
theorem absorbingStreams : Obligations.AbsorbingStreams := by
  refine ⟨absorb_absorb sha256 (by decide), absorb_absorb sha512 (by decide), fun m1 m2 hlimit => ?_⟩
  have hlength : (m1 ++ m2).length < 2 ^ 64 := by
    rw [List.length_append]
    unfold lengthLimit at hlimit
    omega
  rw [absorb_absorb sha256 (by decide), absorb_absorb sha512 (by decide)]
  exact ⟨finalizeDigest_absorb_initial sha256 (by decide) hlength,
    finalizeDigest_absorb_initial sha512 (by decide) hlength⟩

end Sys2Proof.Machine

/-!
PROOFS. The commands of the two plain hash processors (40_sha256.md §5, 41_sha512.md §5): what their checks ask, what
they leave in H, CNT, BUF, FIN and MEM, and that all else is as before.
-/
namespace Sys2Proof.Machine

/-! ## H, CNT and BUF after each operation -/

section
variable {w : Nat} (A : Algo w) (I : HashInst w)

theorem absorb_h (m : List Byte) : (absorb A I m).h = compressBlocks A ((I.buf ++ m).length / A.blockBytes) I.h
    ((I.buf ++ m).take (A.blockBytes * ((I.buf ++ m).length / A.blockBytes))) :=
  (compressBlocks_take A I.h (Nat.mul_div_le _ _)).symm

theorem absorb_cnt_of_le_limit {m : List Byte} (h : I.cnt.toNat + m.length ≤ lengthLimit) :
    (absorb A I m).cnt.toNat = I.cnt.toNat + m.length :=
  absorb_cnt_toNat A I m (h.trans_lt (by decide))

/-- Finalize leaves no tail, when BUF was in step with CNT and the padding fills the last block. -/
theorem finalizeInst_buf_eq_nil (hbuf : HashInst.bufferOk A.blockBytes I = true)
    (hpad : (I.cnt.toNat + (pad A I.cnt.toNat).length) % A.blockBytes = 0) : (finalizeInst A I).buf = [] := by
  rw [HashInst.bufferOk, beq_iff_eq] at hbuf
  rw [finalizeInst_buf, ← List.length_eq_zero_iff, absorb_buf_length, hbuf, Nat.mod_add_mod, hpad]

theorem finalizeInst_cnt_toNat (hlimit : I.cnt.toNat ≤ lengthLimit) (hpad : (pad A I.cnt.toNat).length ≤ 144) :
    (finalizeInst A I).cnt.toNat = I.cnt.toNat + (pad A I.cnt.toNat).length := by
  unfold lengthLimit at hlimit
  rw [finalizeInst_cnt, absorb_cnt_toNat A I _ (by omega)]

theorem loadInst_cnt_toNat (hbs : A.blockBytes ≤ 128) {n : Nat} (hn : n < 2 ^ 24) (m : List Byte) :
    (loadInst A n m).cnt.toNat = A.blockBytes * n := by
  have hbytes : A.blockBytes * n ≤ 128 * n := Nat.mul_le_mul_right n hbs
  rw [loadInst_cnt, BitVec.toNat_ofNat, Nat.mod_eq_of_lt (by omega)]

/-- Loading what was stored at a block boundary restores H, CNT, BUF and FIN. -/
theorem loadInst_chainBytes {n bytes : Nat} (hw : w = 8 * bytes) (hcnt : I.cnt.toNat = A.blockBytes * n)
    (hbuf : I.buf = []) (hfin : I.fin = false) : loadInst A n (chainBytes I.h) = I := by
  rw [loadInst, chainOfBytes_chainBytes hw, ← hcnt, BitVec.ofNat_toNat, BitVec.setWidth_eq, ← hbuf, ← hfin]

end

theorem pad_sha256_length_le (c : Nat) : (pad sha256 c).length ≤ 72 := by rw [pad_sha256_length]; omega

theorem pad_sha512_length_le (c : Nat) : (pad sha512 c).length ≤ 144 := by rw [pad_sha512_length]; omega

/-! ## The checks (60_exceptions.md R209, R210, R211) -/

section
variable {src len nblk dst : Nat} {s : State}

theorem commandError_s256Write_eq_none : commandError (.s256Write src len) s = none ↔
    s.s256.fin = false ∧ inRange s src len ∧ s.s256.cnt.toNat + len ≤ lengthLimit := by
  simp [commandError, checkS256Write, firstError_eq_none, outOfRange_eq_false, overLimit]

theorem commandError_s256Final_eq_none :
    commandError (.s256Final dst) s = none ↔ s.s256.fin = false ∧ inRange s dst 32 := by
  simp [commandError, checkS256Final, firstError_eq_none, outOfRange_eq_false]

theorem commandError_s256Xform_eq_none :
    commandError (.s256Xform src nblk) s = none ↔ inRange s src (64 * nblk) := by
  simp [commandError, checkS256Xform, firstError_eq_none, outOfRange_eq_false]

theorem commandError_s256Ldst_eq_none : commandError (.s256Ldst src nblk) s = none ↔ inRange s src 32 := by
  simp [commandError, checkS256Ldst, firstError_eq_none, outOfRange_eq_false]

theorem commandError_s256Stst_eq_none : commandError (.s256Stst dst) s = none ↔ inRange s dst 32 := by
  simp [commandError, checkS256Stst, firstError_eq_none, outOfRange_eq_false]

theorem commandError_s512Write_eq_none : commandError (.s512Write src len) s = none ↔
    s.s512.fin = false ∧ inRange s src len ∧ s.s512.cnt.toNat + len ≤ lengthLimit := by
  simp [commandError, checkS512Write, firstError_eq_none, outOfRange_eq_false, overLimit]

theorem commandError_s512Final_eq_none :
    commandError (.s512Final dst) s = none ↔ s.s512.fin = false ∧ inRange s dst 64 := by
  simp [commandError, checkS512Final, firstError_eq_none, outOfRange_eq_false]

theorem commandError_s512Xform_eq_none :
    commandError (.s512Xform src nblk) s = none ↔ inRange s src (128 * nblk) := by
  simp [commandError, checkS512Xform, firstError_eq_none, outOfRange_eq_false]

theorem commandError_s512Ldst_eq_none : commandError (.s512Ldst src nblk) s = none ↔ inRange s src 64 := by
  simp [commandError, checkS512Ldst, firstError_eq_none, outOfRange_eq_false]

theorem commandError_s512Stst_eq_none : commandError (.s512Stst dst) s = none ↔ inRange s dst 64 := by
  simp [commandError, checkS512Stst, firstError_eq_none, outOfRange_eq_false]

end

/-! ## Completion -/

/-- The effects of a command leave every control register, parameter and model field (43_system.md R192). -/
theorem completed_commandEffects (i : Instr) (m : List Byte) (s : State) :
    completed s (complete (commandEffects i m s)) := by
  cases i <;> simp [completed, sameControl, commandEffects]

theorem exec_of_read {i : Instr} {a n : Nat} {s : State} {m : List Byte} (hspan : readSpan i = some (a, n))
    (hcheck : commandError i s = none) (hm : Memory.readBytes s.mem a n = some m) :
    exec i s = .next (complete (commandEffects i m s)) := by
  rw [exec_of_readSpan_some hspan, hcheck, guarded_none, withBytes_some _ hm]

theorem exec_of_no_read {i : Instr} {s : State} (hspan : readSpan i = none) (hcheck : commandError i s = none) :
    exec i s = .next (complete (commandEffects i [] s)) := by
  rw [exec_of_readSpan_none hspan, hcheck, guarded_none]

theorem Memory.readBytes_writeBytes_of_length {bytes : List Byte} {n : Nat} (h : bytes.length = n) (m : Memory)
    (a : Nat) : Memory.readBytes (Memory.writeBytes m a bytes) a n = some bytes := by
  rw [← h, Memory.readBytes_writeBytes]

/-- A completion after a change of S256 alone leaves all else (40_sha256.md §5). -/
theorem complete_s256_frame (s : State) (I : HashInst 32) :
    (complete { s with s256 := I }).s512 = s.s512 ∧ sameHmac s (complete { s with s256 := I }) ∧
      sameMemory s (complete { s with s256 := I }) :=
  ⟨rfl, ⟨rfl, rfl, rfl, rfl⟩, fun _ => rfl⟩

/-- A completion after a change of S512 alone leaves all else (41_sha512.md §5). -/
theorem complete_s512_frame (s : State) (I : HashInst 64) :
    (complete { s with s512 := I }).s256 = s.s256 ∧ sameHmac s (complete { s with s512 := I }) ∧
      sameMemory s (complete { s with s512 := I }) :=
  ⟨rfl, ⟨rfl, rfl, rfl, rfl⟩, fun _ => rfl⟩

/-! ## INIT (R122, R156) -/

/-- Settles O15: INIT has no check, and its effects and completion are the same a second time. -/
theorem initReturnsToTheInitialState : Obligations.InitReturnsToTheInitialState := by
  constructor
  · intro s
    obtain ⟨hother, hhmac, hmem⟩ := complete_s256_frame s (HashInst.initial iv256)
    exact ⟨_, exec_s256Init s, completed_commandEffects .s256Init [] s, rfl, rfl, rfl, rfl, hother, hhmac, hmem,
      exec_s256Init _⟩
  · intro s
    obtain ⟨hother, hhmac, hmem⟩ := complete_s512_frame s (HashInst.initial iv512)
    exact ⟨_, exec_s512Init s, completed_commandEffects .s512Init [] s, rfl, rfl, rfl, rfl, hother, hhmac, hmem,
      exec_s512Init _⟩

/-! ## WRITE (R119, R123, R153, R157) -/

/-- Settles O16: the checks pass, and the effect is Absorb (`absorb_h`, `absorb_cnt_of_le_limit`). -/
theorem plainWritesAbsorb : Obligations.PlainWritesAbsorb := by
  constructor
  · intro src len s m hfin hrange hlimit hm
    have hcheck := commandError_s256Write_eq_none.2 ⟨hfin, hrange, hlimit⟩
    obtain rfl := Memory.readBytes_length _ _ _ _ hm
    exact ⟨_, exec_of_read rfl hcheck hm, completed_commandEffects .., ⟨absorb_h sha256 s.s256 m, rfl⟩,
      absorb_cnt_of_le_limit sha256 s.s256 hlimit, hfin, complete_s256_frame s _⟩
  · intro src len s m hfin hrange hlimit hm
    have hcheck := commandError_s512Write_eq_none.2 ⟨hfin, hrange, hlimit⟩
    obtain rfl := Memory.readBytes_length _ _ _ _ hm
    exact ⟨_, exec_of_read rfl hcheck hm, completed_commandEffects .., ⟨absorb_h sha512 s.s512 m, rfl⟩,
      absorb_cnt_of_le_limit sha512 s.s512 hlimit, hfin, complete_s512_frame s _⟩

/-! ## FINAL (R118, R120, R124, R152, R154, R158) -/

/-- Settles O18: the checks pass, and the effects are Finalize (`finalizeInst_cnt_toNat`, `finalizeInst_buf_eq_nil`)
and the write of the digest. -/
theorem plainFinalsStoreTheDigest : Obligations.PlainFinalsStoreTheDigest := by
  constructor
  · intro dst s hfin hrange hbuf hlimit
    have hcheck := commandError_s256Final_eq_none.2 ⟨hfin, .inr hrange⟩
    have hdigest : (finalizeDigest sha256 s.s256).length = 32 := chainBytes_length _
    refine ⟨_, exec_of_no_read rfl hcheck, completed_commandEffects .., ?_⟩
    simp only [commandEffects, sameHmac, sameMemoryOutside, complete_s256, complete_s512, complete_hi, complete_ho,
      complete_hkeyed, complete_hfin, complete_mem, and_true]
    exact ⟨rfl, Memory.readBytes_writeBytes_of_length hdigest s.mem dst,
      finalizeInst_cnt_toNat sha256 s.s256 hlimit ((pad_sha256_length_le _).trans (by decide)),
      finalizeInst_buf_eq_nil sha256 s.s256 hbuf (pad_length_256 _), rfl,
      fun x hx => Memory.read_writeBytes_outside _ s.mem dst x (by rwa [hdigest])⟩
  · intro dst s hfin hrange hbuf hlimit
    have hcheck := commandError_s512Final_eq_none.2 ⟨hfin, .inr hrange⟩
    have hdigest : (finalizeDigest sha512 s.s512).length = 64 := chainBytes_length _
    refine ⟨_, exec_of_no_read rfl hcheck, completed_commandEffects .., ?_⟩
    simp only [commandEffects, sameHmac, sameMemoryOutside, complete_s256, complete_s512, complete_hi, complete_ho,
      complete_hkeyed, complete_hfin, complete_mem, and_true]
    exact ⟨rfl, Memory.readBytes_writeBytes_of_length hdigest s.mem dst,
      finalizeInst_cnt_toNat sha512 s.s512 hlimit (pad_sha512_length_le _),
      finalizeInst_buf_eq_nil sha512 s.s512 hbuf (pad_length_512 _), rfl,
      fun x hx => Memory.read_writeBytes_outside _ s.mem dst x (by rwa [hdigest])⟩

/-! ## XFORM (R125, R159) -/

/-- Settles O20: the checks ask only for the range, and the effect is Compress* on H. -/
theorem xformTouchesOnlyH : Obligations.XformTouchesOnlyH := by
  constructor
  · intro src nblk s m hrange hm
    exact ⟨_, exec_of_read rfl (commandError_s256Xform_eq_none.2 hrange) hm, completed_commandEffects .., rfl,
      by rintro rfl; rfl, rfl, rfl, rfl, complete_s256_frame s _⟩
  · intro src nblk s m hrange hm
    exact ⟨_, exec_of_read rfl (commandError_s512Xform_eq_none.2 hrange) hm, completed_commandEffects .., rfl,
      by rintro rfl; rfl, rfl, rfl, rfl, complete_s512_frame s _⟩

/-! ## LDST and STST (R126, R127, R160, R161) -/

/-- Settles O21: the checks ask only for the range, and the words loaded store back (`chainBytes_chainOfBytes`). -/
theorem ldstLoadsTheChainingState : Obligations.LdstLoadsTheChainingState := by
  constructor
  · intro src nblk s m hrange hn hm
    exact ⟨_, exec_of_read rfl (commandError_s256Ldst_eq_none.2 (.inr hrange)) hm, completed_commandEffects ..,
      chainBytes_chainOfBytes (n := 4) rfl (Memory.readBytes_length _ _ _ _ hm),
      loadInst_cnt_toNat sha256 (by decide) hn m, loadInst_cnt_le sha256 m (by decide) (decide_eq_true hn), rfl, rfl,
      complete_s256_frame s _⟩
  · intro src nblk s m hrange hn hm
    exact ⟨_, exec_of_read rfl (commandError_s512Ldst_eq_none.2 (.inr hrange)) hm, completed_commandEffects ..,
      chainBytes_chainOfBytes (n := 8) rfl (Memory.readBytes_length _ _ _ _ hm),
      loadInst_cnt_toNat sha512 (by decide) hn m, loadInst_cnt_le sha512 m (by decide) (decide_eq_true hn), rfl, rfl,
      complete_s512_frame s _⟩

/-- Settles O22: the check asks only for the range, and the effect is the write of H's bytes. -/
theorem ststStoresTheChainingState : Obligations.StstStoresTheChainingState := by
  constructor
  · intro dst s hrange
    have hlength : (chainBytes s.s256.h).length = 32 := chainBytes_length _
    refine ⟨_, exec_of_no_read rfl (commandError_s256Stst_eq_none.2 (.inr hrange)), completed_commandEffects .., ?_⟩
    simp only [commandEffects, sameHmac, sameMemoryOutside, complete_s256, complete_s512, complete_hi, complete_ho,
      complete_hkeyed, complete_hfin, complete_mem, and_true]
    exact ⟨Memory.readBytes_writeBytes_of_length hlength s.mem dst,
      fun x hx => Memory.read_writeBytes_outside _ s.mem dst x (by rwa [hlength])⟩
  · intro dst s hrange
    have hlength : (chainBytes s.s512.h).length = 64 := chainBytes_length _
    refine ⟨_, exec_of_no_read rfl (commandError_s512Stst_eq_none.2 (.inr hrange)), completed_commandEffects .., ?_⟩
    simp only [commandEffects, sameHmac, sameMemoryOutside, complete_s256, complete_s512, complete_hi, complete_ho,
      complete_hkeyed, complete_hfin, complete_mem, and_true]
    exact ⟨Memory.readBytes_writeBytes_of_length hlength s.mem dst,
      fun x hx => Memory.read_writeBytes_outside _ s.mem dst x (by rwa [hlength])⟩

end Sys2Proof.Machine

/-!
PROOFS. Sequences of commands on a plain hash processor (40_sha256.md R126 to R128, 41_sha512.md R160 to R162), said
once for both: a stored midstate loads back, and a message absorbed in any number of writes gives its standard hash.
-/
namespace Sys2Proof.Machine

/-! ## The two plain hash processors -/

/-- One of the two plain hash processors: its part of the state and its commands, with what each command does to that
part and to MEM. -/
structure HashProcessor (w : Nat) where
  algo : Algo w
  inst : State → HashInst w
  /-- Bytes in a word, and so an eighth of the digest. -/
  wordBytes : Nat
  init : Instr
  write (src len : Nat) : Instr
  final (dst : Nat) : Instr
  ldst (src nblk : Nat) : Instr
  stst (dst : Nat) : Instr
  width : w = 8 * wordBytes
  blockBytes_pos : 0 < algo.blockBytes
  exec_init (s : State) : ∃ t, exec init s = .next t ∧ t.params = s.params ∧ t.mem = s.mem ∧
    inst t = HashInst.initial algo.iv
  exec_write {src len : Nat} {s : State} {m : List Byte} : (inst s).fin = false → inRange s src len →
    (inst s).cnt.toNat + len ≤ lengthLimit → Memory.readBytes s.mem src len = some m →
    ∃ t, exec (write src len) s = .next t ∧ t.params = s.params ∧ t.mem = s.mem ∧ inst t = absorb algo (inst s) m
  exec_final {dst : Nat} {s : State} : (inst s).fin = false → inRange s dst (8 * wordBytes) →
    ∃ t, exec (final dst) s = .next t ∧
      t.mem = Memory.writeBytes s.mem dst (finalizeDigest algo (inst s)) ∧ inst t = finalizeInst algo (inst s)
  exec_ldst {src : Nat} (nblk : Nat) {s : State} {m : List Byte} : inRange s src (8 * wordBytes) →
    Memory.readBytes s.mem src (8 * wordBytes) = some m →
    ∃ t, exec (ldst src nblk) s = .next t ∧ inst t = loadInst algo nblk m
  exec_stst {dst : Nat} {s : State} : inRange s dst (8 * wordBytes) → ∃ t, exec (stst dst) s = .next t ∧
    t.params = s.params ∧ t.mem = Memory.writeBytes s.mem dst (chainBytes (inst s).h)

/-- The SHA-256 processor (40_sha256.md §5). -/
def s256Processor : HashProcessor 32 where
  algo := sha256
  inst := State.s256
  wordBytes := 4
  init := .s256Init
  write := .s256Write
  final := .s256Final
  ldst := .s256Ldst
  stst := .s256Stst
  width := rfl
  blockBytes_pos := by decide
  exec_init s := ⟨_, exec_s256Init s, by simp, by simp, by simp⟩
  exec_write := exists_exec_s256Write
  exec_final hfin hrange :=
    ⟨_, exec_s256Final _ _ (commandError_s256Final_eq_none.2 ⟨hfin, hrange⟩), by simp, by simp⟩
  exec_ldst nblk _ _ hrange hm :=
    ⟨_, exec_s256Ldst _ nblk _ _ ((commandError_s256Ldst_eq_none (nblk := nblk)).2 hrange) hm, by simp⟩
  exec_stst hrange := ⟨_, exec_s256Stst _ _ (commandError_s256Stst_eq_none.2 hrange), by simp, by simp⟩

/-- The SHA-512 processor (41_sha512.md §5). -/
def s512Processor : HashProcessor 64 where
  algo := sha512
  inst := State.s512
  wordBytes := 8
  init := .s512Init
  write := .s512Write
  final := .s512Final
  ldst := .s512Ldst
  stst := .s512Stst
  width := rfl
  blockBytes_pos := by decide
  exec_init s := ⟨_, exec_s512Init s, by simp, by simp, by simp⟩
  exec_write hfin hrange hlimit hm :=
    ⟨_, exec_s512Write _ _ _ _ (commandError_s512Write_eq_none.2 ⟨hfin, hrange, hlimit⟩) hm, by simp, by simp, by simp⟩
  exec_final hfin hrange :=
    ⟨_, exec_s512Final _ _ (commandError_s512Final_eq_none.2 ⟨hfin, hrange⟩), by simp, by simp⟩
  exec_ldst nblk _ _ hrange hm :=
    ⟨_, exec_s512Ldst _ nblk _ _ ((commandError_s512Ldst_eq_none (nblk := nblk)).2 hrange) hm, by simp⟩
  exec_stst hrange := ⟨_, exec_s512Stst _ _ (commandError_s512Stst_eq_none.2 hrange), by simp, by simp⟩

section
variable {w : Nat} (P : HashProcessor w)

theorem HashProcessor.chainBytes_length (H : Words8 w) : (chainBytes H).length = 8 * P.wordBytes := by
  rw [Machine.chainBytes_length, div_eight P.width]

/-! ## Midstates (R126, R127, R160, R161) -/

/-- STST, INIT and LDST restore the processor at a block boundary: the bytes STST stored are those LDST loads. -/
theorem HashProcessor.execAll_midstate {dst nblk : Nat} {s : State} (hrange : inRange s dst (8 * P.wordBytes))
    (hcnt : (P.inst s).cnt.toNat = P.algo.blockBytes * nblk) (hbuf : (P.inst s).buf = [])
    (hfin : (P.inst s).fin = false) :
    ∃ t, execAll [P.stst dst, P.init, P.ldst dst nblk] s = .next t ∧ P.inst t = P.inst s := by
  obtain ⟨a, hstst, haparams, hamem⟩ := P.exec_stst hrange
  obtain ⟨b, hinit, hbparams, hbmem, -⟩ := P.exec_init a
  have hstored : Memory.readBytes b.mem dst (8 * P.wordBytes) = some (chainBytes (P.inst s).h) := by
    rw [hbmem, hamem, Memory.readBytes_writeBytes_of_length (P.chainBytes_length _)]
  obtain ⟨t, hldst, hload⟩ := P.exec_ldst nblk (by rwa [inRange, hbparams, haparams]) hstored
  refine ⟨t, ?_, hload.trans (loadInst_chainBytes P.algo _ P.width hcnt hbuf hfin)⟩
  rw [execAll_cons_of_next hstst, execAll_cons_of_next hinit, execAll_cons_of_next hldst, execAll]

/-! ## Whole hashes (R128, R162) -/

/-- A write command and the bytes it reads: address, length, bytes. -/
abbrev Piece := Nat × Nat × List Byte

/-- The piece is in range and its bytes stand in MEM. -/
def Piece.standsIn (s : State) (p : Piece) : Prop :=
  inRange s p.1 p.2.1 ∧ Memory.readBytes s.mem p.1 p.2.1 = some p.2.2

/-- The message that pieces spell. -/
def messageOf (pieces : List Piece) : List Byte := pieces.flatMap fun p => p.2.2

/-- Writes extend what was absorbed. -/
theorem HashProcessor.execAll_writes {I : HashInst w} (hfin : I.fin = false) (pieces : List Piece) :
    ∀ {s : State} {absorbed : List Byte}, P.inst s = absorb P.algo I absorbed →
    (∀ p ∈ pieces, p.standsIn s) →
    I.cnt.toNat + (absorbed ++ messageOf pieces).length ≤ lengthLimit →
    ∃ t, execAll (pieces.map fun p => P.write p.1 p.2.1) s = .next t ∧ t.params = s.params ∧ t.mem = s.mem ∧
      P.inst t = absorb P.algo I (absorbed ++ messageOf pieces) := by
  induction pieces with
  | nil => exact fun hinst _ _ => ⟨_, rfl, rfl, rfl, by rw [hinst, messageOf, List.flatMap_nil, List.append_nil]⟩
  | cons p rest ih =>
    intro s absorbed hinst hpieces hlimit
    obtain ⟨hrange, hm⟩ := hpieces p List.mem_cons_self
    have hmessage : absorbed ++ messageOf (p :: rest) = (absorbed ++ p.2.2) ++ messageOf rest := by
      rw [messageOf, List.flatMap_cons, List.append_assoc, messageOf]
    rw [hmessage] at hlimit ⊢
    have hroom : (P.inst s).cnt.toNat + p.2.1 ≤ lengthLimit := by
      have hlength := Memory.readBytes_length _ _ _ _ hm
      simp only [List.length_append] at hlimit
      rw [hinst, absorb_cnt_of_le_limit P.algo I (by omega)]
      omega
    obtain ⟨a, hwrite, hparams, hmem, hainst⟩ := P.exec_write (by rw [hinst, absorb_fin, hfin]) hrange hroom hm
    rw [hinst, absorb_absorb P.algo P.blockBytes_pos] at hainst
    have hrest : ∀ q ∈ rest, q.standsIn a := fun q hq => by
      simpa only [Piece.standsIn, inRange, hparams, hmem] using hpieces q (List.mem_cons_of_mem _ hq)
    obtain ⟨t, hwrites, htparams, htmem, htinst⟩ := ih hainst hrest hlimit
    exact ⟨t, (execAll_cons_of_next hwrite).trans hwrites, htparams.trans hparams, htmem.trans hmem, htinst⟩

/-- INIT, any number of writes and FINAL store the standard's hash of the message at `dst`, and what they leave
depends on the message alone. -/
theorem HashProcessor.execAll_stream {s : State} {dst : Nat} {pieces : List Piece}
    (hpieces : ∀ p ∈ pieces, p.standsIn s) (hdst : inRange s dst (8 * P.wordBytes))
    (hlimit : (messageOf pieces).length ≤ lengthLimit) :
    ∃ t, execAll (P.init :: ((pieces.map fun p => P.write p.1 p.2.1) ++ [P.final dst])) s = .next t ∧
      Memory.readBytes t.mem dst (8 * P.wordBytes) = some (hash P.algo (messageOf pieces)) ∧
      P.inst t = finalizeInst P.algo (absorb P.algo (HashInst.initial P.algo.iv) (messageOf pieces)) := by
  obtain ⟨a, hinit, haparams, hamem, hainst⟩ := P.exec_init s
  have hnothing : P.inst a = absorb P.algo (HashInst.initial P.algo.iv) [] := by
    rw [hainst, absorb, initial_buf, List.append_nil, List.length_nil, Nat.zero_div, compressBlocks, List.drop_nil]
    rfl
  obtain ⟨b, hwrites, hbparams, hbmem, hbinst⟩ := P.execAll_writes (initial_fin _) pieces hnothing
    (fun p hp => by simpa only [Piece.standsIn, inRange, haparams, hamem] using hpieces p hp) (by simpa using hlimit)
  rw [List.nil_append] at hbinst
  obtain ⟨t, hfinal, htmem, htinst⟩ := P.exec_final (dst := dst) (s := b)
    (by rw [hbinst, absorb_fin, initial_fin]) (by rwa [inRange, hbparams, haparams])
  rw [hbinst] at htmem htinst
  refine ⟨t, ?_, ?_, htinst⟩
  · rw [execAll_cons_of_next hinit, execAll_append_of_next hwrites, execAll_cons_of_next hfinal, execAll]
  · rw [htmem, finalizeDigest_absorb_initial P.algo P.blockBytes_pos (hlimit.trans_lt (by decide))]
    exact Memory.readBytes_writeBytes_of_length (P.chainBytes_length _) _ _

/-- A message split in two and the whole message, each streamed from its own state, give the same. -/
theorem HashProcessor.execAll_split {s u : State} {src1 len1 src2 len2 src len dst : Nat} {m1 m2 : List Byte}
    (hfirst : Piece.standsIn s (src1, len1, m1)) (hsecond : Piece.standsIn s (src2, len2, m2))
    (hwhole : Piece.standsIn u (src, len, m1 ++ m2)) (hs : inRange s dst (8 * P.wordBytes))
    (hu : inRange u dst (8 * P.wordBytes)) (hlimit : (m1 ++ m2).length ≤ lengthLimit) :
    ∃ t v, execAll [P.init, P.write src1 len1, P.write src2 len2, P.final dst] s = .next t ∧
      execAll [P.init, P.write src len, P.final dst] u = .next v ∧
      Memory.readBytes t.mem dst (8 * P.wordBytes) = some (hash P.algo (m1 ++ m2)) ∧
      Memory.readBytes v.mem dst (8 * P.wordBytes) = some (hash P.algo (m1 ++ m2)) ∧ P.inst t = P.inst v := by
  have hsplit : messageOf [(src1, len1, m1), (src2, len2, m2)] = m1 ++ m2 := by simp [messageOf]
  have hone : messageOf [(src, len, m1 ++ m2)] = m1 ++ m2 := by simp [messageOf]
  obtain ⟨t, ht, htdigest, htinst⟩ := P.execAll_stream (pieces := [(src1, len1, m1), (src2, len2, m2)])
    (by simpa using ⟨hfirst, hsecond⟩) hs (by rwa [hsplit])
  obtain ⟨v, hv, hvdigest, hvinst⟩ := P.execAll_stream (pieces := [(src, len, m1 ++ m2)])
    (by simpa using hwhole) hu (by rwa [hone])
  rw [hsplit] at htdigest htinst
  rw [hone] at hvdigest hvinst
  exact ⟨t, v, ht, hv, htdigest, hvdigest, htinst.trans hvinst.symm⟩

end

/-- Settles O23, by `HashProcessor.execAll_midstate`. -/
theorem storedMidstateLoadsBack : Obligations.StoredMidstateLoadsBack :=
  ⟨fun _ _ _ hrange _ hcnt hbuf hfin => s256Processor.execAll_midstate (.inr hrange) hcnt hbuf hfin,
    fun _ _ _ hrange _ hcnt hbuf hfin => s512Processor.execAll_midstate (.inr hrange) hcnt hbuf hfin⟩

/-- MEM holds no message longer than LIMIT (00_scope.md R5, R7). -/
theorem length_le_limit_of_readBytes {s : State} {a n : Nat} {m : List Byte} (hparams : s.params.valid = true)
    (hrange : inRange s a n) (hm : Memory.readBytes s.mem a n = some m) : m.length ≤ lengthLimit := by
  have hsize : s.params.memSize ≤ 65536 := by
    simp [Params.valid] at hparams
    omega
  have hlength := Memory.readBytes_length _ _ _ _ hm
  unfold inRange at hrange
  unfold lengthLimit
  omega

/-- Settles O26, by `HashProcessor.execAll_split`. -/
theorem streamingEquivalence : Obligations.StreamingEquivalence :=
  ⟨fun _ _ _ _ _ _ _ _ _ _ _ hu hrange1 hrange2 hdst hm1 hm2 hrange hdst' hm =>
      s256Processor.execAll_split ⟨hrange1, hm1⟩ ⟨hrange2, hm2⟩ ⟨hrange, hm⟩ (.inr hdst) (.inr hdst')
        (length_le_limit_of_readBytes hu hrange hm),
    fun _ _ _ _ _ _ _ _ _ _ _ hu hrange1 hrange2 hdst hm1 hm2 hrange hdst' hm =>
      s512Processor.execAll_split ⟨hrange1, hm1⟩ ⟨hrange2, hm2⟩ ⟨hrange, hm⟩ (.inr hdst) (.inr hdst')
        (length_le_limit_of_readBytes hu hrange hm)⟩

end Sys2Proof.Machine

/-!
PROOFS. The HMAC processor (42_hmac_sha512.md): the normalized key, its four commands, the standard MAC of a key and a
message in any number of writes, and the BIP32 layouts.
-/
namespace Sys2Proof.Machine

/-! ## The normalized key (R170, R171) -/

theorem hash_sha512_length (m : List Byte) : (hash sha512 m).length = 64 := chainBytes_length _

theorem hmac512_length (key m : List Byte) : (hmac512 key m).length = 64 := hash_sha512_length _

theorem keyBlock_length (key : List Byte) : (keyBlock key).length = 128 := by
  unfold keyBlock
  split
  · next hshort => rw [List.length_append, List.length_replicate, Nat.add_sub_cancel' hshort]
  · rw [List.length_append, hash_sha512_length, List.length_replicate]

/-- HMAC.KEY hashes a long key as the standard does (R177). -/
theorem normalizeKey_eq_keyBlock {key : List Byte} (hkey : key.length ≤ lengthLimit) :
    normalizeKey key = keyBlock key := by
  rw [normalizeKey, ← sha512_iv, finalizeDigest_absorb_initial sha512 (by decide) (hkey.trans_lt (by decide)), keyBlock]

/-- K0 ⊕ pad, as it stands in `hmac512` (R172). -/
abbrev keyPad (key : List Byte) (p : Byte) : List Byte := xorBytes (keyBlock key) (padBytes p)

theorem keyPad_length (key : List Byte) (p : Byte) : (keyPad key p).length = 128 := by
  rw [keyPad, xorBytes, List.length_zipWith, keyBlock_length, padBytes, List.length_replicate, Nat.min_self]

theorem keyedInst_eq {key : List Byte} (hkey : key.length ≤ lengthLimit) (p : Byte) :
    keyedInst key p = absorb sha512 (HashInst.initial iv512) (keyPad key p) := by
  rw [keyedInst, normalizeKey_eq_keyBlock hkey]

/-- Absorbing one whole block from the Initialize state is one Compress. -/
theorem absorb_initial_block {w : Nat} (A : Algo w) (hbs : 0 < A.blockBytes) (H : Words8 w) {block : List Byte}
    (hblock : block.length = A.blockBytes) : absorb A (HashInst.initial H) block =
      { h := compress A H block, cnt := BitVec.ofNat 64 A.blockBytes, buf := [], fin := false } := by
  simp [absorb, hblock, Nat.div_self hbs, compressBlocks_one A H hblock]

/-! ## The checks (R173 to R175, 60_exceptions.md R208 to R211) -/

section
variable {src len dst : Nat} {s : State}

theorem commandError_hmacKey_eq_none : commandError (.hmacKey src len) s = none ↔ inRange s src len := by
  simp [commandError, checkHmacKey, firstError_eq_none, outOfRange_eq_false]

theorem commandError_hmacWrite_eq_none : commandError (.hmacWrite src len) s = none ↔
    s.hkeyed = true ∧ s.hfin = false ∧ inRange s src len ∧ s.hi.cnt.toNat + len ≤ lengthLimit := by
  simp [commandError, checkHmacWrite, firstError_eq_none, outOfRange_eq_false, overLimit]

theorem commandError_hmacFinal_eq_none : commandError (.hmacFinal dst) s = none ↔
    s.hkeyed = true ∧ s.hfin = false ∧ inRange s dst 64 := by
  simp [commandError, checkHmacFinal, firstError_eq_none, outOfRange_eq_false]

theorem commandError_hmacWrite_of_not_keyed (hkeyed : s.hkeyed = false) :
    commandError (.hmacWrite src len) s = some .notKeyed := by
  simp [commandError, checkHmacWrite, firstError, hkeyed]

theorem commandError_hmacFinal_of_not_keyed (hkeyed : s.hkeyed = false) :
    commandError (.hmacFinal dst) s = some .notKeyed := by
  simp [commandError, checkHmacFinal, firstError, hkeyed]

end

/-! ## KEY, WRITE, FINAL and CLEAR (R173 to R176) -/

/-- A command that passed its checks and answered has completed (43_system.md R192). -/
theorem completed_of_exec {i : Instr} {s t : State} (hcheck : commandError i s = none) (h : exec i s = .next t) :
    completed s t := by
  obtain ⟨code, hcode, -⟩ | ⟨-, m, -, rfl⟩ := exec_effects h
  · cases hcheck.symm.trans hcode
  · exact completed_commandEffects i m s

/-- A completion after a change of the HMAC processor and MEM alone leaves all else. -/
theorem complete_hmac_fields (s : State) (hi ho : HashInst 64) (hkeyed hfin : Bool) (mem : Memory) :
    let t := complete { s with hi := hi, ho := ho, hkeyed := hkeyed, hfin := hfin, mem := mem }
    t.hi = hi ∧ t.ho = ho ∧ t.hkeyed = hkeyed ∧ t.hfin = hfin ∧ t.mem = mem ∧ t.s256 = s.s256 ∧ t.s512 = s.s512 :=
  ⟨rfl, rfl, rfl, rfl, rfl, rfl, rfl⟩

/-- KEY completes with K0 ⊕ pad absorbed by HI and HO, and leaves all else. -/
theorem exists_exec_hmacKey {src len : Nat} {s : State} {key : List Byte} (hparams : s.params.valid = true)
    (hrange : inRange s src len) (hkey : Memory.readBytes s.mem src len = some key) :
    ∃ t, exec (.hmacKey src len) s = .next t ∧ completed s t ∧
      t.hi = absorb sha512 (HashInst.initial iv512) (keyPad key 0x36) ∧
      t.ho = absorb sha512 (HashInst.initial iv512) (keyPad key 0x5c) ∧
      t.hkeyed = true ∧ t.hfin = false ∧ t.mem = s.mem ∧ t.s256 = s.s256 ∧ t.s512 = s.s512 := by
  have hcheck := commandError_hmacKey_eq_none.2 hrange
  have hexec := exec_hmacKey src len s key hcheck hkey
  simp only [keyedInst_eq (length_le_limit_of_readBytes hparams hrange hkey)] at hexec
  exact ⟨_, hexec, completed_of_exec hcheck hexec, complete_hmac_fields s _ _ true false s.mem⟩

/-- Settles O24: HI and HO absorb one block each, which is one Compress (`absorb_initial_block`). -/
theorem hmacKeyKeysBothInstances : Obligations.HmacKeyKeysBothInstances := by
  intro src len s key hparams hrange hkey
  obtain ⟨t, hexec, hcompleted, hhi, hho, hkeyed, hfin, hmem, hs256, hs512⟩ := exists_exec_hmacKey hparams hrange hkey
  rw [absorb_initial_block sha512 (by decide) iv512 (keyPad_length key _)] at hhi hho
  refine ⟨t, hexec, hcompleted, keyBlock_length key, ?_⟩
  simp [hhi, hho, hkeyed, hfin, hs256, hs512, sameMemory, hmem]

/-- WRITE completes with its bytes absorbed by HI, and leaves all else. -/
theorem exists_exec_hmacWrite {src len : Nat} {s : State} {m : List Byte} (hkeyed : s.hkeyed = true)
    (hhfin : s.hfin = false) (hrange : inRange s src len) (hlimit : s.hi.cnt.toNat + len ≤ lengthLimit)
    (hm : Memory.readBytes s.mem src len = some m) :
    ∃ t, exec (.hmacWrite src len) s = .next t ∧ completed s t ∧ t.hi = absorb sha512 s.hi m ∧ t.ho = s.ho ∧
      t.hkeyed = s.hkeyed ∧ t.hfin = s.hfin ∧ t.mem = s.mem ∧ t.s256 = s.s256 ∧ t.s512 = s.s512 := by
  have hcheck := commandError_hmacWrite_eq_none.2 ⟨hkeyed, hhfin, hrange, hlimit⟩
  have hexec := exec_hmacWrite src len s m hcheck hm
  exact ⟨_, hexec, completed_of_exec hcheck hexec, complete_hmac_fields s _ s.ho s.hkeyed s.hfin s.mem⟩

/-- Settles O17: the checks pass, and the effect is Absorb on HI (`absorb_h`, `absorb_cnt_of_le_limit`). -/
theorem hmacWriteAbsorbs : Obligations.HmacWriteAbsorbs := by
  intro src len s m hkeyed hhfin hrange hlimit hm
  obtain ⟨t, hexec, hcompleted, hhi, hho, hkeyed', hhfin', hmem, hs256, hs512⟩ :=
    exists_exec_hmacWrite hkeyed hhfin hrange hlimit hm
  have hlength := Memory.readBytes_length _ _ _ _ hm
  refine ⟨t, hexec, hcompleted, ?_, ?_, ?_, hho, hkeyed'.trans hkeyed, hhfin'.trans hhfin, hs256, hs512, ?_⟩
  · rw [hhi]
    exact ⟨absorb_h sha512 s.hi m, rfl⟩
  · rw [hhi, absorb_cnt_of_le_limit sha512 s.hi (by rwa [hlength]), hlength]
  · rw [hhi, absorb_fin]
  · exact fun x => by rw [hmem]

/-- FINAL completes with HI and HO finalized and HO's digest written at `dst`, and leaves all else. -/
theorem exists_exec_hmacFinal {dst : Nat} {s : State} (hkeyed : s.hkeyed = true) (hhfin : s.hfin = false)
    (hrange : inRange s dst 64) :
    ∃ t, exec (.hmacFinal dst) s = .next t ∧ completed s t ∧ t.hi = finalizeInst sha512 s.hi ∧
      t.ho = outerFinal s.hi s.ho ∧ t.hkeyed = s.hkeyed ∧ t.hfin = true ∧
      t.mem = Memory.writeBytes s.mem dst (chainBytes (outerFinal s.hi s.ho).h) ∧ t.s256 = s.s256 ∧ t.s512 = s.s512 := by
  have hcheck := commandError_hmacFinal_eq_none.2 ⟨hkeyed, hhfin, hrange⟩
  have hexec := exec_hmacFinal dst s hcheck
  exact ⟨_, hexec, completed_of_exec hcheck hexec, complete_hmac_fields s _ _ s.hkeyed true _⟩

/-- Settles O19: HO's state is `outerFinal`, whose digest is what is written. -/
theorem hmacFinalStoresTheMac : Obligations.HmacFinalStoresTheMac := by
  intro dst s hkeyed hhfin hrange
  obtain ⟨t, hexec, hcompleted, hhi, hho, hkeyed', hhfin', hmem, hs256, hs512⟩ :=
    exists_exec_hmacFinal hkeyed hhfin (.inr hrange)
  have hmac : (chainBytes t.ho.h).length = 64 := chainBytes_length _
  rw [← hho] at hmem
  refine ⟨t, hexec, hcompleted, hhi, ?_, ?_, hkeyed'.trans hkeyed, hhfin', ?_, hs256, hs512⟩
  · rw [hho, hhi]
    rfl
  · rw [hmem, Memory.readBytes_writeBytes_of_length hmac]
  · intro x hx
    rw [hmem, Memory.read_writeBytes_outside _ _ _ _ (by rwa [hmac])]

/-- Settles O25: CLEAR has no check, and without a key WRITE and FINAL stop at their first one. -/
theorem hmacClearZeroizes : Obligations.HmacClearZeroizes := by
  intro s
  refine ⟨_, exec_hmacClear s, completed_commandEffects .hmacClear [] s, ?_, rfl, rfl, rfl, rfl, rfl, rfl, rfl, rfl,
    rfl, rfl, fun _ => rfl, fun _ _ => commandError_hmacWrite_of_not_keyed rfl,
    fun _ => commandError_hmacFinal_of_not_keyed rfl⟩
  simp [zeroWords, Words8.toList]

/-! ## Independence of S256 and S512 (R177) -/

/-- The block with other plain instances. -/
def State.withPlain (x : HashInst 32) (y : HashInst 64) (s : State) : State := { s with s256 := x, s512 := y }

section
variable {i : Instr} {x : HashInst 32} {y : HashInst 64} {s : State}

/-- A command whose checks and effects do not see the plain instances answers the same with any others. -/
theorem exec_withPlain (hcheck : commandError i (s.withPlain x y) = commandError i s)
    (heffects : ∀ m, commandEffects i m (s.withPlain x y) = (commandEffects i m s).withPlain x y) :
    exec i (s.withPlain x y) = mapNext (State.withPlain x y) (exec i s) := by
  cases hspan : readSpan i with
  | none =>
    rw [exec_of_readSpan_none hspan, exec_of_readSpan_none hspan, hcheck, heffects]
    cases commandError i s <;> rfl
  | some span =>
    rw [exec_of_readSpan_some hspan, exec_of_readSpan_some hspan, hcheck]
    have hmem : (s.withPlain x y).mem = s.mem := rfl
    cases commandError i s with
    | some code => rfl
    | none =>
      simp only [guarded_none, withBytes, hmem, heffects]
      cases Memory.readBytes s.mem span.1 span.2 <;> rfl

theorem exec_hmac_withPlain (hhmac : (∃ src len, i = .hmacKey src len) ∨ (∃ src len, i = .hmacWrite src len) ∨
    (∃ dst, i = .hmacFinal dst) ∨ i = .hmacClear) :
    exec i (s.withPlain x y) = mapNext (State.withPlain x y) (exec i s) := by
  obtain ⟨src, len, rfl⟩ | ⟨src, len, rfl⟩ | ⟨dst, rfl⟩ | rfl := hhmac <;>
    exact exec_withPlain rfl fun _ => by simp only [commandEffects, State.withPlain]

end

/-- Settles O32, by `exec_hmac_withPlain`: taken at the state's own plain instances, it says that they stay. -/
theorem hmacIgnoresThePlainInstances : Obligations.HmacIgnoresThePlainInstances := by
  intro i s x y hhmac
  refine ⟨fun t ht => ?_, fun r hr => ?_⟩
  · have hown : exec i s = mapNext (State.withPlain s.s256 s.s512) (exec i s) :=
      exec_hmac_withPlain (s := s) hhmac
    rw [ht] at hown
    have hstay : t = t.withPlain s.s256 s.s512 := Host.Outcome.next.inj hown
    refine ⟨(congrArg State.s256 hstay).trans rfl, (congrArg State.s512 hstay).trans rfl, ?_⟩
    exact (exec_hmac_withPlain hhmac).trans (by rw [ht]; rfl)
  · exact (exec_hmac_withPlain hhmac).trans (by rw [hr]; rfl)

/-! ## The standard MAC (R171, R172, R184) -/

/-- A MAC in progress: HI holds the inner hash of RFC 2104 as far as `m`, and HO the start of the outer hash. -/
structure State.MacInProgress (key m : List Byte) (s : State) : Prop where
  hkeyed : s.hkeyed = true
  hfin : s.hfin = false
  hi : s.hi = absorb sha512 (HashInst.initial iv512) (keyPad key 0x36 ++ m)
  ho : s.ho = absorb sha512 (HashInst.initial iv512) (keyPad key 0x5c)

theorem State.MacInProgress.hi_cnt {key m : List Byte} {s : State} (hs : s.MacInProgress key m)
    (hlimit : 128 + m.length ≤ lengthLimit) : s.hi.cnt.toNat = 128 + m.length := by
  have hlength : (keyPad key 0x36 ++ m).length = 128 + m.length := by
    rw [List.length_append, keyPad_length]
  rw [hs.hi, absorb_cnt_of_le_limit sha512 _ (by rw [hlength, initial_cnt]; simpa using hlimit), hlength, initial_cnt]
  exact Nat.zero_add _

/-- WRITE extends the message. -/
theorem State.MacInProgress.write {key m : List Byte} {s : State} {p : Piece} (hs : s.MacInProgress key m)
    (hp : p.standsIn s) (hlimit : 128 + (m ++ p.2.2).length ≤ lengthLimit) :
    ∃ t, exec (.hmacWrite p.1 p.2.1) s = .next t ∧ t.params = s.params ∧ t.mem = s.mem ∧
      t.MacInProgress key (m ++ p.2.2) := by
  obtain ⟨hrange, hm⟩ := hp
  have hlength := Memory.readBytes_length _ _ _ _ hm
  rw [List.length_append, hlength] at hlimit
  have hcnt := hs.hi_cnt (by omega)
  obtain ⟨t, hexec, ⟨-, -, -, hparams, -⟩, hhi, hho, hkeyed, hhfin, hmem, -⟩ :=
    exists_exec_hmacWrite hs.hkeyed hs.hfin hrange (by omega) hm
  refine ⟨t, hexec, hparams, hmem, hkeyed.trans hs.hkeyed, hhfin.trans hs.hfin, ?_, hho.trans hs.ho⟩
  rw [hhi, hs.hi, absorb_absorb sha512 (by decide), List.append_assoc]

/-- The digest HO has after FINAL is the standard's MAC of the message. -/
theorem State.MacInProgress.digest {key m : List Byte} {s : State} (hs : s.MacInProgress key m)
    (hlimit : 128 + m.length ≤ lengthLimit) : chainBytes (outerFinal s.hi s.ho).h = hmac512 key m := by
  have hinner : finalizeDigest sha512 s.hi = hash sha512 (keyPad key 0x36 ++ m) := by
    rw [hs.hi]
    refine finalizeDigest_absorb_initial sha512 (by decide) ?_
    rw [List.length_append, keyPad_length]
    exact hlimit.trans_lt (by decide)
  rw [outerFinal, hinner, hs.ho, absorb_absorb sha512 (by decide)]
  refine finalizeDigest_absorb_initial sha512 (by decide) ?_
  rw [List.length_append, keyPad_length, hash_sha512_length]
  decide

/-- Any number of writes extend the message by what they spell. -/
theorem execAll_hmacWrites {key : List Byte} (pieces : List Piece) : ∀ {m : List Byte} {s : State},
    s.MacInProgress key m → (∀ p ∈ pieces, p.standsIn s) → 128 + (m ++ messageOf pieces).length ≤ lengthLimit →
    ∃ t, execAll (pieces.map fun p => .hmacWrite p.1 p.2.1) s = .next t ∧ t.params = s.params ∧
      t.MacInProgress key (m ++ messageOf pieces) := by
  induction pieces with
  | nil => exact fun hs _ _ => ⟨_, rfl, rfl, by rwa [messageOf, List.flatMap_nil, List.append_nil]⟩
  | cons p rest ih =>
    intro m s hs hpieces hlimit
    have hmessage : m ++ messageOf (p :: rest) = (m ++ p.2.2) ++ messageOf rest := by
      rw [messageOf, List.flatMap_cons, List.append_assoc, messageOf]
    rw [hmessage] at hlimit ⊢
    obtain ⟨a, hwrite, hparams, hmem, ha⟩ := hs.write (hpieces p List.mem_cons_self)
      (by rw [List.length_append] at hlimit; omega)
    have hrest : ∀ q ∈ rest, q.standsIn a := fun q hq => by
      simpa only [Piece.standsIn, inRange, hparams, hmem] using hpieces q (List.mem_cons_of_mem _ hq)
    obtain ⟨t, hwrites, htparams, ht⟩ := ih ha hrest hlimit
    exact ⟨t, (execAll_cons_of_next hwrite).trans hwrites, htparams.trans hparams, ht⟩

/-- Settles O27: KEY begins the MAC, the writes extend its message, and FINAL stores it. -/
theorem hmacStoresTheStandardMac : Obligations.HmacStoresTheStandardMac := by
  intro s ksrc klen dst key writes hparams hkrange hdst hkey hwrites hlimit
  obtain ⟨a, hexecKey, ⟨-, -, -, haparams, -⟩, hahi, haho, hakeyed, hafin, hamem, -, -⟩ :=
    exists_exec_hmacKey hparams hkrange hkey
  have ha : a.MacInProgress key [] := ⟨hakeyed, hafin, by rwa [List.append_nil], haho⟩
  obtain ⟨b, hexecWrites, hbparams, hb⟩ := execAll_hmacWrites writes ha
    (fun p hp => by simpa only [Piece.standsIn, inRange, haparams, hamem] using hwrites p hp) hlimit
  obtain ⟨t, hexecFinal, -, -, -, -, -, htmem, -⟩ := exists_exec_hmacFinal (dst := dst) hb.hkeyed hb.hfin
    (.inr (by rwa [hbparams, haparams]))
  rw [hb.digest hlimit] at htmem
  refine ⟨t, ?_, by rw [htmem, Memory.readBytes_writeBytes_of_length (hmac512_length key _)]; rfl⟩
  rw [List.append_assoc, List.singleton_append, execAll_cons_of_next hexecKey, execAll_append_of_next hexecWrites,
    execAll_cons_of_next hexecFinal, execAll]

/-! ## BIP32 (R180 to R182) -/

theorem indexBytes_eq_beBytes (i : BitVec 32) : indexBytes i = beBytes 4 i := rfl

theorem childMessage_normal {i : BitVec 32} (h : i.getLsbD 31 = false) (pub priv : List Byte) :
    childMessage pub priv i = pub ++ beBytes 4 i := by
  rw [childMessage, h, indexBytes_eq_beBytes, if_neg Bool.false_ne_true]

theorem childMessage_hardened {i : BitVec 32} (h : i.getLsbD 31 = true) (pub priv : List Byte) :
    childMessage pub priv i = (0x00 :: priv) ++ beBytes 4 i := by
  rw [childMessage, h, indexBytes_eq_beBytes, if_pos rfl, List.cons_append]

/-- A 33-byte key form followed by BE_32 of the index: its length and its two parts. -/
theorem append_index_layout {form : List Byte} (hform : form.length = 33) (i : BitVec 32) :
    (form ++ beBytes 4 i).length = 37 ∧ beVal ((form ++ beBytes 4 i).drop 33) = i.toNat ∧
      (form ++ beBytes 4 i).take 33 = form := by
  refine ⟨by rw [List.length_append, hform, beBytes_length], ?_, List.take_left' hform⟩
  rw [List.drop_left' hform, beVal_beBytes]
  exact Nat.mod_eq_of_lt i.isLt

theorem halves_layout {d : List Byte} (hd : d.length = 64) :
    (leftHalf d).length = 32 ∧ (rightHalf d).length = 32 ∧ leftHalf d ++ rightHalf d = d := by
  refine ⟨by simp [leftHalf, hd], by simp [rightHalf, hd], ?_⟩
  have hright : (d.drop 32).take 32 = d.drop 32 := List.take_of_length_le (by rw [List.length_drop, hd])
  rw [leftHalf, rightHalf, hright, List.take_append_drop]

/-- Settles O60: both forms of the message are 33 bytes and the index (`append_index_layout`). -/
theorem bip32Layouts : Obligations.Bip32Layouts := by
  intro pub priv d i hpub hpriv hd
  cases hbit : i.getLsbD 31 with
  | false =>
    obtain ⟨hlength, hindex, hform⟩ := append_index_layout hpub i
    rw [childMessage_normal hbit]
    exact ⟨hlength, hindex, fun _ => hform, (nomatch ·), halves_layout hd⟩
  | true =>
    obtain ⟨hlength, hindex, hform⟩ := append_index_layout (form := 0x00 :: priv) (by simp [hpriv]) i
    rw [childMessage_hardened hbit]
    exact ⟨hlength, hindex, (nomatch ·), fun _ => hform, halves_layout hd⟩

end Sys2Proof.Machine

/-!
PROOFS. Completion (43_system.md R191 to R193): a command that passed its checks cannot fail. And whose turn a step is:
the engine's or the host's (R192, R199, R200).
-/
namespace Sys2Proof.Machine

/-! ## A command whose checks passed (R191, R192) -/

/-- A span of written bytes has contents (20_memory.md R80). -/
theorem Memory.exists_readBytes {m : Memory} {n a : Nat}
    (hwritten : ∀ x, a ≤ x → x < a + n → (Memory.read m x).isSome = true) :
    ∃ bytes, Memory.readBytes m a n = some bytes := by
  induction n generalizing a with
  | zero => exact ⟨[], rfl⟩
  | succ n ih =>
    obtain ⟨b, hb⟩ := Option.isSome_iff_exists.1 (hwritten a (Nat.le_refl a) (by omega))
    obtain ⟨bytes, hbytes⟩ := ih (a := a + 1) fun x hlow hhigh => hwritten x (by omega) (by omega)
    exact ⟨b :: bytes, by simp [Memory.readBytes, hb, hbytes]⟩

/-- A command leaves every byte outside its write span (20_memory.md R69). -/
theorem exec_read_outside {i : Instr} {s t : State} (h : exec i s = .next t) {x : Nat}
    (hx : inSpan (writeSpan i) x = false) : Memory.read t.mem x = Memory.read s.mem x := by
  obtain hmem | ⟨dst, bytes, -, hspan, hmem⟩ := exec_mem h <;> rw [hmem]
  refine Memory.read_writeBytes_outside bytes s.mem dst x ?_
  have houtside : ¬ (dst ≤ x ∧ x < dst + bytes.length) := by
    rwa [hspan, ← Bool.not_eq_true, inSpan_some] at hx
  omega

/-- A command that passed its checks completes, or reads a byte that was never written (R191, 20_memory.md R80). -/
theorem exec_completes_or_faults {i : Instr} {s : State} (hcheck : commandError i s = none) :
    (∃ t, exec i s = .next t ∧ completed s t) ∨
    ∃ a n, readSpan i = some (a, n) ∧ Memory.readBytes s.mem a n = none ∧
      exec i s = .fault (.readUnwritten a n) := by
  cases hspan : readSpan i with
  | none => exact .inl ⟨_, exec_of_no_read hspan hcheck, completed_commandEffects i [] s⟩
  | some span =>
    obtain ⟨a, n⟩ := span
    cases hbytes : Memory.readBytes s.mem a n with
    | some bytes => exact .inl ⟨_, exec_of_read hspan hcheck hbytes, completed_commandEffects i bytes s⟩
    | none =>
      refine .inr ⟨a, n, rfl, hbytes, ?_⟩
      rw [exec_of_readSpan_some hspan, hcheck, guarded_none, withBytes_none _ hbytes]

/-- Settles O29: a written read span has contents (`Memory.exists_readBytes`), so the command completes, and it leaves
the bytes outside its write span (`exec_read_outside`). -/
theorem everyCommandCompletes : Obligations.EveryCommandCompletes := by
  intro i s hcheck hwritten
  obtain ⟨t, hexec, hcompleted⟩ | ⟨a, n, hspan, hnone, -⟩ := exec_completes_or_faults hcheck
  · exact ⟨t, hexec, hcompleted, fun _ => exec_read_outside hexec⟩
  · obtain ⟨bytes, hbytes⟩ : ∃ bytes, Memory.readBytes s.mem a n = some bytes :=
      Memory.exists_readBytes fun x hlow hhigh => hwritten x (by rw [hspan, inSpan_some]; exact ⟨hlow, hhigh⟩)
    cases hnone.symm.trans hbytes

/-- Settles O14: NOP is a bare completion (`exec_nop`). -/
theorem nopOnlyCompletes : Obligations.NopOnlyCompletes := fun s =>
  ⟨complete s, exec_nop s, completed_commandEffects .nop [] s, complete_s256 s, complete_s512 s,
    ⟨complete_hi s, complete_ho s, complete_hkeyed s, complete_hfin s⟩, fun x => by rw [complete_mem]⟩

/-! ## The engine's turn -/

/-- On the engine's turn a step is the meaning of the word in flight (R192). -/
theorem step_of_engineTurn {s : State} {w : Command} {i : Instr} (hbusy : s.busy = true) (hw : s.inflight = some w)
    (hwait : s.wait = 0) (hdecode : decode w = .ok i) : step s = exec i s := by
  simp [step, engineTurn, engineStep, runCommand, hbusy, hw, hwait, hdecode]

/-- Settles O37: a command in flight decodes and passes its checks, by the invariant, so its completion is that of
`exec_completes_or_faults`. -/
theorem acceptedCommandsCannotFail : Obligations.AcceptedCommandsCannotFail := by
  intro s w hs hw hwait
  obtain ⟨hbusy, i, hdecode, hcheck⟩ := hs.inflight w hw
  rw [step_of_engineTurn hbusy hw hwait hdecode]
  exact (exec_completes_or_faults hcheck).imp_right fun ⟨a, n, _, _, hfault⟩ => ⟨a, n, hfault⟩

/-! ## Every other turn (R199, R200) -/

section
variable {s : State} (hturn : s.busy = false ∨ s.wait ≠ 0)
include hturn

theorem step_of_hostTurn : step s = hostTurn (passTurn s) := by
  have hengine : engineTurn s = false := by
    obtain hidle | hwait := hturn
    · simp [engineTurn, hidle]
    · simp [engineTurn, hwait]
  rw [step, hengine, if_neg Bool.false_ne_true]

theorem step_of_host_nil (hhost : s.host = []) : step s = .next (passTurn s) := by
  rw [step_of_hostTurn hturn, hostTurn, passTurn_shape, hhost]

theorem step_of_host_cons {act : HostAction} {rest : List HostAction} (hhost : s.host = act :: rest) :
    step s = hostAct act rest (passTurn s) := by
  rw [step_of_hostTurn hturn, hostTurn, passTurn_shape, hhost]

end

theorem passTurn_eq_with_wait (s : State) : passTurn s = { s with wait := if s.busy then s.wait - 1 else s.wait } := by
  unfold passTurn
  split <;> rfl

/-- Settles O51: `step_of_engineTurn` on the engine's turn, with `decode_encode` for a command's word;
`step_of_host_nil` and `step_of_host_cons` on every other turn. -/
theorem stepRunsTheDecodedInstruction : Obligations.StepRunsTheDecodedInstruction := by
  refine ⟨fun s w i hbusy hw hwait hdecode => step_of_engineTurn hbusy hw hwait hdecode, fun s i hwf => ?_,
    fun s rest hturn => ?_⟩
  · have hplace : s.withFetchWord 64 (encode i).toNat = placeCommand (encode i) s := by
      rw [State.withFetchWord, Nat.mod_eq_of_lt (encode i).isLt, BitVec.ofNat_toNat, BitVec.setWidth_eq]
    rw [hplace]
    exact step_of_engineTurn rfl rfl rfl (decode_encode hwf)
  · intro passed t
    have hpassed : passTurn s = passed := passTurn_eq_with_wait s
    have hact {act : HostAction} (hhost : s.host = act :: rest) : step s = hostAct act rest passed :=
      hpassed ▸ step_of_host_cons hturn hhost
    refine ⟨fun hhost => hpassed ▸ step_of_host_nil hturn hhost, fun _ hhost => hact hhost,
      fun _ _ _ hhost => hact hhost, fun hhost => ?_, fun hhost => hact hhost, fun _ hhost => hact hhost⟩
    rw [hact hhost, apply_ite Host.Outcome.next]
    rfl

end Sys2Proof.Machine

/-!
PROOFS. Host turns while BUSY = 1 (43_system.md R194), and a write of CTRL in any state (R196).
-/
namespace Sys2Proof.Machine

/-! ## CTRL (R196) -/

/-- Settles O36, by the two cases of a CTRL write (`writeCtrl_cases`). -/
theorem ctrlWrite : Obligations.CtrlWrite := by
  intro v s
  refine ⟨writeCtrl v s, hostWrite_register (off := 0x08) (by decide) (by decide) v s, ?_⟩
  obtain ⟨hbit, h⟩ | ⟨hbit, h⟩ := writeCtrl_cases v s
  · exact ⟨fun _ => h, fun hclear => (nomatch hbit.symm.trans hclear)⟩
  · rw [h]
    refine ⟨fun hset => (nomatch hbit.symm.trans hset), fun _ => ⟨rfl, rfl, rfl, ?_, ?_, rfl⟩⟩
    · rintro ⟨hclr, hfatal⟩
      simp [hclr, hfatal]
    · rintro (hclr | hfatal)
      · rw [hclr]; simp
      · rw [hfatal]; simp

/-! ## A host turn while BUSY = 1 (R194) -/

/-- What a host action other than a reset can do while BUSY = 1. The error record stays, is cleared, or takes an error
where there was none: BUSY_OVERRUN, the only one raised while BUSY = 1 (60_exceptions.md R212). -/
structure BusyTurn (s t : State) : Prop where
  unmoved : Unmoved s t
  errorRecord : (t.err = s.err ∧ t.errCode = s.errCode ∧ t.errCmd = s.errCmd) ∨
    (t.err = false ∧ t.errCode = .noError ∧ t.errCmd = 0 ∧ t.errLost = false) ∨
    (s.err = false ∧ s.fatal = false ∧ t.err = true ∧ t.errCode = .busyOverrun ∧ t.errLost = s.errLost)

/-- The host's queue and the count-down are no part of it. -/
theorem BusyTurn.of_host_wait {s t : State} {host : List HostAction} {wait : Nat}
    (h : BusyTurn { s with host := host, wait := wait } t) : BusyTurn s t :=
  ⟨(unmoved_fields s ..).trans h.unmoved, h.errorRecord⟩

theorem busyTurn_writeCtrl {v : Word32} (hbit : v.getLsbD 31 = false) (s : State) : BusyTurn s (writeCtrl v s) := by
  obtain ⟨hset, -⟩ | ⟨-, h⟩ := writeCtrl_cases v s
  · cases hbit.symm.trans hset
  · rw [h]
    refine ⟨⟨rfl, .refl s, rfl, rfl, rfl, rfl, fun hdone => (Bool.and_eq_true_iff.1 hdone).1,
      errorRecordOk_clear (v.getLsbD 9)⟩, ?_⟩
    cases v.getLsbD 9 && !s.fatal
    · exact .inl (by simp)
    · exact .inr (.inl (by simp))

/-- A word issued while BUSY = 1 is discarded or raises BUSY_OVERRUN (43_system.md R190). -/
theorem busyTurn_writeCmdHi (v : Word32) {s : State} (hbusy : s.busy = true) : BusyTurn s (writeCmdHi v s) := by
  have hstore : Unmoved s { s with cmdHi := v } := unmoved_fields s ..
  unfold writeCmdHi
  obtain ⟨hlost, h⟩ | ⟨hfatal, herr, -, h⟩ | ⟨-, -, hidle, -⟩ := issue_cases (v ++ s.cmdLo) { s with cmdHi := v }
  · rw [h]
    exact ⟨hstore.trans (unmoved_discard hlost), .inl ⟨rfl, rfl, rfl⟩⟩
  · rw [h]
    exact ⟨hstore.trans (unmoved_raiseError _ (by decide) hfatal), .inr (.inr ⟨herr, hfatal, rfl, rfl, rfl⟩)⟩
  · cases hbusy.symm.trans hidle

theorem busyTurn_writeRegister {off : Nat} {v : Word32} {s : State} (hbusy : s.busy = true)
    (hreset : off = 0x08 → v.getLsbD 31 = false) : BusyTurn s (writeRegister off v s) := by
  obtain ⟨hctrl, h⟩ | ⟨-, h⟩ | ⟨-, h⟩ | h := writeRegister_cases off v s <;> rw [h]
  · exact busyTurn_writeCtrl (hreset hctrl) s
  · exact ⟨unmoved_fields s .., .inl ⟨rfl, rfl, rfl⟩⟩
  · exact busyTurn_writeCmdHi v hbusy
  · exact ⟨.refl s, .inl ⟨rfl, rfl, rfl⟩⟩

theorem busyTurn_hostAct {act : HostAction} {rest : List HostAction} {s t : State} (hbusy : s.busy = true)
    (hreset : resetsBlock act = false) (h : hostAct act rest s = .next t) : BusyTurn s t := by
  obtain ⟨off, data, wstrb, rfl, h⟩ | ⟨off, -, h⟩ | ⟨-, -, rfl⟩ | ⟨-, hidle, -⟩ | ⟨rfl, -⟩ := hostAct_cases h
  · obtain ⟨-, ⟨-, -, rfl⟩ | ⟨-, hidle, -⟩⟩ := hostWrite_cases h
    · refine (busyTurn_writeRegister (s := { s with host := rest }) hbusy fun hoff => ?_).of_host_wait
      have hctrl : off = 0x08 := BitVec.eq_of_toNat_eq hoff
      simpa [resetsBlock, hctrl] using hreset
    · cases hbusy.symm.trans hidle
  · have hread := hostRead_cases h
    exact ⟨(unmoved_fields s ..).trans (unmoved_of_hostRead h), .inl (by rw [hread]; exact ⟨rfl, rfl, rfl⟩)⟩
  · exact ⟨.refl _, .inl ⟨rfl, rfl, rfl⟩⟩
  · cases hbusy.symm.trans hidle
  · cases hreset

theorem busyTurn_step {s t : State} (hbusy : s.busy = true) (hwait : s.wait ≠ 0)
    (hreset : s.host.head?.any resetsBlock = false) (h : step s = .next t) : BusyTurn s t := by
  cases hhost : s.host with
  | nil =>
    rw [step_of_host_nil (.inr hwait) hhost] at h
    cases h
    exact ⟨unmoved_passTurn s, .inl (by rw [passTurn_shape]; exact ⟨rfl, rfl, rfl⟩)⟩
  | cons act rest =>
    rw [step_of_host_cons (.inr hwait) hhost, passTurn_shape] at h
    rw [hhost] at hreset
    exact (busyTurn_hostAct (s := { s with wait := (passTurn s).wait }) hbusy hreset h).of_host_wait

/-- Settles O52, by what a host turn can do while BUSY = 1 (`busyTurn_step`). -/
theorem nothingMovesWhileBusy : Obligations.NothingMovesWhileBusy := by
  intro s t hbusy hwait hreset h
  obtain ⟨hunmoved, herror⟩ := busyTurn_step hbusy hwait hreset h
  obtain ⟨h256, h512, hhmac⟩ := hunmoved.instances
  exact ⟨h256, h512, hhmac, hunmoved.mem, hunmoved.fatal, hunmoved.busy.trans hbusy, hunmoved.inflight,
    hunmoved.params, hunmoved.done, herror⟩

end Sys2Proof.Machine

/-!
PROOFS. POKE (43_system.md R199): a host program's window writes, word by word.
-/
namespace Sys2Proof.Machine

/-! ## The word and the strobes of one window write -/

section
variable (a : Nat) (bytes : List Byte)

/-- The word that POKE writes to word `k`. Tied to the model by `pokeWord_eq`. -/
def pokeData (k : Nat) : Word32 :=
  pokeByte a bytes (4 * k + 3) ++ pokeByte a bytes (4 * k + 2)
    ++ pokeByte a bytes (4 * k + 1) ++ pokeByte a bytes (4 * k)

/-- The strobes with which POKE writes word `k`. Tied to the model by `pokeWord_eq`. -/
def pokeStrobe (k : Nat) : BitVec 4 :=
  BitVec.ofBool (pokeSets a bytes (4 * k + 3)) ++ BitVec.ofBool (pokeSets a bytes (4 * k + 2))
    ++ BitVec.ofBool (pokeSets a bytes (4 * k + 1)) ++ BitVec.ofBool (pokeSets a bytes (4 * k))

theorem pokeWord_eq (k : Nat) :
    pokeWord a bytes k = .write (wordOffset k) (pokeData a bytes k) (pokeStrobe a bytes k) := rfl

theorem pokeData_lane (k : Nat) {j : Nat} (hj : j < 4) :
    (pokeData a bytes k).extractLsb' (8 * j) 8 = pokeByte a bytes (4 * k + j) := by
  rw [pokeData, extractLsb'_append_byte, extractLsb'_append_byte, extractLsb'_append_byte]
  interval_cases j <;> simp

theorem pokeStrobe_lane (k : Nat) {j : Nat} (hj : j < 4) :
    (pokeStrobe a bytes k).getLsbD j = pokeSets a bytes (4 * k + j) := by
  rw [pokeStrobe, getLsbD_append_ofBool, getLsbD_append_ofBool, getLsbD_append_ofBool]
  interval_cases j <;> simp

/-! ## The words one after another -/

/-- `m'` is `m` with the bytes that POKE sets in the words `ks`. -/
def PokedWords (ks : List Nat) (m m' : Memory) : Prop :=
  ∀ x, Memory.read m' x =
    if x / 4 ∈ ks ∧ pokeSets a bytes x = true then some (pokeByte a bytes x) else Memory.read m x

theorem pokedWords_writeWindow {k : Nat} {s : State} (hmem : 4 * k + 3 < s.params.memSize) :
    PokedWords a bytes [k] s.mem (writeWindow (4 * k) (pokeData a bytes k) (pokeStrobe a bytes k) s).mem := by
  intro x
  by_cases hx : x / 4 = k
  · obtain ⟨j, hj, rfl⟩ : ∃ j < 4, x = 4 * k + j := ⟨x % 4, Nat.mod_lt x (by decide), by omega⟩
    rw [read_writeWindow_lane hmem _ _ hj, pokeData_lane a bytes k hj, pokeStrobe_lane a bytes k hj]
    simp [hx]
  · rw [read_writeWindow_outside hmem _ _ (by omega)]
    simp [hx]

variable {a bytes} in
theorem PokedWords.cons {k : Nat} {ks : List Nat} {m m' m'' : Memory} (hfirst : PokedWords a bytes [k] m m')
    (hrest : PokedWords a bytes ks m' m'') : PokedWords a bytes (k :: ks) m m'' := by
  intro x
  rw [hrest x, hfirst x]
  by_cases hset : pokeSets a bytes x = true
  · by_cases hks : x / 4 ∈ ks <;> simp [hset, hks]
  · simp [hset]

/-- A window write of POKE, as the next step of an idle block. -/
theorem step_pokeWord {k : Nat} {s : State} {rest : List HostAction} (hsize : s.params.memSize ≤ 65536)
    (hbusy : s.busy = false) (hmem : 4 * k + 3 < s.params.memSize) (hhost : s.host = pokeWord a bytes k :: rest) :
    ∃ m, step s = .next { s with mem := m, host := rest } ∧ PokedWords a bytes [k] s.mem m := by
  have hwrite := hostWrite_window (k := k) (by omega) (pokeData a bytes k) (pokeStrobe a bytes k)
    (s := { s with host := rest }) hbusy
  rw [writeWindow_eq] at hwrite
  exact ⟨_, (step_of_idle hbusy hhost).trans hwrite, pokedWords_writeWindow a bytes (s := { s with host := rest }) hmem⟩

/-- The window writes of POKE to words inside MEM, from an idle block. -/
theorem run_pokeWords {rest : List HostAction} (ks : List Nat) {s : State} (hsize : s.params.memSize ≤ 65536)
    (hbusy : s.busy = false) (hmem : ∀ k ∈ ks, 4 * k + 3 < s.params.memSize)
    (hhost : s.host = ks.map (pokeWord a bytes) ++ rest) :
    ∃ m, Host.Core.run core ks.length s = .next { s with mem := m, host := rest } ∧
      PokedWords a bytes ks s.mem m := by
  induction ks generalizing s with
  | nil =>
    cases hhost
    exact ⟨s.mem, rfl, fun x => by simp⟩
  | cons k ks ih =>
    obtain ⟨hk, hks⟩ := List.forall_mem_cons.1 hmem
    obtain ⟨m, hstep, hfirst⟩ := step_pokeWord a bytes hsize hbusy hk hhost
    obtain ⟨m', hrun, hrest⟩ := ih (s := { s with mem := m, host := ks.map (pokeWord a bytes) ++ rest })
      hsize hbusy hks rfl
    exact ⟨m', (run_succ_of_step hstep ks.length).trans hrun, hfirst.cons hrest⟩

end

/-! ## The words that a POKE touches -/

theorem mem_wordsTouched {a n k : Nat} : k ∈ wordsTouched a n ↔ n ≠ 0 ∧ a / 4 ≤ k ∧ k ≤ (a + n - 1) / 4 := by
  unfold wordsTouched
  split
  · next h => simp [h]
  · next h =>
    rw [List.mem_range'_1]
    omega

/-- MEM_SIZE is a whole number of words, and the window holds all of MEM (00_scope.md R5). -/
theorem Params.memSize_of_valid {p : Params} (h : p.valid = true) : p.memSize % 4 = 0 ∧ p.memSize ≤ 65536 := by
  simp [Params.valid] at h
  omega

theorem pokeSets_iff (a : Nat) (bytes : List Byte) (x : Nat) :
    pokeSets a bytes x = true ↔ a ≤ x ∧ x < a + bytes.length := decide_eq_true_iff

/-- Settles O53: the words touched lie inside MEM, so `run_pokeWords` runs their window writes, and each of the bytes
lies in a word touched. -/
theorem pokeStoresItsBytes : Obligations.PokeStoresItsBytes := by
  intro s a bytes rest hparams hbusy hfits hhost
  obtain ⟨hwords, hsize⟩ := Params.memSize_of_valid hparams
  have hmem (k : Nat) (hk : k ∈ wordsTouched a bytes.length) : 4 * k + 3 < s.params.memSize := by
    rw [mem_wordsTouched] at hk
    omega
  obtain ⟨m, hrun, hpoked⟩ := run_pokeWords a bytes _ hsize hbusy hmem hhost
  refine ⟨m, by rwa [poke, List.length_map], ?_, fun x hx => ?_⟩
  · refine (Memory.readBytes_eq_some _ _ _ _).2 ⟨rfl, fun i hi => ?_⟩
    rw [hpoked, if_pos ⟨mem_wordsTouched.2 (by omega), (pokeSets_iff ..).2 (by omega)⟩]
    simp [pokeByte]
  · rw [hpoked, if_neg]
    rintro ⟨-, hset⟩
    have hinside := (pokeSets_iff ..).1 hset
    omega

end Sys2Proof.Machine

/-!
PROOFS. The error conditions of 60_exceptions.md: a command's checks are R216's list of conditions, and what issue does
with each of them.
-/
namespace Sys2Proof.Machine

/-! ## What a command's checks find (R208 to R211, R216) -/

open Classical in
/-- A command's checks find the first of R216's conditions that holds of it: its rule lists, in the same order, the
conditions that can hold of it. By these the commands fall into four groups: with none, with RANGE alone, with
USE_AFTER_FINAL before RANGE (FINAL), and with LENGTH_LIMIT behind both (WRITE); NOT_KEYED comes first for HMAC. -/
theorem commandError_eq (i : Instr) (s : State) : commandError i s =
    if usesMissingKey i s then some .notKeyed
    else if usesFinalized i s then some .useAfterFinal
    else if passesMemory i s then some .range
    else if passesLimit i s then some .lengthLimit
    else none := by
  unfold commandError usesMissingKey usesFinalized passesMemory passesLimit
  cases i with
  | nop | s256Init | s512Init | hmacClear =>
    simp [checkNop, checkS256Init, checkS512Init, checkHmacClear, readSpan, writeSpan]
  | s256Xform | s256Ldst | s256Stst | s512Xform | s512Ldst | s512Stst | hmacKey =>
    simp [checkS256Xform, checkS256Ldst, checkS256Stst, checkS512Xform, checkS512Ldst, checkS512Stst, checkHmacKey,
      firstError, outOfRange, readSpan, writeSpan]
  | s256Final | s512Final | hmacFinal =>
    simp [checkS256Final, checkS512Final, checkHmacFinal, firstError, outOfRange, readSpan, writeSpan]
  | s256Write | s512Write | hmacWrite =>
    simp [checkS256Write, checkS512Write, checkHmacWrite, firstError, outOfRange, overLimit, readSpan, writeSpan]

/-- Settles O33: `exec_of_commandError_some`, as `raiseError` sets the error record alone. -/
theorem errorsArePrecise : Obligations.ErrorsArePrecise := fun _ _ _ => exec_of_commandError_some

/-- Settles O35: once no key or finalized condition holds, RANGE is the next in R216's list (`commandError_eq`). -/
theorem rangeIsExact : Obligations.RangeIsExact := by
  intro i s hkey hfinal
  rw [commandError_eq, if_neg hkey, if_neg hfinal]
  by_cases hrange : passesMemory i s
  · simp [hrange]
  · by_cases hlimit : passesLimit i s <;> simp [hrange, hlimit]

/-! ## Words that decode (30_encoding.md R88, R90 to R92) -/

/-- An opcode that is not reserved is a command's (30_encoding.md R89, R90). -/
theorem exists_opcode_of_not_reserved {w : Command} (hlisted : reservedOpcode w = false) :
    ∃ i : Instr, opcField w = i.opcode := by
  have hlist : ∀ opc < 0x25, ¬ (0x07 ≤ opc ∧ opc ≤ 0x10) → ¬ (0x17 ≤ opc ∧ opc ≤ 0x20) →
      ∃ i ∈ representatives, opc = i.opcode.toNat := by decide
  simp only [reservedOpcode, decide_eq_false_iff_not, not_or, not_le] at hlisted
  obtain ⟨hlow, hmid, hhigh⟩ := hlisted
  obtain ⟨i, -, hop⟩ := hlist _ hhigh hlow hmid
  exact ⟨i, BitVec.eq_of_toNat_eq hop⟩

/-- With no reserved field set, the fields that a command's format does not use are zero (30_encoding.md R88, R91). -/
theorem unusedZero_of_not_reservedFieldSet {w : Command} {i : Instr} (hop : opcField w = i.opcode)
    (hzero : reservedFieldSet w = false) : i.layout.unusedZero w := by
  rw [reservedFieldSet, hop] at hzero
  cases i <;>
    simpa [srcMustBeZero, dstMustBeZero, lenMustBeZero, Instr.opcode, Instr.layout, Layout.unusedZero, and_assoc]
      using hzero

theorem exists_decode {w : Command} (hlisted : reservedOpcode w = false) (hzero : reservedFieldSet w = false) :
    ∃ i, decode w = .ok i := by
  obtain ⟨i, hop⟩ := exists_opcode_of_not_reserved hlisted
  obtain ⟨j, hdecode, -⟩ := decode_of_unusedZero hop (unusedZero_of_not_reservedFieldSet hop hzero)
  exact ⟨j, hdecode⟩

/-! ## Issue, case by case (R214, R216, 43_system.md R190) -/

theorem issue_of_stopped {s : State} (hstopped : s.fatal = true ∨ s.err = true) (w : Command) :
    issue w s = discard s := by
  rw [issue, if_pos (Bool.or_eq_true_iff.2 hstopped)]

theorem issue_of_busy {s : State} (hfatal : s.fatal = false) (herr : s.err = false) (hbusy : s.busy = true)
    (w : Command) : issue w s = raiseError .busyOverrun w s := by
  simp [issue, hfatal, herr, hbusy]

theorem issue_of_check_failed {w : Command} {i : Instr} {s : State} {code : ErrCode} (hready : State.ready s = true)
    (hdecode : decode w = .ok i) (hcheck : commandError i s = some code) : issue w s = raiseError code w s := by
  rw [issue_of_ready hready, decodeAndCheck, hdecode]
  simp only [hcheck]

/-- Settles O34: the block's state comes first, then decoding (`decode_of_reservedOpcode`, `decode_of_reservedFieldSet`,
`exists_decode`), then the command's checks, whose order is R216's (`commandError_eq`). -/
theorem issueFollowsThePriority : Obligations.IssueFollowsThePriority := by
  refine fun w s => ⟨fun hstopped => issue_of_stopped hstopped w,
    fun hfatal herr hbusy => issue_of_busy hfatal herr hbusy w, fun hready =>
    ⟨fun hreserved => issue_of_decode_error hready (decode_of_reservedOpcode hreserved),
    fun hlisted hset => issue_of_decode_error hready (decode_of_reservedFieldSet hlisted hset),
    fun hlisted hzero => ?_⟩⟩
  obtain ⟨i, hdecode⟩ := exists_decode hlisted hzero
  have hfails {code : ErrCode} (hcheck : commandError i s = some code) : issue w s = raiseError code w s :=
    issue_of_check_failed hready hdecode hcheck
  refine ⟨i, hdecode, fun hkey => hfails ?_, fun hkey hfinal => hfails ?_, fun hkey hfinal hrange => hfails ?_,
    fun hkey hfinal hrange hlimit => hfails ?_,
    fun hkey hfinal hrange hlimit => ⟨_, _, issue_of_check_passed hready hdecode ?_⟩⟩
  · rw [commandError_eq, if_pos hkey]
  · rw [commandError_eq, if_neg hkey, if_pos hfinal]
  · rw [commandError_eq, if_neg hkey, if_neg hfinal, if_pos hrange]
  · rw [commandError_eq, if_neg hkey, if_neg hfinal, if_neg hrange, if_pos hlimit]
  · rw [commandError_eq, if_neg hkey, if_neg hfinal, if_neg hrange, if_neg hlimit]

end Sys2Proof.Machine

/-!
PROOFS. The end of the self-test, the soft reset and what FATAL allows (70_reset_and_hazards.md R236, R237, R239, R240).
-/
namespace Sys2Proof.Machine

/-! ## The end of the self-test (R236, R237) -/

theorem step_of_selfTestTurn {s : State} (hbusy : s.busy = true) (hnone : s.inflight = none) (hwait : s.wait = 0) :
    step s = .next (selfTestEnd s) := by
  simp [step, engineTurn, engineStep, hbusy, hnone, hwait]

/-- Settles O48: the engine's turn with nothing in flight ends the self-test (`step_of_selfTestTurn`). -/
theorem selfTestEnds : Obligations.SelfTestEnds := by
  intro s hbusy hnone hwait
  rw [step_of_selfTestTurn hbusy hnone hwait]
  exact ⟨fun hpass => congrArg Host.Outcome.next (selfTestEnd_of_pass s hpass),
    fun hfail => congrArg Host.Outcome.next (selfTestEnd_of_fail s hfail)⟩

/-! ## MEM after an abort (R240) -/

/-- An abort makes no byte written or unwritten. -/
theorem isSome_read_abort (s : State) (x : Nat) :
    (Memory.read (abort s).mem x).isSome = (Memory.read s.mem x).isSome := by
  unfold abort
  split
  · rfl
  · exact Memory.isSome_read_scramble s.mem _ _ s.draws x

/-- An abort draws bytes in the write span in flight alone. -/
theorem read_abort_outside {s : State} {x : Nat} (hx : inSpan (inflightWriteSpan s) x = false) :
    Memory.read (abort s).mem x = Memory.read s.mem x := by
  unfold abort
  split
  · rfl
  · next a n hspan =>
    have houtside : ¬ (a ≤ x ∧ x < a + n) := by rwa [hspan, ← Bool.not_eq_true, inSpan_some] at hx
    exact Memory.read_scramble_outside s.mem a n s.draws x (by omega)

/-! ## The soft reset (R239) -/

/-- A CTRL write with SOFT_RESET set (43_system.md R196). -/
theorem hostWrite_softReset {v : Word32} (hbit : v.getLsbD 31 = true) (s : State) :
    hostWrite 0x08 v 0xF s = .next (softReset s) := by
  have hctrl : hostWrite 0x08 v 0xF s = .next (writeCtrl v s) :=
    hostWrite_register (off := 0x08) (by decide) (by decide) v s
  rw [hctrl, writeCtrl, if_pos hbit]

/-- Settles O49: outside the self-test the registers are those of `softReset_of_not_selfTestRunning`, and MEM is what
the abort leaves (`isSome_read_abort`, `read_abort_outside`). -/
theorem softReset_by_ctrlWrite : Obligations.SoftReset := by
  intro v s hbit
  rw [hostWrite_softReset hbit]
  refine ⟨fun hrunning => by rw [softReset_of_selfTestRunning hrunning], fun hrunning => ⟨_, rfl, ?_⟩⟩
  rw [softReset_of_not_selfTestRunning hrunning]
  exact ⟨rfl, rfl, rfl, rfl, rfl, rfl, rfl, rfl, rfl, rfl, rfl, rfl, rfl, rfl, rfl, rfl, rfl, rfl, rfl,
    isSome_read_abort s, fun _ => read_abort_outside⟩

/-! ## No host action but a hardware reset changes FATAL (R237, R239, 60_exceptions.md R213) -/

@[simp] theorem softReset_fatal (s : State) : (softReset s).fatal = s.fatal := by
  cases hrunning : State.selfTestRunning s
  · rw [softReset_of_not_selfTestRunning hrunning]
  · rw [softReset_of_selfTestRunning hrunning]

@[simp] theorem issue_fatal (w : Command) (s : State) : (issue w s).fatal = s.fatal := by
  obtain ⟨-, h⟩ | ⟨-, -, -, h⟩ | ⟨-, -, -, ⟨_, -, h⟩ | ⟨_, _, -, -, h⟩ | ⟨_, -, -, h⟩⟩ := issue_cases w s <;> simp [h]

@[simp] theorem writeCtrl_fatal (v : Word32) (s : State) : (writeCtrl v s).fatal = s.fatal := by
  obtain ⟨-, h⟩ | ⟨-, h⟩ := writeCtrl_cases v s <;> simp [h]

@[simp] theorem writeRegister_fatal (off : Nat) (v : Word32) (s : State) :
    (writeRegister off v s).fatal = s.fatal := by
  obtain ⟨-, h⟩ | ⟨-, h⟩ | ⟨-, h⟩ | h := writeRegister_cases off v s <;> simp [h, writeCmdHi]

@[simp] theorem writeWindow_fatal (a : Nat) (data : Word32) (wstrb : BitVec 4) (s : State) :
    (writeWindow a data wstrb s).fatal = s.fatal := by
  rw [writeWindow_eq]

theorem hostWrite_fatal {off : BitVec 17} {data : Word32} {wstrb : BitVec 4} {s t : State}
    (h : hostWrite off data wstrb s = .next t) : t.fatal = s.fatal := by
  obtain ⟨-, ⟨-, -, rfl⟩ | ⟨-, -, rfl⟩⟩ := hostWrite_cases h <;> simp

theorem hostAct_fatal {act : HostAction} {rest : List HostAction} {s t : State} (hreset : act ≠ .hardwareReset)
    (h : hostAct act rest s = .next t) : t.fatal = s.fatal := by
  obtain ⟨_, _, _, -, h⟩ | ⟨_, -, h⟩ | ⟨-, -, rfl⟩ | ⟨-, -, rfl⟩ | ⟨hact, -⟩ := hostAct_cases h
  · rw [hostWrite_fatal h]
  · exact (unmoved_of_hostRead h).fatal
  · rfl
  · rfl
  · exact absurd hact hreset

/-- While BUSY = 0 a step is a host turn. -/
theorem step_fatal_of_idle {s t : State} (hidle : s.busy = false) (hreset : s.host.head? ≠ some .hardwareReset)
    (h : step s = .next t) : t.fatal = s.fatal := by
  cases hhost : s.host with
  | nil =>
    rw [step_of_host_nil (.inl hidle) hhost, passTurn_of_idle s hidle] at h
    cases h
    rfl
  | cons act rest =>
    rw [step_of_host_cons (.inl hidle) hhost, passTurn_of_idle s hidle] at h
    refine hostAct_fatal (fun hact => hreset ?_) h
    rw [hhost, hact, List.head?_cons]

/-! ## A block that is not busy runs no command -/

/-- No host action sets DONE. -/
theorem HostEffect.done {s t : State} (h : HostEffect s t) (hdone : t.done = true) : s.done = true := by
  cases h with
  | unmoved h => exact h.done hdone
  | windowWrite a data wstrb => rwa [writeWindow_eq] at hdone
  | accepted => exact hdone
  | softReset =>
    cases hrunning : State.selfTestRunning s
    · rw [softReset_of_not_selfTestRunning hrunning] at hdone
      cases hdone
    · rwa [softReset_of_selfTestRunning hrunning] at hdone
  | hardwareReset => cases hdone

/-- While BUSY = 0 a step is a host action's effect: nothing is in flight and no self-test runs (10_state.md R40). -/
theorem step_effect_of_idle {s t : State} (hinflight : State.inflightOk s) (hidle : s.busy = false)
    (h : step s = .next t) : ∃ u, Unmoved s u ∧ HostEffect u t := by
  obtain ⟨hbusy, -, -⟩ | ⟨w, i, hw, -, -⟩ | heffect := step_effect h
  · cases hbusy.symm.trans hidle
  · cases (hinflight w hw).1.symm.trans hidle
  · exact heffect

/-- Settles O50: FATAL leaves the block idle, so a step is a host turn. It keeps FATAL (`step_fatal_of_idle`), so the
invariant keeps FATAL's error record and BUSY = 0; and it runs no command (`step_effect_of_idle`). -/
theorem fatalIsForever : Obligations.FatalIsForever := by
  intro s t hs hfatal hreset h
  have hidle : s.busy = false := by
    obtain ⟨-, -, hrecord⟩ := hs.errorRecord
    obtain ⟨-, -, -, hidle, -⟩ := hrecord hfatal
    exact hidle
  have hkept : t.fatal = true := (step_fatal_of_idle hidle hreset h).trans hfatal
  obtain ⟨-, -, hrecord⟩ := (step_inv hs h).errorRecord
  obtain ⟨herr, hcode, -, hbusy, -⟩ := hrecord hkept
  obtain ⟨u, hu, heffect⟩ := step_effect_of_idle hs.inflight hidle h
  have hdone : t.done = (t.done && s.done) := by
    cases hset : t.done
    · rfl
    · rw [hu.done (heffect.done hset)]; rfl
  refine ⟨hkept, herr, hcode, hbusy, hdone, ?_⟩
  obtain ⟨k256, k512, -⟩ := hu.instances
  obtain ⟨h256, h512, -⟩ | ⟨h256, h512, -⟩ := heffect.instances
  · exact ⟨.inl (h256.trans k256), .inl (h512.trans k512)⟩
  · exact ⟨.inr h256, .inr h512⟩

end Sys2Proof.Machine
